-- ==== Sys2Proof/Word.lean ====
section
/-! DEFINITION. The widths the spec computes in (R12, R116): bytes and 32-bit MIC values, all unsigned. -/

namespace Sys2Proof

/-- A byte: bit 7 is its most significant bit, bit 0 its least (R12). -/
abbrev Byte := BitVec 8

/-- A MIC value or the MIC register, 32 bits (R24, R105). -/
abbrev Word32 := BitVec 32

/-- A time: a whole number of milliseconds since an origin the host chooses (R91, R160). -/
abbrev Time := Nat

end Sys2Proof
end

