-- ==== Sys2Proof/Config.lean ====
section
/-! DEFINITION. The parameters of the block, each with the value this hardware takes (R10, R30). None of them is
runtime state: a host that needs another value needs another block (R30). -/

namespace Sys2Proof.Config

/-- `CMD_CODE`: the SMBus command code byte of every frame (R73). -/
def cmdCode : Byte := 0x0F

/-- `HDR_VER`: the MCTP header version, low 4 bits of byte 4 (R75). -/
def hdrVer : BitVec 4 := 1

/-- `MAX_TX_PAYLOAD`: the largest chunk of an outbound packet, in bytes (R10, R11). -/
def maxTxPayload : Nat := 120

/-- `MAX_RX_PACKET`: the largest inbound packet, in bytes (R10). -/
def maxRxPacket : Nat := 256

/-- `MIN_FRAME`: the shortest frame `PARSE` accepts, in bytes (R139). -/
def minFrame : Nat := 10

/-- `T_REASM`: the reassembly deadline, in milliseconds from the SOM packet (R160, R221). -/
def tReasm : Nat := 100

/-- `DEFAULT_DEST_ADDR`: the reset value of `CFG_DEST_ADDR` (R26). -/
def defaultDestAddr : Byte := 0x3A

/-- `DEFAULT_SRC_ADDR`: the reset value of `CFG_SRC_ADDR` (R27). -/
def defaultSrcAddr : Byte := 0x21

/-- `DEFAULT_SRC_EID`: the reset value of `CFG_SRC_EID` (R28). -/
def defaultSrcEid : Byte := 0x00

/-- `REASM_CAP`: the capacity of `RX_BUF` in bytes, `none` for unbounded. The spec leaves it open with the default
unbounded (R10, R169, decision D27); the machine takes the default. DESIGN CHOICE (log 7), unsafe for a device whose
buffer is finite: the operations over the buffer take the capacity as an argument, and their lemmas hold for every one. -/
def reasmCap : Option Nat := none

end Sys2Proof.Config
end

