-- ==== Sys2Proof/Machine/Flags.lean ====
section
/-! DEFINITION. The two packet bytes made of bit fields: the flags byte (R77) and the message-type byte (R78), built and
taken apart. The block has no status register and no condition codes (R31). -/

namespace Sys2Proof.Machine

/-- A single bit as a byte: 0 or 1. -/
def bitByte (b : Bool) : Byte := (BitVec.ofBool b).setWidth 8

/-- The flags byte (R77): `SOM<<7 | EOM<<6 | (seq & 3)<<4 | TO<<3 | (tag & 7)`. A wider `seq` or `tag` is masked. -/
def flagsByte (som eom : Bool) (seq : Byte) (toBit : Bool) (tag : Byte) : Byte :=
  (bitByte som <<< 7) ||| (bitByte eom <<< 6) ||| ((seq &&& 3) <<< 4) ||| (bitByte toBit <<< 3) ||| (tag &&& 7)

/-- `som = flags[7]` (R77). -/
def flagsSom (fl : Byte) : Bool := fl.getLsbD 7

/-- `eom = flags[6]` (R77). -/
def flagsEom (fl : Byte) : Bool := fl.getLsbD 6

/-- `seq = flags[5:4]` (R77). -/
def flagsSeq (fl : Byte) : BitVec 2 := fl.extractLsb' 4 2

/-- `to = flags[3]` (R77). -/
def flagsTo (fl : Byte) : Bool := fl.getLsbD 3

/-- `tag = flags[2:0]` (R77). -/
def flagsTag (fl : Byte) : BitVec 3 := fl.extractLsb' 0 3

/-- The message-type byte (R78): `IC<<7 | msg_type`. -/
def msgByte (ic : Bool) (msgType : BitVec 7) : Byte :=
  (bitByte ic <<< 7) ||| msgType.setWidth 8

/-- Bit 7 of the message-type byte (R78, R38). -/
def msgByteIc (mb : Byte) : Bool := mb.getLsbD 7

/-- Bits 6:0 of the message-type byte (R78, R38). -/
def msgByteType (mb : Byte) : BitVec 7 := mb.extractLsb' 0 7

/-- The version byte the builders write: bits 7:4 zero, bits 3:0 the header version (R75). -/
def versionByte : Byte := Config.hdrVer.setWidth 8

/-- Bits 7:4 of byte 4, the frame's reserved field (R75). -/
def versionReserved (b : Byte) : BitVec 4 := b.extractLsb' 4 4

/-- Bits 3:0 of byte 4, the header version (R75). -/
def versionField (b : Byte) : BitVec 4 := b.extractLsb' 0 4

end Sys2Proof.Machine
end

