-- ==== Sys2Proof/Syntax.lean ====
section
/-! DEFINITION. The operations of the block, the packet classes, and their operands (R80, R86, R90). -/

namespace Sys2Proof

/-- `ParsedFrame` (R86), the `Ok` result of `PARSE` and the operand of `REASM`. `micOk` is absent or 1; the value
`some false` is no value of the field (R141) and `Instr.wellFormed` refuses it. -/
structure ParsedFrame where
  destAddr  : Byte
  byteCount : Byte
  srcAddr   : Byte
  version   : BitVec 4
  destEid   : Byte
  srcEid    : Byte
  som       : Bool
  eom       : Bool
  toBit     : Bool
  seq       : BitVec 2
  tag       : BitVec 3
  ic        : Bool
  msgType   : BitVec 7
  payload   : List Byte
  mic       : Option Word32
  micOk     : Option Bool
  pecOk     : Bool
  deriving DecidableEq, Repr

/-- The fields of packet bytes 0 to 8 that a packet class leaves free (R80, R94). -/
structure PktHeader where
  destAddr  : Byte
  byteCount : Byte
  srcAddr   : Byte
  destEid   : Byte
  srcEid    : Byte
  seq       : BitVec 2
  toBit     : Bool
  tag       : BitVec 3
  msgType   : BitVec 7
  deriving DecidableEq, Repr

/-- One constructor per row of `opcode_table.json`, operands in the order of R90. A packet class carries the time at
which the transport delivers the packet, the free fields of bytes 0 to 8, and the bytes from offset 9 on (chunk, MIC
field where there is one, PEC). -/
inductive Instr where
  | reset
  | cfgWrite (sel : BitVec 2) (value : Byte)
  | cfgRead (sel : BitVec 2)
  | nextTag
  | pecCalc (span : List Byte)
  | pecInit
  | pecUpdate (byte : Byte)
  | pecRead
  | micCalc (span : List Byte)
  | micInit
  | micUpdate (byte : Byte)
  | micRead
  | buildSingle (destAddr srcAddr destEid srcEid tag : Byte) (msgType : BitVec 7) (payload : List Byte) (ic : Bool)
  | buildFragment (destAddr srcAddr destEid srcEid : Byte) (msgType : BitVec 7) (ic som eom : Bool) (seq tag : Byte)
      (chunk : List Byte) (micIn : Option Word32)
  | parse (packet : List Byte)
  | buildFragmented (destEid : Byte) (msgType : BitVec 7) (payload : List Byte) (ic : Bool)
  | reasm (now : Time) (frame : ParsedFrame)
  | rxPacket (now : Time) (packet : List Byte)
  | tick (now : Time)
  | pktSingle (now : Time) (h : PktHeader) (tail : List Byte)
  | pktSingleIc (now : Time) (h : PktHeader) (tail : List Byte)
  | pktFirst (now : Time) (h : PktHeader) (tail : List Byte)
  | pktFirstIc (now : Time) (h : PktHeader) (tail : List Byte)
  | pktMiddle (now : Time) (h : PktHeader) (tail : List Byte)
  | pktMiddleIc (now : Time) (h : PktHeader) (tail : List Byte)
  | pktLast (now : Time) (h : PktHeader) (tail : List Byte)
  | pktLastIc (now : Time) (h : PktHeader) (tail : List Byte)
  deriving DecidableEq, Repr

/-- One input at the block's interface: an operation the host issues, as bytes (the command code, then the operands), or
a packet the transport delivers at a time (R8, R60, R240). DESIGN CHOICE (log 1, log 2, log 3), safe. -/
inductive Input where
  | command (bytes : List Byte)
  | packet (now : Time) (bytes : List Byte)
  deriving DecidableEq, Repr

end Sys2Proof
end

