-- ==== Sys2Proof/Machine/Operands.lean ====
section
/-! DEFINITION. The forms in which operations read and write byte sequences (R13, R14, R51, R70): the MIC's little-endian
form, and packet bytes 0 to 8 as header fields. -/

namespace Sys2Proof.Machine

/-- `LE32(v)` (R14, R51): least significant byte first. -/
def le32 (v : Word32) : List Byte :=
  [v.extractLsb' 0 8, v.extractLsb' 8 8, v.extractLsb' 16 8, v.extractLsb' 24 8]

/-- `UnLE32(b)` (R14): the inverse of `le32` on a 4-byte sequence. -/
def unLe32 (b : List Byte) : Word32 :=
  b.getD 3 0 ++ b.getD 2 0 ++ b.getD 1 0 ++ b.getD 0 0

/-- Byte `i` of a packet, `b[i]` (R13). Every use stands behind a length check (R66). -/
def byteAt (b : List Byte) (i : Nat) : Byte := b.getD i 0

/-- The bytes of a packet of the class that `som`, `eom` and `ic` select (R70, R80): the header, then the bytes from
offset 9 on. -/
def packetBytes (som eom ic : Bool) (h : PktHeader) (tail : List Byte) : List Byte :=
  [h.destAddr, Config.cmdCode, h.byteCount, h.srcAddr, versionByte, h.destEid, h.srcEid,
    flagsByte som eom (h.seq.setWidth 8) h.toBit (h.tag.setWidth 8), msgByte ic h.msgType] ++ tail

end Sys2Proof.Machine
end

