-- ==== Sys2Proof/WellFormed.lean ====
section
/-! DEFINITION. Which instructions have an encoding. Widths are in the types; an operand over a limit that the block itself
checks (R92) is well formed, because the block answers it with `Usage`. -/

namespace Sys2Proof

/-- `mic_ok` is absent or 1, never 0 (R86, R141). -/
def ParsedFrame.wellFormed (f : ParsedFrame) : Bool :=
  f.micOk != some false

/-- A packet of `9 + tail.length` bytes has a legal length: 10 to 256 bytes (R85). -/
def packetTailOk (tail : List Byte) : Bool :=
  decide (Config.minFrame ≤ 9 + tail.length) && decide (9 + tail.length ≤ Config.maxRxPacket)

/-- The instruction is one the interface can carry. -/
def Instr.wellFormed : Instr → Bool
  | .reset => true
  | .cfgWrite _ _ => true
  | .cfgRead _ => true
  | .nextTag => true
  | .pecCalc _ => true
  | .pecInit => true
  | .pecUpdate _ => true
  | .pecRead => true
  | .micCalc _ => true
  | .micInit => true
  | .micUpdate _ => true
  | .micRead => true
  | .buildSingle _ _ _ _ _ _ _ _ => true
  | .buildFragment _ _ _ _ _ _ _ _ _ _ _ _ => true
  | .parse _ => true
  | .buildFragmented _ _ _ _ => true
  | .reasm _ f => f.wellFormed
  | .rxPacket _ _ => true
  | .tick _ => true
  | .pktSingle _ _ tail => packetTailOk tail
  | .pktSingleIc _ _ tail => packetTailOk tail
  | .pktFirst _ _ tail => packetTailOk tail
  | .pktFirstIc _ _ tail => packetTailOk tail
  | .pktMiddle _ _ tail => packetTailOk tail
  | .pktMiddleIc _ _ tail => packetTailOk tail
  | .pktLast _ _ tail => packetTailOk tail
  | .pktLastIc _ _ tail => packetTailOk tail

end Sys2Proof
end

