-- ==== Sys2Proof/Decode.lean ====
section
/-! DEFINITION. The decoder, total on any bytes, and after it the encoder. The command codes are R90's; the packet classes
are told apart as R80 says. The spec gives an operation's operands no byte layout, so the layout here is the model's
own: DESIGN CHOICE (log 2), safe (it fixes no effect of any operation). After the command code come the operands in R90's
order: an operand of at most 8 bits is one byte whose unused high bits are zero; `now` and the length of a byte sequence are
numbers in groups of 7 bits, low group first, bit 7 set on every group but the last; a byte sequence is its length, then its
bytes; an operand that may be absent is the byte 0, or the byte 1 and the value; a 32-bit value is little-endian. -/

namespace Sys2Proof

open Machine

/-- Why the decoder refuses the bytes on the command port. -/
inductive DecodeError where
  /-- There is no byte at all, so no command code. -/
  | noCommandCode
  /-- The command code is none of R90's (the block raises `Usage`). -/
  | unassignedCode (code : Byte)
  /-- The bytes after an assigned command code are not that operation's operands. -/
  | malformedOperands (code : Byte)
  deriving DecidableEq, Repr

/-! ### Reading one operand from the front of the bytes -/

/-- An 8-bit operand. -/
def takeByte : List Byte → Option (Byte × List Byte)
  | [] => none
  | b :: r => some (b, r)

/-- An operand of `n` bits, `n ≤ 8`: the unused high bits of its byte are zero. -/
def takeBits (n : Nat) : List Byte → Option (BitVec n × List Byte)
  | [] => none
  | b :: r => if b.toNat < 2 ^ n then some (b.setWidth n, r) else none

/-- A 1-bit operand: the byte 0 or 1. -/
def takeBool : List Byte → Option (Bool × List Byte)
  | [] => none
  | b :: r => if b = 0 then some (false, r) else if b = 1 then some (true, r) else none

/-- A natural number in groups of 7 bits, low group first. -/
def takeNat : List Byte → Option (Nat × List Byte)
  | [] => none
  | b :: r =>
    if b.toNat < 128 then some (b.toNat, r)
    else match takeNat r with
      | some (n, r') => some (b.toNat - 128 + 128 * n, r')
      | none => none

/-- A byte sequence: its length, then its bytes. -/
def takeSeq (r : List Byte) : Option (List Byte × List Byte) :=
  match takeNat r with
  | some (n, r') => if n ≤ r'.length then some (r'.take n, r'.drop n) else none
  | none => none

/-- An optional 32-bit operand. -/
def takeWordOpt (r : List Byte) : Option (Option Word32 × List Byte) :=
  match takeBool r with
  | some (false, r') => some (none, r')
  | some (true, r') => if 4 ≤ r'.length then some (some (unLe32 (r'.take 4)), r'.drop 4) else none
  | none => none

/-- An optional 1-bit operand. -/
def takeBoolOpt (r : List Byte) : Option (Option Bool × List Byte) :=
  match takeBool r with
  | some (false, r') => some (none, r')
  | some (true, r') =>
    match takeBool r' with
    | some (v, r'') => some (some v, r'')
    | none => none
  | none => none

/-- A `ParsedFrame` operand, its fields in the order of `ParsedFrame` (R86). -/
def takeFrame (r : List Byte) : Option (ParsedFrame × List Byte) := do
  let (destAddr, r) ← takeByte r
  let (byteCount, r) ← takeByte r
  let (srcAddr, r) ← takeByte r
  let (version, r) ← takeBits 4 r
  let (destEid, r) ← takeByte r
  let (srcEid, r) ← takeByte r
  let (som, r) ← takeBool r
  let (eom, r) ← takeBool r
  let (toBit, r) ← takeBool r
  let (seq, r) ← takeBits 2 r
  let (tag, r) ← takeBits 3 r
  let (ic, r) ← takeBool r
  let (msgType, r) ← takeBits 7 r
  let (payload, r) ← takeSeq r
  let (mic, r) ← takeWordOpt r
  let (micOk, r) ← takeBoolOpt r
  let (pecOk, r) ← takeBool r
  some ({ destAddr, byteCount, srcAddr, version, destEid, srcEid, som, eom, toBit, seq, tag, ic, msgType, payload, mic,
          micOk, pecOk }, r)

/-! ### The operands of each operation -/

/-- The operands of `CFG_WRITE`. -/
def takeCfgWrite (r : List Byte) : Option (Instr × List Byte) := do
  let (sel, r) ← takeBits 2 r
  let (value, r) ← takeByte r
  some (.cfgWrite sel value, r)

/-- The operands of `CFG_READ`. -/
def takeCfgRead (r : List Byte) : Option (Instr × List Byte) := do
  let (sel, r) ← takeBits 2 r
  some (.cfgRead sel, r)

/-- One byte-sequence operand, for the operation `op`. -/
def takeOneSeq (op : List Byte → Instr) (r : List Byte) : Option (Instr × List Byte) := do
  let (span, r) ← takeSeq r
  some (op span, r)

/-- One byte operand, for the operation `op`. -/
def takeOneByte (op : Byte → Instr) (r : List Byte) : Option (Instr × List Byte) := do
  let (byte, r) ← takeByte r
  some (op byte, r)

/-- The operands of `BUILD_SINGLE`. -/
def takeBuildSingle (r : List Byte) : Option (Instr × List Byte) := do
  let (destAddr, r) ← takeByte r
  let (srcAddr, r) ← takeByte r
  let (destEid, r) ← takeByte r
  let (srcEid, r) ← takeByte r
  let (tag, r) ← takeByte r
  let (msgType, r) ← takeBits 7 r
  let (payload, r) ← takeSeq r
  let (ic, r) ← takeBool r
  some (.buildSingle destAddr srcAddr destEid srcEid tag msgType payload ic, r)

/-- The operands of `BUILD_FRAGMENT`. -/
def takeBuildFragment (r : List Byte) : Option (Instr × List Byte) := do
  let (destAddr, r) ← takeByte r
  let (srcAddr, r) ← takeByte r
  let (destEid, r) ← takeByte r
  let (srcEid, r) ← takeByte r
  let (msgType, r) ← takeBits 7 r
  let (ic, r) ← takeBool r
  let (som, r) ← takeBool r
  let (eom, r) ← takeBool r
  let (seq, r) ← takeByte r
  let (tag, r) ← takeByte r
  let (chunk, r) ← takeSeq r
  let (micIn, r) ← takeWordOpt r
  some (.buildFragment destAddr srcAddr destEid srcEid msgType ic som eom seq tag chunk micIn, r)

/-- The operands of `BUILD_FRAGMENTED`. -/
def takeBuildFragmented (r : List Byte) : Option (Instr × List Byte) := do
  let (destEid, r) ← takeByte r
  let (msgType, r) ← takeBits 7 r
  let (payload, r) ← takeSeq r
  let (ic, r) ← takeBool r
  some (.buildFragmented destEid msgType payload ic, r)

/-- The operands of `REASM`. -/
def takeReasm (r : List Byte) : Option (Instr × List Byte) := do
  let (now, r) ← takeNat r
  let (frame, r) ← takeFrame r
  some (.reasm now frame, r)

/-- The operands of `RX_PACKET`. -/
def takeRxPacket (r : List Byte) : Option (Instr × List Byte) := do
  let (now, r) ← takeNat r
  let (packet, r) ← takeSeq r
  some (.rxPacket now packet, r)

/-- The operands of `TICK`. -/
def takeTick (r : List Byte) : Option (Instr × List Byte) := do
  let (now, r) ← takeNat r
  some (.tick now, r)

/-- The command codes of R90, each with the reader of its operands; `none` for an unassigned code. -/
def operandReader (code : Byte) : Option (List Byte → Option (Instr × List Byte)) :=
  if code = 0x00 then some (fun r => some (.reset, r))
  else if code = 0x01 then some takeCfgWrite
  else if code = 0x02 then some takeCfgRead
  else if code = 0x03 then some (fun r => some (.nextTag, r))
  else if code = 0x10 then some (takeOneSeq .pecCalc)
  else if code = 0x11 then some (fun r => some (.pecInit, r))
  else if code = 0x12 then some (takeOneByte .pecUpdate)
  else if code = 0x13 then some (fun r => some (.pecRead, r))
  else if code = 0x18 then some (takeOneSeq .micCalc)
  else if code = 0x19 then some (fun r => some (.micInit, r))
  else if code = 0x1A then some (takeOneByte .micUpdate)
  else if code = 0x1B then some (fun r => some (.micRead, r))
  else if code = 0x20 then some takeBuildSingle
  else if code = 0x21 then some takeBuildFragment
  else if code = 0x22 then some (takeOneSeq .parse)
  else if code = 0x30 then some takeBuildFragmented
  else if code = 0x38 then some takeReasm
  else if code = 0x39 then some takeRxPacket
  else if code = 0x3A then some takeTick
  else none

/-- The operation that the bytes on the command port are: all of them, with nothing left over. -/
def decodeCommand : List Byte → Except DecodeError Instr
  | [] => .error .noCommandCode
  | code :: r =>
    match operandReader code with
    | none => .error (.unassignedCode code)
    | some read =>
      match read r with
      | some (i, []) => if i.wellFormed then .ok i else .error (.malformedOperands code)
      | _ => .error (.malformedOperands code)

/-- The packet class of SOM, EOM and IC (R80). -/
def packetClass (som eom ic : Bool) : Time → PktHeader → List Byte → Instr :=
  match som, eom, ic with
  | true, true, false => .pktSingle
  | true, true, true => .pktSingleIc
  | true, false, false => .pktFirst
  | true, false, true => .pktFirstIc
  | false, false, false => .pktMiddle
  | false, false, true => .pktMiddleIc
  | false, true, false => .pktLast
  | false, true, true => .pktLastIc

/-- The packet class a packet has, and its fields (R80, R94): bytes 1 and 4 are the fixed ones, the length is legal (R85),
and `b[7][7:6]` and `b[8][7]` alone tell the class. `none` for bytes of no class. -/
def decodePacketClass (now : Time) : List Byte → Option Instr
  | destAddr :: cmd :: byteCount :: srcAddr :: ver :: destEid :: srcEid :: fl :: mb :: tail =>
    if cmd = Config.cmdCode ∧ ver = versionByte ∧ packetTailOk tail = true then
      some (packetClass (flagsSom fl) (flagsEom fl) (msgByteIc mb) now
        { destAddr, byteCount, srcAddr, destEid, srcEid, seq := flagsSeq fl, toBit := flagsTo fl, tag := flagsTag fl,
          msgType := msgByteType mb } tail)
    else none
  | _ => none

/-- The instruction an input is. A delivered packet of no class is the operation `RX_PACKET` on its bytes, which answers
with the error that `PARSE` finds (R172, R84; log 3). -/
def decode : Input → Except DecodeError Instr
  | .command bytes => decodeCommand bytes
  | .packet now bytes => .ok ((decodePacketClass now bytes).getD (.rxPacket now bytes))

/-! ### The encoder, from the same tables -/

/-- A natural number in groups of 7 bits; `fuel ≥ n` is enough. -/
def natGroups (fuel n : Nat) : List Byte :=
  match fuel with
  | 0 => [BitVec.ofNat 8 n]
  | fuel + 1 => if n < 128 then [BitVec.ofNat 8 n] else BitVec.ofNat 8 (128 + n % 128) :: natGroups fuel (n / 128)

/-- The bytes of a natural-number operand. -/
def putNat (n : Nat) : List Byte := natGroups n n

/-- The bytes of a byte-sequence operand. -/
def putSeq (b : List Byte) : List Byte := putNat b.length ++ b

/-- The byte of a 1-bit operand. -/
def putBool (b : Bool) : List Byte := [bitByte b]

/-- The bytes of an optional 32-bit operand. -/
def putWordOpt : Option Word32 → List Byte
  | none => putBool false
  | some v => putBool true ++ le32 v

/-- The bytes of an optional 1-bit operand. -/
def putBoolOpt : Option Bool → List Byte
  | none => putBool false
  | some v => putBool true ++ putBool v

/-- The bytes of a `ParsedFrame` operand. -/
def putFrame (f : ParsedFrame) : List Byte :=
  [f.destAddr, f.byteCount, f.srcAddr, f.version.setWidth 8, f.destEid, f.srcEid] ++ putBool f.som ++ putBool f.eom ++
    putBool f.toBit ++ [f.seq.setWidth 8, f.tag.setWidth 8] ++ putBool f.ic ++ [f.msgType.setWidth 8] ++ putSeq f.payload ++
    putWordOpt f.mic ++ putBoolOpt f.micOk ++ putBool f.pecOk

/-- The input that carries an instruction: its command code and operands (R90), or the packet's bytes (R70, R80). -/
def encode : Instr → Input
  | .reset => .command [0x00]
  | .cfgWrite sel value => .command [0x01, sel.setWidth 8, value]
  | .cfgRead sel => .command [0x02, sel.setWidth 8]
  | .nextTag => .command [0x03]
  | .pecCalc span => .command (0x10 :: putSeq span)
  | .pecInit => .command [0x11]
  | .pecUpdate byte => .command [0x12, byte]
  | .pecRead => .command [0x13]
  | .micCalc span => .command (0x18 :: putSeq span)
  | .micInit => .command [0x19]
  | .micUpdate byte => .command [0x1A, byte]
  | .micRead => .command [0x1B]
  | .buildSingle da sa de se tag mt payload ic =>
    .command ([0x20, da, sa, de, se, tag, mt.setWidth 8] ++ putSeq payload ++ putBool ic)
  | .buildFragment da sa de se mt ic som eom seq tag chunk micIn =>
    .command ([0x21, da, sa, de, se, mt.setWidth 8] ++ putBool ic ++ putBool som ++ putBool eom ++ [seq, tag] ++
      putSeq chunk ++ putWordOpt micIn)
  | .parse packet => .command (0x22 :: putSeq packet)
  | .buildFragmented de mt payload ic => .command ([0x30, de, mt.setWidth 8] ++ putSeq payload ++ putBool ic)
  | .reasm now f => .command (0x38 :: (putNat now ++ putFrame f))
  | .rxPacket now packet => .command (0x39 :: (putNat now ++ putSeq packet))
  | .tick now => .command (0x3A :: putNat now)
  | .pktSingle now h tail => .packet now (packetBytes true true false h tail)
  | .pktSingleIc now h tail => .packet now (packetBytes true true true h tail)
  | .pktFirst now h tail => .packet now (packetBytes true false false h tail)
  | .pktFirstIc now h tail => .packet now (packetBytes true false true h tail)
  | .pktMiddle now h tail => .packet now (packetBytes false false false h tail)
  | .pktMiddleIc now h tail => .packet now (packetBytes false false true h tail)
  | .pktLast now h tail => .packet now (packetBytes false true false h tail)
  | .pktLastIc now h tail => .packet now (packetBytes false true true h tail)

/-! ### Rows of the opcode table as numbers -/

/-- The `n` bytes that a number of `8 * n` bits stands for, byte 0 first, bit 7 of each byte first (R94): byte 0 holds the
number's most significant bits, as in the table's `encoding`, `match` and `mask`. -/
def tableBytes : Nat → Nat → List Byte
  | 0, _ => []
  | n + 1, w => BitVec.ofNat 8 (w / 256 ^ n) :: tableBytes n w

/-- The bytes of an operation whose operand bytes above `bytes` are all zero: zero bytes are added until the decoder has
all the operands, `fuel` at most. -/
def padOperands : Nat → List Byte → List Byte
  | 0, bytes => bytes
  | fuel + 1, bytes =>
    match decodeCommand bytes with
    | .error (.malformedOperands _) => padOperands fuel (bytes ++ [0])
    | _ => bytes

/-- The input that a row's number stands for (R94). A packet row has packet bytes 0 to 8; the one byte it still needs, the PEC
of a packet with an empty chunk, is zero, and so is an operation row's every operand byte: DESIGN CHOICE (log 18), safe. -/
def tableInput (nbits w : Nat) : Input :=
  if nbits = 72 then .packet 0 (tableBytes 9 w ++ [0])
  else .command (padOperands 32 (tableBytes (nbits / 8) w))

/-- The instruction the decoder reads from a row of `opcode_table.json`; `none` where it refuses. A packet row is read by
the packet-class decoder alone, so bytes of no class give `none`. -/
def decodeTableWord (nbits w : Nat) : Option Instr :=
  match tableInput nbits w with
  | .command bytes => (decodeCommand bytes).toOption
  | .packet now bytes => decodePacketClass now bytes

end Sys2Proof
end

