-- ==== Sys2Proof/Machine/Crc.lean ====
section
/-! DEFINITION. The two CRC functions: `pec` (R100, R101) and `mic` (R104, R105). -/

namespace Sys2Proof.Machine

/-- One turn of the loop of `pec_step` (R100): shift left, exclusive-or 0x07 if the bit shifted out was 1. -/
def pecShift (c : Byte) : Byte :=
  if c.getLsbD 7 then (c <<< 1) ^^^ 0x07 else c <<< 1

/-- `pec_step(c, b)` (R100): the byte enters by exclusive or, then 8 turns, most significant bit first. -/
def pecStep (c b : Byte) : Byte :=
  Nat.repeat pecShift 8 (c ^^^ b)

/-- The PEC register after the bytes `s`, from the value `c`. -/
def pecFold (c : Byte) (s : List Byte) : Byte := s.foldl pecStep c

/-- `pec(s)` (R101): init 0, no final exclusive or. -/
def pec (s : List Byte) : Byte := pecFold 0x00 s

/-- One turn of the loop of `mic_step` (R104): shift right, exclusive-or 0x82F63B78 if the bit shifted out was 1. -/
def micShift (c : Word32) : Word32 :=
  if c.getLsbD 0 then (c >>> 1) ^^^ 0x82F63B78 else c >>> 1

/-- `mic_step(c, b)` (R104): the byte enters bits 7:0 by exclusive or, then 8 turns, least significant bit first. -/
def micStep (c : Word32) (b : Byte) : Word32 :=
  Nat.repeat micShift 8 (c ^^^ b.setWidth 32)

/-- The MIC register, not finalised, after the bytes `s`, from the value `c`. -/
def micFold (c : Word32) (s : List Byte) : Word32 := s.foldl micStep c

/-- The final exclusive or (R105, R108). -/
def micFinal (c : Word32) : Word32 := c ^^^ 0xFFFFFFFF

/-- `mic(s)` (R105): init 0xFFFFFFFF, final exclusive or 0xFFFFFFFF. -/
def mic (s : List Byte) : Word32 := micFinal (micFold 0xFFFFFFFF s)

end Sys2Proof.Machine
end

