-- ==== Sys2Proof/Machine/State.lean ====
section
/-! DEFINITION. The state of one block instance (R20), the outcomes of its operations (R15, R86 to R88, R200), what a step
can stop with, and the state after reset (R45). -/

namespace Sys2Proof.Machine

/-! ### Errors -/

/-- The closed set of error codes the block can return (R200). -/
inductive ErrCode where
  | shortPacket
  | badPec
  | badMic
  | badVersion
  | wrongCommandCode
  | reservedBitsSet
  | badByteCount
  | unexpectedSom
  | sequenceGap
  | missingEom
  | tagMismatch
  | usage
  deriving DecidableEq, Repr

/-- The kinds of error (R201). The block never raises `protocol`, `decode` or `transport` (R203). -/
inductive ErrKind where
  | integrity
  | framing
  | sequencing
  | timeout
  | protocol
  | decode
  | transport
  | usage
  deriving DecidableEq, Repr

/-- The operand a `Usage` error names (R92, R200). `commandCode` is what an unassigned command code reports: the spec says
"operand name" and gives none for that case, DESIGN CHOICE (log 11), safe. -/
inductive OperandName where
  | payload
  | chunk
  | micIn
  | packet
  | sel
  | commandCode
  deriving DecidableEq, Repr

/-- What an error carries besides its code (R200, last column; R204). -/
inductive ErrInfo where
  | nothing
  | offset (byte : Nat)
  | operand (name : OperandName)
  deriving DecidableEq, Repr

/-- An error: its code and its info; the kind follows from the code (R204). -/
structure Err where
  code : ErrCode
  info : ErrInfo
  deriving DecidableEq, Repr

/-! ### Outcomes -/

/-- `Fragment` (R87); `index` counts from 0. -/
structure Fragment where
  index  : Nat
  seq    : BitVec 2
  som    : Bool
  eom    : Bool
  packet : List Byte
  deriving DecidableEq, Repr

/-- `FragmentedMessage` (R87); `totalLen` is the payload length, MIC not counted. -/
structure FragmentedMessage where
  fragments : List Fragment
  totalLen  : Nat
  deriving DecidableEq, Repr

/-- `Message` (R88), the value of a `Complete` outcome. -/
structure Message where
  srcEid  : Byte
  destEid : Byte
  tag     : BitVec 3
  toBit   : Bool
  msgType : BitVec 7
  ic      : Bool
  payload : List Byte
  deriving DecidableEq, Repr

/-- The values of `Ok` outcomes, one constructor per result type of R90. -/
inductive Value where
  | unit
  | tag (v : BitVec 3)
  | byte (v : Byte)
  | word (v : Word32)
  | packet (bytes : List Byte)
  | frame (f : ParsedFrame)
  | fragmented (m : FragmentedMessage)
  | pending
  | complete (m : Message)
  deriving DecidableEq, Repr

/-- One outcome of an operation: `Ok(value)` or `Error(code)` (R15). -/
inductive Result where
  | ok (v : Value)
  | error (e : Err)
  deriving DecidableEq, Repr

/-! ### State -/

/-- `RX_STATE` (R36). -/
inductive RxState where
  | idle
  | active
  deriving DecidableEq, Repr

/-- `RX_KEY` (R37): the triple `(src_eid, tag, to)`, 12 bits. -/
structure RxKey where
  srcEid : Byte
  tag    : BitVec 3
  toBit  : Bool
  deriving DecidableEq, Repr

/-- The complete architectural state of one block instance (R20), and the two fields of the model's own that stand for
the interface: `issued` (log 1) and `result` (log 4). -/
structure State where
  /-- `PEC_ACC` (R23). -/
  pecAcc      : Byte
  /-- `MIC_ACC` (R24). -/
  micAcc      : Word32
  /-- `CFG_DEST_ADDR` (R26). -/
  cfgDestAddr : Byte
  /-- `CFG_SRC_ADDR` (R27). -/
  cfgSrcAddr  : Byte
  /-- `CFG_SRC_EID` (R28). -/
  cfgSrcEid   : Byte
  /-- `TAG_CTR` (R29). -/
  tagCtr      : BitVec 3
  /-- `RX_STATE` (R36). -/
  rxState     : RxState
  /-- `RX_KEY` (R37). -/
  rxKey       : RxKey
  /-- `RX_DEST_EID` (R37). -/
  rxDestEid   : Byte
  /-- `RX_MSG` (R38): bit 7 is the IC flag, bits 6:0 the message type. -/
  rxMsg       : Byte
  /-- `RX_SEQ` (R39). -/
  rxSeq       : BitVec 2
  /-- `RX_BUF` (R40, R42): a byte sequence indexed from 0. -/
  rxBuf       : List Byte
  /-- `RX_T0` (R41). -/
  rxT0        : Time
  /-- The outcome list of the operation executed last (R15, R170). The model's own field: DESIGN CHOICE (log 4), safe. -/
  result      : List Result
  /-- The inputs the host and the transport have still to hand over, oldest first. The model's own field: the spec lets the
  host choose the order of operations (R22): DESIGN CHOICE (log 1), safe. -/
  issued      : List Input
  deriving DecidableEq, Repr

/-! ### Stops -/

/-- Faults that end a run: none. Every error of the block is an outcome after which it goes on (R210, R212), and nothing
in the block is stuck (93_implementation_defined.md, after U17). DEDUCED (log 20), safe. -/
inductive Fault where
  deriving DecidableEq, Repr

/-- Why a step is not taken: the spec's "refused" (R16), which is outside the interface contract. -/
inductive Refusal where
  /-- Raised by `exec` for an instruction that has no meaning yet; no arm of this model raises it. Safe. -/
  | notModelled (mnemonic : String)
  /-- Raised by `TICK`, `REASM`, `RX_PACKET` and a delivered packet when `RX_STATE` is `ACTIVE` and `now < RX_T0`: "the
  operation is refused" (R160, R238, U10). Safe. -/
  | timeBackwards
  /-- Raised by `REASM`, `RX_PACKET` and a delivered packet when a finite `REASM_CAP` would be exceeded: a model "must
  refuse" (R169, U9). The machine's capacity is unbounded, so it never raises it. Safe. -/
  | bufferFull
  /-- Raised by `step` when the bytes on the command port are no operation's operands, or no bytes at all: the host has
  no way to pass such operands (R91, D31). DESIGN CHOICE (log 6), safe. -/
  | malformedOperands
  deriving DecidableEq, Repr

/-- What one step of this machine answers. -/
abbrev StepOutcome := Host.Outcome State Fault Refusal

/-- The state right after `RESET` or power-on (R45, R190, R191), with nothing issued and no outcome yet. -/
def State.reset : State where
  pecAcc := 0x00
  micAcc := 0xFFFFFFFF
  cfgDestAddr := Config.defaultDestAddr
  cfgSrcAddr := Config.defaultSrcAddr
  cfgSrcEid := Config.defaultSrcEid
  tagCtr := 0
  rxState := .idle
  rxKey := { srcEid := 0, tag := 0, toBit := false }
  rxDestEid := 0
  rxMsg := 0
  rxSeq := 0
  rxBuf := []
  rxT0 := 0
  result := []
  issued := []

end Sys2Proof.Machine
end

