-- ==== Sys2Proof/Machine/Ops.lean ====
section
/-! DEFINITION. The named operations over the state: answering, taking an error, the configuration registers, the tag
counter, and the reassembly context with its deadline and its buffer. -/

namespace Sys2Proof.Machine

/-! ### Outcomes and errors -/

/-- The kind of an error code (R200, R201, R202). -/
def ErrCode.kind : ErrCode → ErrKind
  | .shortPacket => .framing
  | .badPec => .integrity
  | .badMic => .integrity
  | .badVersion => .framing
  | .wrongCommandCode => .framing
  | .reservedBitsSet => .framing
  | .badByteCount => .framing
  | .unexpectedSom => .sequencing
  | .sequenceGap => .sequencing
  | .missingEom => .timeout
  | .tagMismatch => .sequencing
  | .usage => .usage

/-- The number of an error code, "for tables only" (R200). -/
def ErrCode.number : ErrCode → Nat
  | .shortPacket => 1
  | .badPec => 2
  | .badMic => 3
  | .badVersion => 4
  | .wrongCommandCode => 5
  | .reservedBitsSet => 6
  | .badByteCount => 7
  | .unexpectedSom => 8
  | .sequenceGap => 9
  | .missingEom => 10
  | .tagMismatch => 11
  | .usage => 12

/-- An error that carries nothing but its code. -/
def Err.plain (c : ErrCode) : Err := { code := c, info := .nothing }

/-- An error at a byte offset of the packet. -/
def Err.at (c : ErrCode) (offset : Nat) : Err := { code := c, info := .offset offset }

/-- `Usage`, naming the operand outside its limit (R92, R200). -/
def Err.badOperand (name : OperandName) : Err := { code := .usage, info := .operand name }

/-- Return an outcome list (R15, R170). -/
def State.report (rs : List Result) (s : State) : State := { s with result := rs }

/-- `return v` (R14): the operation ends with the one outcome `Ok(v)`. -/
def State.answer (v : Value) (s : State) : State := s.report [.ok v]

/-- `raise E` (R14): taking an error. The operation ends with the one outcome `Error(E)`; nothing is saved, no mode
changes, control goes nowhere, and nothing else is written (R210). There is no return from an error (R212). -/
def State.raise (e : Err) (s : State) : State := s.report [.error e]

/-- The outcome of an operation that computes a value or an error and writes nothing else. -/
def State.conclude (r : Except Err Value) (s : State) : State :=
  match r with
  | .ok v => s.answer v
  | .error e => s.raise e

/-! ### Control registers and the tag counter -/

/-- The register that `sel` names, zero-extended to a byte (R91, R193). -/
def State.cfg (s : State) (sel : BitVec 2) : Byte :=
  if sel = 0 then s.cfgDestAddr
  else if sel = 1 then s.cfgSrcAddr
  else if sel = 2 then s.cfgSrcEid
  else s.tagCtr.setWidth 8

/-- The write of the register that `sel` names; `none` for `TAG_CTR`, which is not writable (R29, R192). -/
def State.setCfg (s : State) (sel : BitVec 2) (value : Byte) : Option State :=
  if sel = 0 then some { s with cfgDestAddr := value }
  else if sel = 1 then some { s with cfgSrcAddr := value }
  else if sel = 2 then some { s with cfgSrcEid := value }
  else none

/-- `TAG_CTR <- (TAG_CTR + 1) mod 8` (R29, R194, R151). -/
def State.advanceTag (s : State) : State := { s with tagCtr := s.tagCtr + 1 }

/-! ### The reassembly context -/

/-- `expired(now)` (R160): the deadline is inclusive at 100 ms. -/
def State.expired (s : State) (now : Time) : Bool :=
  decide (s.rxState = .active) && decide (Config.tReasm < now - s.rxT0)

/-- `now < RX_T0` while `ACTIVE`: the operation is refused (R160, R238). -/
def State.timeBackwards (s : State) (now : Time) : Bool :=
  decide (s.rxState = .active) && decide (now < s.rxT0)

/-- `clear()` (R162): the other context registers keep stale values that nothing reads. -/
def State.clearContext (s : State) : State := { s with rxState := .idle, rxBuf := [] }

/-- The key of a parsed packet (R37, R162 line 4). -/
def frameKey (f : ParsedFrame) : RxKey := { srcEid := f.srcEid, tag := f.tag, toBit := f.toBit }

/-- `open(f, now)` (R162): the context of a message that starts with `f`; the deadline is armed. -/
def State.openContext (f : ParsedFrame) (now : Time) (s : State) : State :=
  { s with
    rxState := .active
    rxKey := frameKey f
    rxDestEid := f.destEid
    rxMsg := msgByte f.ic f.msgType
    rxSeq := f.seq
    rxBuf := f.payload
    rxT0 := now }

/-- Accumulation (R167): the chunk is appended and `RX_SEQ` advances; `RX_T0` stays. -/
def State.appendChunk (f : ParsedFrame) (s : State) : State :=
  { s with rxSeq := f.seq, rxBuf := s.rxBuf ++ f.payload }

/-- Whether `n` bytes fit in a buffer of capacity `cap` (R169). -/
def fitsBuffer (cap : Option Nat) (n : Nat) : Bool :=
  match cap with
  | none => true
  | some c => decide (n ≤ c)

/-- The one memory of the block is `RX_BUF` (R42 (c)), a byte sequence indexed from 0. A list of bytes is the one form of its
content, so what is left to hold is that it fits its capacity (R40, R169). -/
def Memory.wf (cap : Option Nat) (s : State) : Bool := fitsBuffer cap s.rxBuf.length

/-- The expiry test that comes first in `TICK`, `REASM` and `RX_PACKET` (R160, R161, R162 lines 2 and 3, R172): an expired
context is cleared and `MissingEom` is reported ahead of everything else. -/
def State.noticeExpiry (now : Time) (s : State) : List Result × State :=
  if s.expired now then ([.error (.plain .missingEom)], s.clearContext) else ([], s)

/-! ### The interface -/

/-- The input that is handed over next is taken (log 1). -/
def State.takeInput (rest : List Input) (s : State) : State := { s with issued := rest }

/-- An unassigned command code raises `Usage` (R90, R195). -/
def State.rejectCode (s : State) : State := s.raise (.badOperand .commandCode)

end Sys2Proof.Machine
end

