-- ==== Sys2Proof/Machine/Framer.lean ====
section
/-! DEFINITION. The MCTP framer (41_framer.md): the common assembly function, `BUILD_SINGLE`, `BUILD_FRAGMENT`, `PARSE`. -/

namespace Sys2Proof.Machine

/-- `assemble(…)` (R120): one packet with the layout of R70. -/
def assemble (destAddr srcAddr destEid srcEid : Byte) (som eom : Bool) (seq : Byte) (toBit : Bool) (tag mb : Byte)
    (chunk : List Byte) (micOpt : Option Word32) : List Byte :=
  let body := mb :: (chunk ++ (match micOpt with | some m => le32 m | none => []))
  let count := BitVec.ofNat 8 (5 + body.length)
  let f := [destAddr, Config.cmdCode, count, srcAddr, versionByte, destEid, srcEid,
    flagsByte som eom seq toBit tag] ++ body
  f ++ [pec f]

/-- The MIC of a message (R110): over the message-type byte as on the wire, IC bit included, and the payload. -/
def messageMic (mb : Byte) (payload : List Byte) : Word32 := mic (mb :: payload)

/-- `BUILD_SINGLE` (R122): the packet, or `Usage` for a payload longer than 120 bytes. -/
def buildSingle (destAddr srcAddr destEid srcEid tag : Byte) (msgType : BitVec 7) (payload : List Byte) (ic : Bool) :
    Except Err (List Byte) :=
  if Config.maxTxPayload < payload.length then .error (.badOperand .payload)
  else
    let mb := msgByte ic msgType
    let micOpt := if ic then some (messageMic mb payload) else none
    .ok (assemble destAddr srcAddr destEid srcEid true true 0 true tag mb payload micOpt)

/-- The MIC field of a fragment (R126, R128): none unless `ic` and `eom`; computed for a whole message; else `mic_in`, whose
absence is a `Usage` error. -/
def fragmentMic (ic som eom : Bool) (mb : Byte) (chunk : List Byte) (micIn : Option Word32) :
    Except Err (Option Word32) :=
  if ic && eom then
    if som then .ok (some (messageMic mb chunk))
    else match micIn with
      | none => .error (.badOperand .micIn)
      | some m => .ok (some m)
  else .ok none

/-- `BUILD_FRAGMENT` (R126): the chunk length is tested before the missing `mic_in` (R207). -/
def buildFragment (destAddr srcAddr destEid srcEid : Byte) (msgType : BitVec 7) (ic som eom : Bool) (seq tag : Byte)
    (chunk : List Byte) (micIn : Option Word32) : Except Err (List Byte) :=
  if Config.maxTxPayload < chunk.length then .error (.badOperand .chunk)
  else
    let mb := msgByte ic msgType
    match fragmentMic ic som eom mb chunk micIn with
    | .error e => .error e
    | .ok micOpt => .ok (assemble destAddr srcAddr destEid srcEid som eom seq true tag mb chunk micOpt)

/-- The fields of bytes 0 to 8 of a packet, with a payload and the MIC fields (R136 line 20, R86). -/
def frameOf (b payload : List Byte) (micField : Option Word32) (micOk : Option Bool) : ParsedFrame where
  destAddr := byteAt b 0
  byteCount := byteAt b 2
  srcAddr := byteAt b 3
  version := versionField (byteAt b 4)
  destEid := byteAt b 5
  srcEid := byteAt b 6
  som := flagsSom (byteAt b 7)
  eom := flagsEom (byteAt b 7)
  toBit := flagsTo (byteAt b 7)
  seq := flagsSeq (byteAt b 7)
  tag := flagsTag (byteAt b 7)
  ic := msgByteIc (byteAt b 8)
  msgType := msgByteType (byteAt b 8)
  payload := payload
  mic := micField
  micOk := micOk
  pecOk := true

/-- Lines 9 to 20 of `PARSE` (R136, R140): the fields, and the MIC field where there is one. -/
def parseBody (b : List Byte) : Except Err ParsedFrame :=
  let body := (b.drop 9).dropLast
  if msgByteIc (byteAt b 8) && flagsEom (byteAt b 7) then
    if body.length < 4 then .error (.plain .shortPacket)
    else
      let m := unLe32 (body.drop (body.length - 4))
      let chunk := body.take (body.length - 4)
      if flagsSom (byteAt b 7) then
        if messageMic (byteAt b 8) chunk ≠ m then .error (.at .badMic (b.length - 5))
        else .ok (frameOf b chunk (some m) (some true))
      else .ok (frameOf b chunk (some m) none)
  else .ok (frameOf b body none none)

/-- `PARSE(packet)` (R136): the checks in the order of its numbered lines; the first that fails decides (R138). -/
def parsePacket (b : List Byte) : Except Err ParsedFrame :=
  if Config.maxRxPacket < b.length then .error (.badOperand .packet)
  else if b.length < Config.minFrame then .error (.plain .shortPacket)
  else if byteAt b 1 ≠ Config.cmdCode then .error (.at .wrongCommandCode 1)
  else if b.length < (byteAt b 2).toNat + 4 then .error (.at .shortPacket 2)
  else if (byteAt b 2).toNat + 4 < b.length then .error (.at .badByteCount 2)
  else if versionReserved (byteAt b 4) ≠ 0 then .error (.at .reservedBitsSet 4)
  else if versionField (byteAt b 4) ≠ Config.hdrVer then .error (.at .badVersion 4)
  else if pec b.dropLast ≠ byteAt b (b.length - 1) then .error (.at .badPec (b.length - 1))
  else parseBody b

/-- `BUILD_SINGLE` (R122): pure, `CFG_` registers and `TAG_CTR` neither read nor written. -/
def execBuildSingle (destAddr srcAddr destEid srcEid tag : Byte) (msgType : BitVec 7) (payload : List Byte) (ic : Bool)
    (s : State) : StepOutcome :=
  .next (s.conclude ((buildSingle destAddr srcAddr destEid srcEid tag msgType payload ic).map .packet))

/-- `BUILD_FRAGMENT` (R126): pure. -/
def execBuildFragment (destAddr srcAddr destEid srcEid : Byte) (msgType : BitVec 7) (ic som eom : Bool) (seq tag : Byte)
    (chunk : List Byte) (micIn : Option Word32) (s : State) : StepOutcome :=
  .next (s.conclude
    ((buildFragment destAddr srcAddr destEid srcEid msgType ic som eom seq tag chunk micIn).map .packet))

/-- `PARSE` (R136): pure; it knows nothing of the reassembly context. -/
def execParse (packet : List Byte) (s : State) : StepOutcome :=
  .next (s.conclude ((parsePacket packet).map .frame))

end Sys2Proof.Machine
end

