-- ==== Sys2Proof/Machine/Fragmenter.lean ====
section
/-! DEFINITION. The fragmenter (42_fragmenter.md): `BUILD_FRAGMENTED`. -/

namespace Sys2Proof.Machine

/-- The number of fragments `k = max(1, ceil(n / 120))` (R150, R152, R158). -/
def fragmentCount (n : Nat) : Nat :=
  max 1 ((n + (Config.maxTxPayload - 1)) / Config.maxTxPayload)

/-- Chunk `i` of a payload: bytes `120·i` to `min(120·i + 119, n − 1)` (R150, R152). -/
def chunkOf (payload : List Byte) (i : Nat) : List Byte :=
  (payload.drop (Config.maxTxPayload * i)).take Config.maxTxPayload

/-- `frag_i` of `k` (R150, R153). -/
def fragmentAt (destAddr srcAddr srcEid : Byte) (tag : BitVec 3) (destEid : Byte) (msgType : BitVec 7)
    (payload : List Byte) (ic : Bool) (m : Option Word32) (k i : Nat) : Except Err Fragment :=
  let som := decide (i = 0)
  let eom := decide (i = k - 1)
  let seq := BitVec.ofNat 2 i
  match buildFragment destAddr srcAddr destEid srcEid msgType ic som eom (seq.setWidth 8) (tag.setWidth 8)
      (chunkOf payload i) m with
  | .error e => .error e
  | .ok packet => .ok { index := i, seq := seq, som := som, eom := eom, packet := packet }

/-- `fragment(…)` (R150), a pure function: one MIC over the whole payload, on the last fragment (R154). -/
def fragmentMessage (destAddr srcAddr srcEid : Byte) (tag : BitVec 3) (destEid : Byte) (msgType : BitVec 7)
    (payload : List Byte) (ic : Bool) : Except Err FragmentedMessage :=
  let k := fragmentCount payload.length
  let m := if ic then some (messageMic (msgByte ic msgType) payload) else none
  match (List.range k).mapM (fragmentAt destAddr srcAddr srcEid tag destEid msgType payload ic m k) with
  | .error e => .error e
  | .ok fragments => .ok { fragments := fragments, totalLen := payload.length }

/-- `BUILD_FRAGMENTED` (R150, R151): the tag is drawn from `TAG_CTR`, once per message; the addresses and the source
EID come from the `CFG_` registers (D41). `BUILD_FRAGMENT` cannot raise here (R150), so the error case is never taken. -/
def execBuildFragmented (destEid : Byte) (msgType : BitVec 7) (payload : List Byte) (ic : Bool) (s : State) :
    StepOutcome :=
  .next (s.advanceTag.conclude
    ((fragmentMessage s.cfgDestAddr s.cfgSrcAddr s.cfgSrcEid s.tagCtr destEid msgType payload ic).map .fragmented))

end Sys2Proof.Machine
end

