-- ==== Sys2Proof/Machine/Integrity.lean ====
section
/-! DEFINITION. The integrity operations (40_integrity.md): span CRCs and the byte-serial accumulators. -/

namespace Sys2Proof.Machine

/-- `PEC_CALC(span)` (R103). -/
def execPecCalc (span : List Byte) (s : State) : StepOutcome :=
  .next (s.answer (.byte (pec span)))

/-- `PEC_INIT()` (R111). -/
def execPecInit (s : State) : StepOutcome :=
  .next ({ s with pecAcc := 0x00 }.answer .unit)

/-- `PEC_UPDATE(byte)` (R112). -/
def execPecUpdate (byte : Byte) (s : State) : StepOutcome :=
  .next ({ s with pecAcc := pecStep s.pecAcc byte }.answer .unit)

/-- `PEC_READ()` (R113): the register is unchanged. -/
def execPecRead (s : State) : StepOutcome :=
  .next (s.answer (.byte s.pecAcc))

/-- `MIC_CALC(span)` (R107). -/
def execMicCalc (span : List Byte) (s : State) : StepOutcome :=
  .next (s.answer (.word (mic span)))

/-- `MIC_INIT()` (R114). -/
def execMicInit (s : State) : StepOutcome :=
  .next ({ s with micAcc := 0xFFFFFFFF }.answer .unit)

/-- `MIC_UPDATE(byte)` (R115). -/
def execMicUpdate (byte : Byte) (s : State) : StepOutcome :=
  .next ({ s with micAcc := micStep s.micAcc byte }.answer .unit)

/-- `MIC_READ()` (R108): the register is unchanged. -/
def execMicRead (s : State) : StepOutcome :=
  .next (s.answer (.word (micFinal s.micAcc)))

end Sys2Proof.Machine
end

