-- ==== Sys2Proof/Machine/Reassembler.lean ====
section
/-! DEFINITION. The reassembly sequencer (43_reassembler.md): `TICK`, `REASM`, `RX_PACKET`. -/

namespace Sys2Proof.Machine

/-- The message in the context, as `Complete` reports it (R88, R162 `finish`). -/
def State.contextMessage (s : State) : Message where
  srcEid := s.rxKey.srcEid
  destEid := s.rxDestEid
  tag := s.rxKey.tag
  toBit := s.rxKey.toBit
  msgType := msgByteType s.rxMsg
  ic := msgByteIc s.rxMsg
  payload := s.rxBuf

/-- Whether the MIC of the message in the context is good or not needed (R162 `finish`, R168): it is needed when the
message or its last packet declares IC, and then it must be there and be right. -/
def State.micAccepted (f : ParsedFrame) (s : State) : Bool :=
  if msgByteIc s.rxMsg || f.ic then
    match f.mic with
    | none => false
    | some m => decide (messageMic s.rxMsg s.rxBuf = m)
  else true

/-- `finish(f)` (R162, R168): the message is yielded, or discarded with `BadMic`; the context is cleared either way. -/
def finishMessage (f : ParsedFrame) (s : State) : Result × State :=
  if s.micAccepted f then (.ok (.complete s.contextMessage), s.clearContext)
  else (.error (.plain .badMic), s.clearContext)

/-- The outcome for a packet that has been taken into the context (R162 lines 11, 12, 19, 20). -/
def settlePacket (f : ParsedFrame) (s : State) : Result × State :=
  if f.eom then finishMessage f s else (.ok .pending, s)

/-- Lines 7 to 12 of `REASM` (R162, R164): a SOM packet starts a new message; a message in progress is discarded with
`UnexpectedSom`, reported first. A finite capacity that the chunk exceeds refuses the operation (R169). -/
def startMessage (cap : Option Nat) (now : Time) (f : ParsedFrame) (s : State) :
    Except Refusal (List Result × State) :=
  if !fitsBuffer cap f.payload.length then .error .bufferFull
  else
    let before := if s.rxState = .active then [Result.error (.plain .unexpectedSom)] else []
    let settled := settlePacket f (s.openContext f now)
    .ok (before ++ [settled.1], settled.2)

/-- Lines 13 to 20 of `REASM` (R162, R165 to R168): a packet with `som = 0`. -/
def continueMessage (cap : Option Nat) (f : ParsedFrame) (s : State) : Except Refusal (List Result × State) :=
  if s.rxState = .idle then .ok ([.error (.plain .sequenceGap)], s)
  else if f.seq ≠ s.rxSeq + 1 then .ok ([.error (.plain .sequenceGap)], s.clearContext)
  else if !fitsBuffer cap (s.rxBuf.length + f.payload.length) then .error .bufferFull
  else
    let settled := settlePacket f (s.appendChunk f)
    .ok ([settled.1], settled.2)

/-- Lines 4 to 20 of `REASM` (R162): the key is compared first (R163). -/
def acceptFrame (cap : Option Nat) (now : Time) (f : ParsedFrame) (s : State) :
    Except Refusal (List Result × State) :=
  if s.rxState = .active ∧ frameKey f ≠ s.rxKey then .ok ([.error (.plain .tagMismatch)], s)
  else if f.som then startMessage cap now f s
  else continueMessage cap f s

/-- `REASM` (R162) on a buffer of capacity `cap`: time running backwards is refused (R160), then the expiry test, then the
packet. -/
def reassemble (cap : Option Nat) (now : Time) (f : ParsedFrame) (s : State) : StepOutcome :=
  if s.timeBackwards now then .refused .timeBackwards
  else
    let noticed := s.noticeExpiry now
    match acceptFrame cap now f noticed.2 with
    | .error r => .refused r
    | .ok (rs, t) => .next (t.report (noticed.1 ++ rs))

/-- `RX_PACKET` (R172) on a buffer of capacity `cap`: parse, then reassemble. A packet that fails to parse is dropped; its
error follows a pending `MissingEom`. -/
def receivePacket (cap : Option Nat) (now : Time) (b : List Byte) (s : State) : StepOutcome :=
  match parsePacket b with
  | .ok f => reassemble cap now f s
  | .error e =>
    if s.timeBackwards now then .refused .timeBackwards
    else
      let noticed := s.noticeExpiry now
      .next (noticed.2.report (noticed.1 ++ [.error e]))

/-- `REASM(now, frame)` (R162). -/
def execReasm (now : Time) (frame : ParsedFrame) (s : State) : StepOutcome :=
  reassemble Config.reasmCap now frame s

/-- `RX_PACKET(now, packet)` (R172). -/
def execRxPacket (now : Time) (packet : List Byte) (s : State) : StepOutcome :=
  receivePacket Config.reasmCap now packet s

/-- `TICK(now)` (R161): an expired context is cleared and `MissingEom` raised; the state change is kept. -/
def execTick (now : Time) (s : State) : StepOutcome :=
  if s.timeBackwards now then .refused .timeBackwards
  else if s.expired now then .next (s.clearContext.raise (.plain .missingEom))
  else .next (s.answer .unit)

end Sys2Proof.Machine
end

