-- ==== Sys2Proof/Machine/Packets.lean ====
section
/-! DEFINITION. The eight packet classes (R80). A packet is what the transport delivers, and each delivered packet is given to
the block by one `RX_PACKET` at the time it arrives (R60, R172, R240): that is the effect of a packet row. DESIGN CHOICE
(log 3), safe. -/

namespace Sys2Proof.Machine

/-- A delivered packet of class `PKT_SINGLE` (R80). -/
def execPktSingle (now : Time) (h : PktHeader) (tail : List Byte) (s : State) : StepOutcome :=
  receivePacket Config.reasmCap now (packetBytes true true false h tail) s

/-- A delivered packet of class `PKT_SINGLE_IC` (R80). -/
def execPktSingleIc (now : Time) (h : PktHeader) (tail : List Byte) (s : State) : StepOutcome :=
  receivePacket Config.reasmCap now (packetBytes true true true h tail) s

/-- A delivered packet of class `PKT_FIRST` (R80). -/
def execPktFirst (now : Time) (h : PktHeader) (tail : List Byte) (s : State) : StepOutcome :=
  receivePacket Config.reasmCap now (packetBytes true false false h tail) s

/-- A delivered packet of class `PKT_FIRST_IC` (R80). -/
def execPktFirstIc (now : Time) (h : PktHeader) (tail : List Byte) (s : State) : StepOutcome :=
  receivePacket Config.reasmCap now (packetBytes true false true h tail) s

/-- A delivered packet of class `PKT_MIDDLE` (R80). -/
def execPktMiddle (now : Time) (h : PktHeader) (tail : List Byte) (s : State) : StepOutcome :=
  receivePacket Config.reasmCap now (packetBytes false false false h tail) s

/-- A delivered packet of class `PKT_MIDDLE_IC` (R80). -/
def execPktMiddleIc (now : Time) (h : PktHeader) (tail : List Byte) (s : State) : StepOutcome :=
  receivePacket Config.reasmCap now (packetBytes false false true h tail) s

/-- A delivered packet of class `PKT_LAST` (R80). -/
def execPktLast (now : Time) (h : PktHeader) (tail : List Byte) (s : State) : StepOutcome :=
  receivePacket Config.reasmCap now (packetBytes false true false h tail) s

/-- A delivered packet of class `PKT_LAST_IC` (R80). -/
def execPktLastIc (now : Time) (h : PktHeader) (tail : List Byte) (s : State) : StepOutcome :=
  receivePacket Config.reasmCap now (packetBytes false true true h tail) s

end Sys2Proof.Machine
end

