-- ==== Sys2Proof/Machine/System.lean ====
section
/-! DEFINITION. The system operations (44_system.md): `RESET`, `CFG_WRITE`, `CFG_READ`, `NEXT_TAG`. -/

namespace Sys2Proof.Machine

/-- `RESET()` (R190): every register at its reset value; a message being reassembled is discarded without an error. What
the host has still to issue is not the block's. -/
def execReset (s : State) : StepOutcome :=
  .next ({ State.reset with issued := s.issued }.answer .unit)

/-- `CFG_WRITE(sel, value)` (R192): `Usage` for `TAG_CTR`. -/
def execCfgWrite (sel : BitVec 2) (value : Byte) (s : State) : StepOutcome :=
  match s.setCfg sel value with
  | some t => .next (t.answer .unit)
  | none => .next (s.raise (.badOperand .sel))

/-- `CFG_READ(sel)` (R193): no side effect, no increment. -/
def execCfgRead (sel : BitVec 2) (s : State) : StepOutcome :=
  .next (s.answer (.byte (s.cfg sel)))

/-- `NEXT_TAG()` (R194): the counter's value, then its successor modulo 8. -/
def execNextTag (s : State) : StepOutcome :=
  .next (s.advanceTag.answer (.tag s.tagCtr))

end Sys2Proof.Machine
end

