-- ==== Sys2Proof/Machine/Dispatch.lean ====
section
/-! DEFINITION. The meaning of every instruction: one arm per constructor, each a direct call of its own meaning. -/

namespace Sys2Proof.Machine

def exec (i : Instr) (s : State) : Host.Outcome State Fault Refusal :=
  match i with
  | .reset => Sys2Proof.Machine.execReset s
  | .cfgWrite sel value => Sys2Proof.Machine.execCfgWrite sel value s
  | .cfgRead sel => Sys2Proof.Machine.execCfgRead sel s
  | .nextTag => Sys2Proof.Machine.execNextTag s
  | .pecCalc span => Sys2Proof.Machine.execPecCalc span s
  | .pecInit => Sys2Proof.Machine.execPecInit s
  | .pecUpdate byte => Sys2Proof.Machine.execPecUpdate byte s
  | .pecRead => Sys2Proof.Machine.execPecRead s
  | .micCalc span => Sys2Proof.Machine.execMicCalc span s
  | .micInit => Sys2Proof.Machine.execMicInit s
  | .micUpdate byte => Sys2Proof.Machine.execMicUpdate byte s
  | .micRead => Sys2Proof.Machine.execMicRead s
  | .buildSingle destAddr srcAddr destEid srcEid tag msgType payload ic => Sys2Proof.Machine.execBuildSingle destAddr srcAddr destEid srcEid tag msgType payload ic s
  | .buildFragment destAddr srcAddr destEid srcEid msgType ic som eom seq tag chunk micIn => Sys2Proof.Machine.execBuildFragment destAddr srcAddr destEid srcEid msgType ic som eom seq tag chunk micIn s
  | .parse packet => Sys2Proof.Machine.execParse packet s
  | .buildFragmented destEid msgType payload ic => Sys2Proof.Machine.execBuildFragmented destEid msgType payload ic s
  | .reasm now frame => Sys2Proof.Machine.execReasm now frame s
  | .rxPacket now packet => Sys2Proof.Machine.execRxPacket now packet s
  | .tick now => Sys2Proof.Machine.execTick now s
  | .pktSingle now h tail => Sys2Proof.Machine.execPktSingle now h tail s
  | .pktSingleIc now h tail => Sys2Proof.Machine.execPktSingleIc now h tail s
  | .pktFirst now h tail => Sys2Proof.Machine.execPktFirst now h tail s
  | .pktFirstIc now h tail => Sys2Proof.Machine.execPktFirstIc now h tail s
  | .pktMiddle now h tail => Sys2Proof.Machine.execPktMiddle now h tail s
  | .pktMiddleIc now h tail => Sys2Proof.Machine.execPktMiddleIc now h tail s
  | .pktLast now h tail => Sys2Proof.Machine.execPktLast now h tail s
  | .pktLastIc now h tail => Sys2Proof.Machine.execPktLastIc now h tail s

end Sys2Proof.Machine
end

