-- ==== Sys2Proof/Machine/Step.lean ====
section
/-! DEFINITION. One step: the input that is handed over next is taken, decoded and executed. There is no program counter and
no fetch (R22); the order of inputs is the host's. -/

namespace Sys2Proof.Machine

/-- One step of the block. With no input it does nothing (R8; log 5). An unassigned command code raises `Usage` (R90, R195);
bytes that are no operation's operands are refused (log 6). -/
def step (s : State) : Host.Outcome State Fault Refusal :=
  match s.issued with
  | [] => .next s
  | input :: rest =>
    match decode input with
    | .ok i => exec i (s.takeInput rest)
    | .error (.unassignedCode _) => .next (s.takeInput rest).rejectCode
    | .error (.malformedOperands _) => .refused .malformedOperands
    | .error .noCommandCode => .refused .malformedOperands

/-- The state in which the next input is the instruction that a row's number stands for (log 1, log 18). -/
def State.withFetchWord (s : State) (nbits w : Nat) : State :=
  { s with issued := tableInput nbits w :: s.issued }

end Sys2Proof.Machine
end

