-- ==== Sys2Proof/Safety.lean ====
section
/-! DEFINITION. The terms the claims use: sequences of operations, the host's duties, which operations touch what, what a host
can see of an idle context, and the bytes of a packet written out from the spec's formulas. -/

namespace Sys2Proof.Machine

/-! ### Sequences of operations -/

/-- The operations of a list, issued one after the other (R59); it stops where one of them stops. -/
def runAll : List Instr → State → StepOutcome
  | [], s => .next s
  | i :: is, s =>
    match exec i s with
    | .next t => runAll is t
    | .fault e => .fault e
    | .refused r => .refused r

/-! ### The host's duties -/

/-- The `now` operand of an operation that has one, and the time of delivery of a packet (R91). -/
def timeOf : Instr → Option Time
  | .reasm now _ => some now
  | .rxPacket now _ => some now
  | .tick now => some now
  | .pktSingle now _ _ => some now
  | .pktSingleIc now _ _ => some now
  | .pktFirst now _ _ => some now
  | .pktFirstIc now _ _ => some now
  | .pktMiddle now _ _ => some now
  | .pktMiddleIc now _ _ => some now
  | .pktLast now _ _ => some now
  | .pktLastIc now _ _ => some now
  | _ => none

/-- The host's duty of R238 towards one operation: its time, if it has one, is not before `RX_T0` while `ACTIVE`. -/
def TimeOk (i : Instr) (s : State) : Prop :=
  ∀ now, timeOf i = some now → s.rxState = .active → s.rxT0 ≤ now

/-- A step that is not refused: what counts as a safe step. The block has no fault (R212). -/
def SafeStep (s : State) : Prop := ∀ r, step s ≠ .refused r

/-! ### Which operations touch what (R20, R25, R57) -/

/-- The operations R57 calls pure. -/
def isPure : Instr → Bool
  | .pecCalc _ => true
  | .micCalc _ => true
  | .pecRead => true
  | .micRead => true
  | .buildSingle _ _ _ _ _ _ _ _ => true
  | .buildFragment _ _ _ _ _ _ _ _ _ _ _ _ => true
  | .parse _ => true
  | .cfgRead _ => true
  | _ => false

/-- The operations that draw a tag from `TAG_CTR` (R29, R64). -/
def drawsTag : Instr → Bool
  | .nextTag => true
  | .buildFragmented _ _ _ _ => true
  | _ => false

/-- The operations that take a packet into the reassembler: `REASM`, `RX_PACKET`, and a delivered packet of any class. -/
def receives : Instr → Bool
  | .reasm _ _ => true
  | .rxPacket _ _ => true
  | .pktSingle _ _ _ => true
  | .pktSingleIc _ _ _ => true
  | .pktFirst _ _ _ => true
  | .pktFirstIc _ _ _ => true
  | .pktMiddle _ _ _ => true
  | .pktMiddleIc _ _ _ => true
  | .pktLast _ _ _ => true
  | .pktLastIc _ _ _ => true
  | _ => false

/-- The frame operations and the span operations of R25, which do not use the accumulators. -/
def ignoresAccumulators (i : Instr) : Bool :=
  receives i ||
    match i with
    | .buildSingle _ _ _ _ _ _ _ _ => true
    | .buildFragment _ _ _ _ _ _ _ _ _ _ _ _ => true
    | .parse _ => true
    | .buildFragmented _ _ _ _ => true
    | .pecCalc _ => true
    | .micCalc _ => true
    | _ => false

/-! ### The reassembly context -/

/-- What R36 lets anyone see of a state: while `RX_STATE` is `IDLE`, five context registers hold no meaningful value. -/
def State.visible (s : State) : State :=
  match s.rxState with
  | .active => s
  | .idle =>
    { s with rxKey := { srcEid := 0, tag := 0, toBit := false }, rxDestEid := 0, rxMsg := 0, rxSeq := 0, rxT0 := 0 }

/-- While `IDLE` the reassembly buffer is empty (R45, R162 `clear`). -/
def IdleBufferEmpty (s : State) : Prop := s.rxState = .idle → s.rxBuf = []

/-- The context is open, `now` is not before its start, and its deadline has not passed (R160). -/
def InTime (s : State) (now : Time) : Prop := s.rxState = .active ∧ s.rxT0 ≤ now ∧ now ≤ s.rxT0 + 100

/-- The packet `f` has the key of the context (R163). -/
def SameKey (f : ParsedFrame) (s : State) : Prop :=
  ({ srcEid := f.srcEid, tag := f.tag, toBit := f.toBit } : RxKey) = s.rxKey

/-- The packet `f` at time `now` would make `RX_BUF` hold more than `c` bytes (R169): it starts a message, with no message in
progress or late or of the same key, and its chunk alone is too long (R164); or it is the next packet of the message in
progress, and its chunk after the buffer is too long (R167). A packet that is dropped stores nothing. -/
def ExceedsCapacity (c : Nat) (now : Time) (f : ParsedFrame) (s : State) : Prop :=
  (f.som = true ∧ c < f.payload.length ∧ (s.rxState = .idle ∨ s.rxT0 + 100 < now ∨ InTime s now ∧ SameKey f s)) ∨
  (f.som = false ∧ c < s.rxBuf.length + f.payload.length ∧ InTime s now ∧ SameKey f s ∧
    f.seq.toNat = (s.rxSeq.toNat + 1) % 4)

/-- The error `c` with no info, as an outcome (R200). -/
def plainError (c : ErrCode) : Result := .error { code := c, info := .nothing }

/-! ### The bytes of a packet, from the spec's formulas (R51, R70, R77, R78) -/

/-- 0 or 1. -/
def bitValue (b : Bool) : Nat := if b then 1 else 0

/-- `SOM<<7 | EOM<<6 | (seq & 3)<<4 | TO<<3 | (tag & 7)` as a sum of disjoint fields (R77). -/
def flagsValue (som eom : Bool) (seq : Nat) (toBit : Bool) (tag : Nat) : Byte :=
  BitVec.ofNat 8 (128 * bitValue som + 64 * bitValue eom + 16 * (seq % 4) + 8 * bitValue toBit + tag % 8)

/-- `IC<<7 | msg_type` as a sum of disjoint fields (R78). -/
def msgValue (ic : Bool) (msgType : BitVec 7) : Byte := BitVec.ofNat 8 (128 * bitValue ic + msgType.toNat)

/-- The four bytes of a MIC on the wire, the least significant first (R51). -/
def micWire (v : Word32) : List Byte :=
  [BitVec.ofNat 8 v.toNat, BitVec.ofNat 8 (v.toNat / 2 ^ 8), BitVec.ofNat 8 (v.toNat / 2 ^ 16),
    BitVec.ofNat 8 (v.toNat / 2 ^ 24)]

/-- The MIC field of a packet that carries one, or nothing (R81). -/
def micWireOpt : Option Word32 → List Byte
  | some v => micWire v
  | none => []

/-- Bytes 0 to 8 of a packet (R70). -/
def headerBytes (destAddr byteCount srcAddr destEid srcEid flags mb : Byte) : List Byte :=
  [destAddr, 0x0F, byteCount, srcAddr, 0x01, destEid, srcEid, flags, mb]

/-- A whole packet (R70): header, chunk, MIC field where there is one, and the PEC of all of that. Its byte count is
`6 + P + M` (R74). -/
def wirePacket (destAddr srcAddr destEid srcEid : Byte) (som eom : Bool) (seq : Nat) (toBit : Bool) (tag : Nat) (ic : Bool)
    (msgType : BitVec 7) (chunk : List Byte) (micField : Option Word32) : List Byte :=
  let body := headerBytes destAddr (BitVec.ofNat 8 (6 + chunk.length + (micWireOpt micField).length)) srcAddr destEid srcEid
    (flagsValue som eom seq toBit tag) (msgValue ic msgType) ++ chunk ++ micWireOpt micField
  body ++ [pec body]

/-- The bytes of a delivered packet of the class of `som`, `eom` and `ic` (R80). -/
def classBytes (som eom ic : Bool) (h : PktHeader) (tail : List Byte) : List Byte :=
  headerBytes h.destAddr h.byteCount h.srcAddr h.destEid h.srcEid
    (flagsValue som eom h.seq.toNat h.toBit h.tag.toNat) (msgValue ic h.msgType) ++ tail

/-- A packet whose length, byte count and PEC are right: 10 to 256 bytes, `L = byte_count + 4`, and the last byte the PEC
of the others (R74, R82, R85). -/
def SoundPacket (b : List Byte) : Prop :=
  10 ≤ b.length ∧ b.length ≤ 256 ∧ (b.getD 2 0).toNat + 4 = b.length ∧
    pec (b.take (b.length - 1)) = b.getD (b.length - 1) 0

end Sys2Proof.Machine
end

