-- ==== Sys2Proof/Certificates/Slice0/Obligations.lean ====
section
/-! DEFINITION. The statements for the provers. Each docstring names the rule of spec/ it formalises; the facts they say
about packets are written with the spec's own formulas (Safety.lean), not with the functions the meanings call. -/

open Sys2Proof Sys2Proof.Machine

/-! ### System operations (44_system.md) -/

/-- R190, R191, R45: `RESET` puts every register at its reset value, reports no error, and power-on has the same effect. (`result`
and `issued` are the model's own fields, logs 4 and 1: `RESET` answers in the one and leaves the other.) -/
def Obligations.ResetLeavesSpecifiedState : Prop :=
  (∀ s : State, ∃ t, exec .reset s = .next t ∧ t.pecAcc = 0x00 ∧ t.micAcc = 0xFFFFFFFF ∧ t.cfgDestAddr = 0x3A ∧
    t.cfgSrcAddr = 0x21 ∧ t.cfgSrcEid = 0x00 ∧ t.tagCtr = 0 ∧ t.rxState = .idle ∧ t.rxBuf = [] ∧
    t.rxKey = { srcEid := 0, tag := 0, toBit := false } ∧ t.rxDestEid = 0 ∧ t.rxMsg = 0 ∧ t.rxSeq = 0 ∧ t.rxT0 = 0 ∧
    t.result = [.ok .unit] ∧ t.issued = s.issued) ∧
  (∀ s t : State, exec .reset s = .next t → { t with result := [], issued := [] } = State.reset)

/-- R192: `CFG_WRITE` writes the selected register and nothing else; `TAG_CTR` is not writable. -/
def Obligations.CfgWriteSetsSelectedRegister : Prop :=
  ∀ (v : Byte) (s : State),
    exec (.cfgWrite 0 v) s = .next { s with cfgDestAddr := v, result := [.ok .unit] } ∧
    exec (.cfgWrite 1 v) s = .next { s with cfgSrcAddr := v, result := [.ok .unit] } ∧
    exec (.cfgWrite 2 v) s = .next { s with cfgSrcEid := v, result := [.ok .unit] } ∧
    exec (.cfgWrite 3 v) s = .next { s with result := [.error { code := .usage, info := .operand .sel }] }

/-- R193: `CFG_READ` returns the selected register, `TAG_CTR` zero-extended and not advanced. -/
def Obligations.CfgReadReturnsSelectedRegister : Prop :=
  ∀ s : State,
    exec (.cfgRead 0) s = .next { s with result := [.ok (.byte s.cfgDestAddr)] } ∧
    exec (.cfgRead 1) s = .next { s with result := [.ok (.byte s.cfgSrcAddr)] } ∧
    exec (.cfgRead 2) s = .next { s with result := [.ok (.byte s.cfgSrcEid)] } ∧
    exec (.cfgRead 3) s = .next { s with result := [.ok (.byte (BitVec.ofNat 8 s.tagCtr.toNat))] }

/-- R194: `NEXT_TAG` returns the counter and leaves its successor modulo 8; eight draws bring it back; `BUILD_FRAGMENTED` draws from
the same counter. -/
def Obligations.NextTagReturnsAndAdvances : Prop :=
  (∀ s : State, exec .nextTag s =
    .next { s with tagCtr := BitVec.ofNat 3 ((s.tagCtr.toNat + 1) % 8), result := [.ok (.tag s.tagCtr)] }) ∧
  (∀ s : State, ∃ t, runAll (List.replicate 8 .nextTag) s = .next t ∧ t.tagCtr = s.tagCtr) ∧
  (∀ (de : Byte) (mt : BitVec 7) (payload : List Byte) (ic : Bool) (s : State),
    ∃ t, exec (.buildFragmented de mt payload ic) s = .next t ∧
      t.tagCtr = BitVec.ofNat 3 ((s.tagCtr.toNat + 1) % 8))

/-- R29, R64, R151: in any sequence of operations without `RESET`, the counter advances by one modulo 8 for each operation
that draws a tag, and for nothing else. -/
def Obligations.TagCounterCountsDraws : Prop :=
  ∀ (is : List Instr) (s t : State), (∀ i ∈ is, i ≠ .reset) → runAll is s = .next t →
    t.tagCtr.toNat = (s.tagCtr.toNat + (is.filter drawsTag).length) % 8

/-! ### Integrity (40_integrity.md) -/

/-- R100, R101: the PEC of a byte sequence, as the bit loop on numbers: the byte enters by exclusive or, then eight
left shifts, each followed by an exclusive or with 0x07 if bit 7 was 1; from 0x00 over the bytes in order. -/
def Obligations.PecFollowsBitLoop : Prop :=
  (∀ c b : Byte, (pecStep c b).toNat =
    Nat.repeat (fun n => if n.testBit 7 then ((n <<< 1) &&& 0xFF) ^^^ 0x07 else (n <<< 1) &&& 0xFF) 8
      (c.toNat ^^^ b.toNat)) ∧
  (∀ s : List Byte, pec s = s.foldl pecStep 0x00)

/-- R104, R105: the MIC of a byte sequence, as the bit loop on numbers: the byte enters bits 7:0 by exclusive or, then
eight right shifts, each followed by an exclusive or with 0x82F63B78 if bit 0 was 1; from 0xFFFFFFFF over the bytes in
order, then a final exclusive or with 0xFFFFFFFF. -/
def Obligations.MicFollowsBitLoop : Prop :=
  (∀ (c : Word32) (b : Byte), (micStep c b).toNat =
    Nat.repeat (fun n => if n.testBit 0 then (n >>> 1) ^^^ 0x82F63B78 else n >>> 1) 8 (c.toNat ^^^ b.toNat)) ∧
  (∀ s : List Byte, mic s = s.foldl micStep 0xFFFFFFFF ^^^ 0xFFFFFFFF)

/-- R103, R107: the span operations return `pec(span)` and `mic(span)` and write nothing else, for every span; an empty span
gives 0x00 and 0x00000000, a span of zero bytes has PEC 0x00; the worked examples. -/
def Obligations.SpanCrcOperationsComplete : Prop :=
  (∀ (span : List Byte) (s : State),
    exec (.pecCalc span) s = .next { s with result := [.ok (.byte (pec span))] } ∧
    exec (.micCalc span) s = .next { s with result := [.ok (.word (mic span))] }) ∧
  pec [] = 0x00 ∧ mic [] = 0x00000000 ∧ (∀ n : Nat, pec (List.replicate n 0x00) = 0x00) ∧
  pec [0x3A, 0x0F, 0x0A, 0x21, 0x01, 0x00, 0x00, 0xC8, 0x04, 0x01, 0x01, 0x00, 0x00] = 0xB3 ∧
  mic [0x04, 0x01, 0x01, 0x00, 0x00] = 0xDD33F043 ∧ mic [0x84, 0x01, 0x01, 0x00, 0x00] = 0xB391251F

/-- R102: the PEC's laws (a) to (e). -/
def Obligations.PecLaws : Prop :=
  pec [] = 0x00 ∧
  (∀ s t : List Byte, pec (s ++ t) = t.foldl pecStep (pec s)) ∧
  (∀ s : List Byte, pec (s ++ [pec s]) = 0x00) ∧
  (∀ s t : List Byte, s.length = t.length → pec (List.zipWith (· ^^^ ·) s t) = pec s ^^^ pec t) ∧
  (∀ s : List Byte, pec (0x00 :: s) = pec s) ∧
  (∀ (s : List Byte) (i k : Nat), i < s.length → k < 8 → pec (s.modify i (· ^^^ (1 <<< k))) ≠ pec s)

/-- R106: the MIC's laws (a) to (e). -/
def Obligations.MicLaws : Prop :=
  mic [] = 0x00000000 ∧
  (∀ (r : Word32) (s t : List Byte), (s ++ t).foldl micStep r = t.foldl micStep (s.foldl micStep r)) ∧
  (∀ s : List Byte, (s ++ micWire (mic s)).foldl micStep 0xFFFFFFFF = 0xB798B438 ∧
    mic (s ++ micWire (mic s)) = 0x48674BC7) ∧
  mic [0x00] = 0x527D5351 ∧
  (∀ (s : List Byte) (i k : Nat), i < s.length → k < 8 → mic (s.modify i (· ^^^ (1 <<< k))) ≠ mic s)

/-- R109: the byte steps are one look-up in a 256-entry table of `pec_step(0, i)` and of `mic_step(0, i)`. -/
def Obligations.CrcStepsAreTableLookups : Prop :=
  (∀ c b : Byte, pecStep c b = pecStep 0x00 (c ^^^ b)) ∧
  (∀ (c : Word32) (b : Byte),
    micStep c b = (c >>> 8) ^^^ micStep 0x00000000 (((c ^^^ b.setWidth 32) &&& 0xFF).setWidth 8))

/-- R111, R112: `PEC_INIT` and `PEC_UPDATE` write `PEC_ACC` and nothing else; a zero byte leaves a zero accumulator zero. -/
def Obligations.PecAccumulatorWrites : Prop :=
  (∀ s : State, exec .pecInit s = .next { s with pecAcc := 0x00, result := [.ok .unit] }) ∧
  (∀ (b : Byte) (s : State),
    exec (.pecUpdate b) s = .next { s with pecAcc := pecStep s.pecAcc b, result := [.ok .unit] }) ∧
  (∀ s : State, s.pecAcc = 0x00 → exec (.pecUpdate 0x00) s = .next { s with result := [.ok .unit] })

/-- R113: `PEC_READ` returns `PEC_ACC` and changes nothing; after `PEC_INIT` and the bytes of `b` it returns `pec(b)`, and more
bytes may be fed afterwards. -/
def Obligations.PecReadReturnsPecOfFedBytes : Prop :=
  (∀ s : State, exec .pecRead s = .next { s with result := [.ok (.byte s.pecAcc)] }) ∧
  (∀ (b : List Byte) (s : State), runAll (.pecInit :: b.map .pecUpdate ++ [.pecRead]) s =
    .next { s with pecAcc := pec b, result := [.ok (.byte (pec b))] }) ∧
  (∀ (b c : List Byte) (s : State),
    runAll (.pecInit :: b.map .pecUpdate ++ .pecRead :: c.map .pecUpdate ++ [.pecRead]) s =
      .next { s with pecAcc := pec (b ++ c), result := [.ok (.byte (pec (b ++ c)))] })

/-- R114, R115: `MIC_INIT` and `MIC_UPDATE` write `MIC_ACC` and nothing else. -/
def Obligations.MicAccumulatorWrites : Prop :=
  (∀ s : State, exec .micInit s = .next { s with micAcc := 0xFFFFFFFF, result := [.ok .unit] }) ∧
  (∀ (b : Byte) (s : State),
    exec (.micUpdate b) s = .next { s with micAcc := micStep s.micAcc b, result := [.ok .unit] })

/-- R108: `MIC_READ` returns `MIC_ACC ^ 0xFFFFFFFF` and changes nothing; after `MIC_INIT` and the bytes of `b` it returns
`mic(b)`, and more bytes may be fed afterwards. -/
def Obligations.MicReadReturnsMicOfFedBytes : Prop :=
  (∀ s : State, exec .micRead s = .next { s with result := [.ok (.word (s.micAcc ^^^ 0xFFFFFFFF))] }) ∧
  (∀ (b : List Byte) (s : State), ∃ t, runAll (.micInit :: b.map .micUpdate ++ [.micRead]) s = .next t ∧
    t.result = [.ok (.word (mic b))]) ∧
  (∀ (b c : List Byte) (s : State), ∃ t,
    runAll (.micInit :: b.map .micUpdate ++ .micRead :: c.map .micUpdate ++ [.micRead]) s = .next t ∧
      t.result = [.ok (.word (mic (b ++ c)))])

/-! ### Frames (30_encoding.md, 41_framer.md) -/

/-- R122: `BUILD_SINGLE` returns the whole packet with SOM = EOM = TO = 1, seq = 0, the tag modulo 8, and with `ic` the MIC
over the message-type byte and the payload; more than 120 bytes is `Usage`; nothing else is written. -/
def Obligations.BuildSingleReturnsPacket : Prop :=
  ∀ (da sa de se tag : Byte) (mt : BitVec 7) (payload : List Byte) (ic : Bool) (s : State),
    (payload.length ≤ 120 → exec (.buildSingle da sa de se tag mt payload ic) s =
      .next { s with result := [.ok (.packet (wirePacket da sa de se true true 0 true tag.toNat ic mt payload
        (if ic then some (mic (msgValue ic mt :: payload)) else none)))] }) ∧
    (120 < payload.length → exec (.buildSingle da sa de se tag mt payload ic) s =
      .next { s with result := [.error { code := .usage, info := .operand .payload }] })

/-- R126, R128: `BUILD_FRAGMENT`: a chunk over 120 bytes is `Usage`, tested first; the last fragment of an IC message given no
`mic_in` is `Usage`; else the packet, with a MIC field exactly when `ic` and `eom`, computed when `som` too and `mic_in`
otherwise. With `som` = `eom` = 1 and `seq` = 0 it is `BUILD_SINGLE`'s packet. -/
def Obligations.BuildFragmentReturnsPacket : Prop :=
  (∀ (da sa de se : Byte) (mt : BitVec 7) (ic som eom : Bool) (seq tag : Byte) (chunk : List Byte) (micIn : Option Word32)
      (s : State),
    (120 < chunk.length → exec (.buildFragment da sa de se mt ic som eom seq tag chunk micIn) s =
      .next { s with result := [.error { code := .usage, info := .operand .chunk }] }) ∧
    (chunk.length ≤ 120 → ic = true → eom = true → som = false → micIn = none →
      exec (.buildFragment da sa de se mt ic som eom seq tag chunk micIn) s =
        .next { s with result := [.error { code := .usage, info := .operand .micIn }] }) ∧
    (chunk.length ≤ 120 → ic = true → eom = true → som = false → ∀ m, micIn = some m →
      exec (.buildFragment da sa de se mt ic som eom seq tag chunk micIn) s =
        .next { s with result := [.ok (.packet
          (wirePacket da sa de se som eom seq.toNat true tag.toNat ic mt chunk (some m)))] }) ∧
    (chunk.length ≤ 120 → ic = true → eom = true → som = true →
      exec (.buildFragment da sa de se mt ic som eom seq tag chunk micIn) s =
        .next { s with result := [.ok (.packet (wirePacket da sa de se som eom seq.toNat true tag.toNat ic mt chunk
          (some (mic (msgValue ic mt :: chunk)))))] }) ∧
    (chunk.length ≤ 120 → (ic = false ∨ eom = false) →
      exec (.buildFragment da sa de se mt ic som eom seq tag chunk micIn) s =
        .next { s with result := [.ok (.packet
          (wirePacket da sa de se som eom seq.toNat true tag.toNat ic mt chunk none))] })) ∧
  (∀ (da sa de se tag : Byte) (mt : BitVec 7) (ic : Bool) (chunk : List Byte) (micIn : Option Word32) (s : State),
    chunk.length ≤ 120 → exec (.buildFragment da sa de se mt ic true true 0 tag chunk micIn) s =
      exec (.buildSingle da sa de se tag mt chunk ic) s)

/-- R136, R138, R84, R86: `PARSE` makes its checks in the order of the numbered lines, the first that fails decides, and a
packet that passes them all gives its fields; nothing else is written. -/
def Obligations.ParseFollowsNumberedChecks : Prop :=
  ∀ (b : List Byte) (s : State),
    let at' : Nat → Nat := fun i => (b.getD i 0).toNat
    let fails : ErrCode → ErrInfo → Prop := fun c i =>
      exec (.parse b) s = .next { s with result := [.error { code := c, info := i }] }
    let body := (b.drop 9).take (b.length - 10)
    let chunk := (b.drop 9).take (b.length - 14)
    let micAt := at' (b.length - 5) + 2 ^ 8 * at' (b.length - 4) + 2 ^ 16 * at' (b.length - 3) +
      2 ^ 24 * at' (b.length - 2)
    let gives : List Byte → Option Word32 → Option Bool → Prop := fun payload m ok =>
      ∃ f : ParsedFrame, exec (.parse b) s = .next { s with result := [.ok (.frame f)] } ∧
        f.destAddr.toNat = at' 0 ∧ f.byteCount.toNat = at' 2 ∧ f.srcAddr.toNat = at' 3 ∧ f.version = 1 ∧
        f.destEid.toNat = at' 5 ∧ f.srcEid.toNat = at' 6 ∧ bitValue f.som = at' 7 / 128 ∧
        bitValue f.eom = at' 7 / 64 % 2 ∧ f.seq.toNat = at' 7 / 16 % 4 ∧ bitValue f.toBit = at' 7 / 8 % 2 ∧
        f.tag.toNat = at' 7 % 8 ∧ bitValue f.ic = at' 8 / 128 ∧ f.msgType.toNat = at' 8 % 128 ∧
        f.payload = payload ∧ f.mic = m ∧ f.micOk = ok ∧ f.pecOk = true
    (256 < b.length → fails .usage (.operand .packet)) ∧
    (b.length < 10 → fails .shortPacket .nothing) ∧
    (10 ≤ b.length → b.length ≤ 256 →
      (at' 1 ≠ 0x0F → fails .wrongCommandCode (.offset 1)) ∧
      (at' 1 = 0x0F →
        (b.length < at' 2 + 4 → fails .shortPacket (.offset 2)) ∧
        (at' 2 + 4 < b.length → fails .badByteCount (.offset 2)) ∧
        (at' 2 + 4 = b.length →
          (at' 4 / 16 ≠ 0 → fails .reservedBitsSet (.offset 4)) ∧
          (at' 4 / 16 = 0 → at' 4 % 16 ≠ 1 → fails .badVersion (.offset 4)) ∧
          (at' 4 / 16 = 0 → at' 4 % 16 = 1 →
            (pec (b.take (b.length - 1)) ≠ b.getD (b.length - 1) 0 → fails .badPec (.offset (b.length - 1))) ∧
            (pec (b.take (b.length - 1)) = b.getD (b.length - 1) 0 →
              ((at' 8 / 128 = 0 ∨ at' 7 / 64 % 2 = 0) → gives body none none) ∧
              (at' 8 / 128 = 1 → at' 7 / 64 % 2 = 1 → b.length < 14 → fails .shortPacket .nothing) ∧
              (at' 8 / 128 = 1 → at' 7 / 64 % 2 = 1 → 14 ≤ b.length → at' 7 / 128 = 0 →
                gives chunk (some (BitVec.ofNat 32 micAt)) none) ∧
              (at' 8 / 128 = 1 → at' 7 / 64 % 2 = 1 → 14 ≤ b.length → at' 7 / 128 = 1 →
                ((mic (b.getD 8 0 :: chunk)).toNat ≠ micAt → fails .badMic (.offset (b.length - 5))) ∧
                ((mic (b.getD 8 0 :: chunk)).toNat = micAt →
                  gives chunk (some (BitVec.ofNat 32 micAt)) (some true))))))))

/-- R70, R74, R82: every packet the block builds and every packet it accepts has the frame layout: length `10 + P + M`, the
fixed bytes, the byte count `6 + P + M = L - 4`, and the PEC of all other bytes in the last byte. -/
def Obligations.PacketsHaveFrameLayout : Prop :=
  (∀ (da sa de se : Byte) (mt : BitVec 7) (ic som eom : Bool) (seq tag : Byte) (chunk : List Byte) (micIn : Option Word32)
      (s : State) (b : List Byte),
    exec (.buildFragment da sa de se mt ic som eom seq tag chunk micIn) s = .next { s with result := [.ok (.packet b)] } →
      b.length = 10 + chunk.length + (if ic && eom then 4 else 0) ∧ b.getD 1 0 = 0x0F ∧ b.getD 4 0 = 0x01 ∧
      (b.getD 2 0).toNat + 4 = b.length ∧ (b.drop 9).take chunk.length = chunk ∧
      b.getD (b.length - 1) 0 = pec (b.take (b.length - 1))) ∧
  (∀ (b : List Byte) (s : State) (f : ParsedFrame),
    exec (.parse b) s = .next { s with result := [.ok (.frame f)] } →
      b.length = 10 + f.payload.length + (if f.ic && f.eom then 4 else 0) ∧ b.length ≤ 256 ∧ b.getD 1 0 = 0x0F ∧
      b.getD 4 0 = 0x01 ∧ (b.getD 2 0).toNat + 4 = b.length ∧ (b.drop 9).take f.payload.length = f.payload ∧
      b.getD (b.length - 1) 0 = pec (b.take (b.length - 1)))

/-- R143: what `BUILD_SINGLE` builds, `PARSE` accepts, and every field is the operand it came from. -/
def Obligations.BuildThenParseRoundTrip : Prop :=
  ∀ (da sa de se tag : Byte) (mt : BitVec 7) (payload : List Byte) (ic : Bool) (s : State), payload.length ≤ 120 →
    ∃ (b : List Byte) (f : ParsedFrame),
      exec (.buildSingle da sa de se tag mt payload ic) s = .next { s with result := [.ok (.packet b)] } ∧
      exec (.parse b) s = .next { s with result := [.ok (.frame f)] } ∧
      f.payload = payload ∧ f.pecOk = true ∧ (ic = true → f.micOk = some true) ∧ f.destAddr = da ∧ f.srcAddr = sa ∧
      f.destEid = de ∧ f.srcEid = se ∧ f.tag.toNat = tag.toNat % 8 ∧ f.msgType = mt ∧ f.ic = ic ∧ f.som = true ∧
      f.eom = true ∧ f.seq = 0 ∧ f.toBit = true

/-- R144: a single-packet message with seq 0, TO 1 and at most 120 bytes that `PARSE` accepts is built again, byte for byte,
from its fields. -/
def Obligations.ParseThenBuildRoundTrip : Prop :=
  ∀ (b : List Byte) (f : ParsedFrame) (s : State),
    exec (.parse b) s = .next { s with result := [.ok (.frame f)] } → f.som = true → f.eom = true → f.seq = 0 →
    f.toBit = true → f.payload.length ≤ 120 →
      exec (.buildSingle f.destAddr f.srcAddr f.destEid f.srcEid (f.tag.setWidth 8) f.msgType f.payload f.ic) s =
        .next { s with result := [.ok (.packet b)] }

/-- R145: one flipped bit in a packet that `PARSE` accepts is always reported, and by the byte and the bit it is told which
error it is; it is never `BadMic`. -/
def Obligations.SingleBitFlipIsReported : Prop :=
  ∀ (b : List Byte) (f : ParsedFrame) (s : State) (i k : Nat),
    exec (.parse b) s = .next { s with result := [.ok (.frame f)] } → i < b.length → k < 8 →
      ∃ e : Err, exec (.parse (b.modify i (· ^^^ (1 <<< k)))) s = .next { s with result := [.error e] } ∧
        (i = 0 ∨ i = 3 ∨ 5 ≤ i → e.code = .badPec) ∧
        (i = 1 → e.code = .wrongCommandCode) ∧
        (i = 2 → e.code = .shortPacket ∨ e.code = .badByteCount) ∧
        (i = 4 → 4 ≤ k → e.code = .reservedBitsSet) ∧
        (i = 4 → k < 4 → e.code = .badVersion)

/-! ### Fragmenter (42_fragmenter.md) -/

/-- R150, R151, R153, R154: `BUILD_FRAGMENTED` draws its tag from `TAG_CTR` and returns `max(1, ceil(n / 120))` packets with
the addresses and source EID of the `CFG_` registers, SOM on the first, EOM on the last, seq the index modulo 4, TO = 1,
the one tag, the one message-type byte, and one MIC, over the whole payload, in the last; nothing else is written. -/
def Obligations.BuildFragmentedReturnsFragments : Prop :=
  ∀ (de : Byte) (mt : BitVec 7) (payload : List Byte) (ic : Bool) (s : State),
    let k := max 1 ((payload.length + 119) / 120)
    exec (.buildFragmented de mt payload ic) s =
      .next { s with
        tagCtr := BitVec.ofNat 3 ((s.tagCtr.toNat + 1) % 8)
        result := [.ok (.fragmented
          { totalLen := payload.length
            fragments := (List.range k).map fun i =>
              { index := i
                seq := BitVec.ofNat 2 (i % 4)
                som := decide (i = 0)
                eom := decide (i + 1 = k)
                packet := wirePacket s.cfgDestAddr s.cfgSrcAddr de s.cfgSrcEid (decide (i = 0)) (decide (i + 1 = k)) i
                  true s.tagCtr.toNat ic mt ((payload.drop (120 * i)).take 120)
                  (if ic = true ∧ i + 1 = k then some (mic (msgValue ic mt :: payload)) else none) } })] }

/-- R152, R156, R158: the number of fragments, the length of every chunk and packet, and the chunks in order give the
payload back; an empty payload is one packet. -/
def Obligations.FragmentsPartitionPayload : Prop :=
  ∀ (de : Byte) (mt : BitVec 7) (payload : List Byte) (ic : Bool) (s t : State) (m : FragmentedMessage),
    exec (.buildFragmented de mt payload ic) s = .next t → t.result = [.ok (.fragmented m)] →
      let k := m.fragments.length
      1 ≤ k ∧ 120 * (k - 1) ≤ payload.length ∧ payload.length ≤ 120 * k ∧
      (payload = [] → k = 1) ∧ (payload ≠ [] → 120 * (k - 1) < payload.length) ∧
      (∀ (i : Nat) (f : Fragment), m.fragments[i]? = some f → i + 1 < k → f.packet.length = 130) ∧
      (∀ f : Fragment, m.fragments.getLast? = some f →
        f.packet.length = 10 + (payload.length - 120 * (k - 1)) + (if ic then 4 else 0)) ∧
      (m.fragments.map fun f => (f.packet.drop 9).take
        (f.packet.length - 10 - (if ic && f.eom then 4 else 0))).flatten = payload

/-- R83, R153: over a message, exactly one fragment has SOM and exactly one has EOM, and what `PARSE` reads from the packets
is TO = 1, the one tag and message type, and the sequence numbers 0, 1, 2, 3, 0, … in order. -/
def Obligations.FragmentHeadersKeepInvariants : Prop :=
  ∀ (de : Byte) (mt : BitVec 7) (payload : List Byte) (ic : Bool) (s t : State) (m : FragmentedMessage),
    exec (.buildFragmented de mt payload ic) s = .next t → t.result = [.ok (.fragmented m)] →
      (m.fragments.filter (·.som)).length = 1 ∧ (m.fragments.filter (·.eom)).length = 1 ∧
      ∀ (i : Nat) (f : Fragment), m.fragments[i]? = some f →
        ∃ p : ParsedFrame, exec (.parse f.packet) s = .next { s with result := [.ok (.frame p)] } ∧
          p.toBit = true ∧ p.tag = s.tagCtr ∧ p.msgType = mt ∧ p.ic = ic ∧ p.destEid = de ∧ p.srcEid = s.cfgSrcEid ∧
          p.destAddr = s.cfgDestAddr ∧ p.srcAddr = s.cfgSrcAddr ∧ p.seq.toNat = i % 4 ∧ f.seq = p.seq ∧ f.index = i ∧
          f.som = p.som ∧ f.eom = p.eom ∧ p.payload = (payload.drop (120 * i)).take 120

/-! ### Reassembler (43_reassembler.md) -/

/-- R160, R161: `TICK` is refused when time runs backwards while `ACTIVE`; 100 ms after the start the context is still in time,
at 101 ms it is dropped with `MissingEom`, reported once; while `IDLE` nothing happens at any time. -/
def Obligations.TickEnforcesDeadline : Prop :=
  ∀ (now : Time) (s : State),
    (s.rxState = .idle → exec (.tick now) s = .next { s with result := [.ok .unit] }) ∧
    (s.rxState = .active → now < s.rxT0 → exec (.tick now) s = .refused .timeBackwards) ∧
    (s.rxState = .active → s.rxT0 ≤ now → now ≤ s.rxT0 + 100 →
      exec (.tick now) s = .next { s with result := [.ok .unit] }) ∧
    (s.rxState = .active → s.rxT0 + 100 < now → ∃ t, exec (.tick now) s = .next t ∧
      t.visible = ({ s with rxState := .idle, rxBuf := [], result := [plainError .missingEom] } : State).visible ∧
      ∀ later, exec (.tick later) t = .next { t with result := [.ok .unit] })

/-- R163: while a message is in progress, a packet with another key is dropped with `TagMismatch`, whatever its SOM, EOM and
seq, and the context is left as it was; while `IDLE` no packet raises `TagMismatch`. -/
def Obligations.ReasmDropsOtherKey : Prop :=
  (∀ (now : Time) (f : ParsedFrame) (s : State), InTime s now →
    ({ srcEid := f.srcEid, tag := f.tag, toBit := f.toBit } : RxKey) ≠ s.rxKey →
      exec (.reasm now f) s = .next { s with result := [plainError .tagMismatch] }) ∧
  (∀ (now : Time) (f : ParsedFrame) (s : State), s.rxState = .idle →
    ∃ t, exec (.reasm now f) s = .next t ∧ plainError .tagMismatch ∉ t.result)

/-- R164: a SOM packet starts a new message, whatever its seq: it is opened with a new deadline; a message of the same key that
was in progress is discarded, and `UnexpectedSom` is reported first. -/
def Obligations.ReasmSomStartsMessage : Prop :=
  ∀ (now : Time) (f : ParsedFrame) (s : State), f.som = true → f.eom = false →
    let opened : List Result → State := fun r =>
      { s with rxState := .active, rxKey := { srcEid := f.srcEid, tag := f.tag, toBit := f.toBit }, rxDestEid := f.destEid,
               rxMsg := msgValue f.ic f.msgType, rxSeq := f.seq, rxBuf := f.payload, rxT0 := now, result := r }
    (s.rxState = .idle → exec (.reasm now f) s = .next (opened [.ok .pending])) ∧
    (InTime s now → ({ srcEid := f.srcEid, tag := f.tag, toBit := f.toBit } : RxKey) = s.rxKey →
      exec (.reasm now f) s = .next (opened [plainError .unexpectedSom, .ok .pending]))

/-- R164, R168: a SOM packet that is also the last completes at once, after `UnexpectedSom` if a message of the same key was in
progress; its MIC is required exactly when it declares IC; the context ends `IDLE` and empty. -/
def Obligations.ReasmSinglePacketCompletes : Prop :=
  ∀ (now : Time) (f : ParsedFrame) (s : State), f.som = true → f.eom = true →
    (s.rxState = .idle ∨
      InTime s now ∧ ({ srcEid := f.srcEid, tag := f.tag, toBit := f.toBit } : RxKey) = s.rxKey) →
    ∃ t, exec (.reasm now f) s = .next t ∧
      t.visible = ({ s with
        rxState := .idle
        rxBuf := []
        result := (if s.rxState = .active then [plainError .unexpectedSom] else []) ++
          [if f.ic = false ∨ f.mic = some (mic (msgValue f.ic f.msgType :: f.payload)) then
            .ok (.complete { srcEid := f.srcEid, destEid := f.destEid, tag := f.tag, toBit := f.toBit,
                             msgType := f.msgType, ic := f.ic, payload := f.payload })
          else plainError .badMic] } : State).visible

/-- R165: a packet without SOM that arrives while `IDLE` is dropped with `SequenceGap`; the context stays as it was. -/
def Obligations.ReasmIdleDropsNonSom : Prop :=
  ∀ (now : Time) (f : ParsedFrame) (s : State), f.som = false → s.rxState = .idle →
    exec (.reasm now f) s = .next { s with result := [plainError .sequenceGap] }

/-- R166: a packet of the message in progress whose seq is not the successor modulo 4 ends the message with `SequenceGap`, EOM or
not, and the next packet without SOM meets R165. -/
def Obligations.ReasmSequenceGapAbandons : Prop :=
  ∀ (now : Time) (f : ParsedFrame) (s : State), InTime s now →
    ({ srcEid := f.srcEid, tag := f.tag, toBit := f.toBit } : RxKey) = s.rxKey → f.som = false →
    f.seq.toNat ≠ (s.rxSeq.toNat + 1) % 4 →
      ∃ t, exec (.reasm now f) s = .next t ∧
        t.visible = ({ s with rxState := .idle, rxBuf := [], result := [plainError .sequenceGap] } : State).visible ∧
        ∀ (later : Time) (g : ParsedFrame), g.som = false →
          exec (.reasm later g) t = .next { t with result := [plainError .sequenceGap] }

/-- R167: an accepted packet that is not the last: its chunk is appended, `RX_SEQ` advances, `RX_T0` and all else stay. -/
def Obligations.ReasmAppendsChunk : Prop :=
  ∀ (now : Time) (f : ParsedFrame) (s : State), InTime s now →
    ({ srcEid := f.srcEid, tag := f.tag, toBit := f.toBit } : RxKey) = s.rxKey → f.som = false → f.eom = false →
    f.seq.toNat = (s.rxSeq.toNat + 1) % 4 →
      exec (.reasm now f) s =
        .next { s with rxSeq := f.seq, rxBuf := s.rxBuf ++ f.payload, result := [.ok .pending] }

/-- R168: the last packet completes the message. A MIC is required if the message or its last packet declares IC, and then it
must be there and be the MIC over the first packet's message-type byte and the whole payload, else `BadMic`. Either way the
context ends `IDLE` and empty. -/
def Obligations.ReasmLastPacketCompletes : Prop :=
  ∀ (now : Time) (f : ParsedFrame) (s : State), InTime s now →
    ({ srcEid := f.srcEid, tag := f.tag, toBit := f.toBit } : RxKey) = s.rxKey → f.som = false → f.eom = true →
    f.seq.toNat = (s.rxSeq.toNat + 1) % 4 →
      ∃ t, exec (.reasm now f) s = .next t ∧
        t.visible = ({ s with
          rxState := .idle
          rxBuf := []
          result := [
            if (s.rxMsg.toNat < 128 ∧ f.ic = false) ∨ f.mic = some (mic (s.rxMsg :: (s.rxBuf ++ f.payload))) then
              .ok (.complete { srcEid := s.rxKey.srcEid, destEid := s.rxDestEid, tag := s.rxKey.tag,
                               toBit := s.rxKey.toBit, msgType := BitVec.ofNat 7 (s.rxMsg.toNat % 128),
                               ic := decide (128 ≤ s.rxMsg.toNat), payload := s.rxBuf ++ f.payload })
            else plainError .badMic] } : State).visible

/-- R160, R162 lines 2 and 3, R172, R237: whatever takes a packet 101 ms or more after the start reports `MissingEom` first and
then does exactly what it does with the context `IDLE` and empty. -/
def Obligations.ExpiredContextIsReportedFirst : Prop :=
  ∀ (i : Instr) (now : Time) (s : State), receives i = true → timeOf i = some now → s.rxState = .active →
    s.rxT0 + 100 < now →
      ∃ t, exec i { s with rxState := .idle, rxBuf := [] } = .next t ∧
        exec i s = .next { t with result := plainError .missingEom :: t.result }

/-- R172: `RX_PACKET` is `PARSE`, then `REASM` on its frame; a packet that fails to parse is dropped with `PARSE`'s error, after
`MissingEom` if the deadline had passed, and disturbs nothing else. -/
def Obligations.RxPacketParsesThenReassembles : Prop :=
  ∀ (now : Time) (b : List Byte) (s : State),
    (∀ f : ParsedFrame, exec (.parse b) s = .next { s with result := [.ok (.frame f)] } →
      exec (.rxPacket now b) s = exec (.reasm now f) s) ∧
    (∀ e : Err, exec (.parse b) s = .next { s with result := [.error e] } →
      (s.rxState = .idle ∨ InTime s now → exec (.rxPacket now b) s = .next { s with result := [.error e] }) ∧
      (s.rxState = .active → s.rxT0 + 100 < now → ∃ t, exec (.rxPacket now b) s = .next t ∧
        t.visible = ({ s with rxState := .idle, rxBuf := [], result := [plainError .missingEom, .error e] } : State).visible))

/-- R170: the outcome list of a packet has one or two elements, and the two-element lists are those of the rule. -/
def Obligations.OutcomeListShape : Prop :=
  ∀ (i : Instr) (s t : State), receives i = true → exec i s = .next t →
    (∃ x, t.result = [x] ∧ (x = .ok .pending ∨ (∃ m, x = .ok (.complete m)) ∨ ∃ e, x = .error e)) ∨
    (∃ x, t.result = [plainError .missingEom, x] ∧
      (x = .ok .pending ∨ (∃ m, x = .ok (.complete m)) ∨ x = plainError .sequenceGap ∨ x = plainError .badMic ∨
        ((∀ now f, i ≠ .reasm now f) ∧ ∃ e, x = .error e ∧ e.code ∈ [ErrCode.usage, .shortPacket, .wrongCommandCode,
          .badByteCount, .reservedBitsSet, .badVersion, .badPec, .badMic]))) ∨
    (∃ x, t.result = [plainError .unexpectedSom, x] ∧
      (x = .ok .pending ∨ (∃ m, x = .ok (.complete m)) ∨ x = plainError .badMic))

/-- R155: the packets of `BUILD_FRAGMENTED`, handed to `RX_PACKET` in order from `IDLE`, at times that never decrease and lie
within 100 ms of the first, give `Pending` for every packet but the last and `Complete` with the payload for the last. -/
def Obligations.FragmentThenReassembleRoundTrip : Prop :=
  ∀ (de : Byte) (mt : BitVec 7) (payload : List Byte) (ic : Bool) (s t0 : State) (m : FragmentedMessage)
      (times : List Time),
    s.rxState = .idle → exec (.buildFragmented de mt payload ic) s = .next t0 → t0.result = [.ok (.fragmented m)] →
    times.length = m.fragments.length → times.Pairwise (· ≤ ·) → (∀ a ∈ times, a ≤ times.headD 0 + 100) →
    ∀ j < m.fragments.length, ∃ t,
      runAll (((times.zip m.fragments).take (j + 1)).map fun p => .rxPacket p.1 p.2.packet) t0 = .next t ∧
      t.result = [if j + 1 = m.fragments.length then
          .ok (.complete { srcEid := s.cfgSrcEid, destEid := de, tag := s.tagCtr, toBit := true, msgType := mt, ic := ic,
                           payload := payload })
        else .ok .pending]

/-- R169: with a finite capacity, a packet that would make the buffer exceed it is refused, every other packet (a dropped one
with a chunk of any length too) does what it does with an unbounded buffer, which refuses none, and the buffer never exceeds
it; the machine's buffer is unbounded (log 7) and never refuses. -/
def Obligations.FiniteCapacityRefuses : Prop :=
  (∀ (c : Nat) (now : Time) (f : ParsedFrame) (s : State), ExceedsCapacity c now f s →
    reassemble (some c) now f s = .refused .bufferFull) ∧
  (∀ (c : Nat) (now : Time) (f : ParsedFrame) (s : State), ¬ ExceedsCapacity c now f s →
    reassemble (some c) now f s = reassemble none now f s) ∧
  (∀ (now : Time) (f : ParsedFrame) (s : State), reassemble none now f s ≠ .refused .bufferFull) ∧
  (∀ (c : Nat) (now : Time) (f : ParsedFrame) (s t : State), s.rxBuf.length ≤ c →
      reassemble (some c) now f s = .next t → t.rxBuf.length ≤ c) ∧
  (∀ (i : Instr) (s : State), exec i s ≠ .refused .bufferFull)

/-! ### Packet classes (R80) -/

/-- R80, R70, R60: the model's choice (log 3): a delivered packet of each class is `RX_PACKET` on its bytes, which are the
class's pattern and the rest of the packet. -/
def Obligations.DeliveredPacketIsRxPacket : Prop :=
  ∀ (now : Time) (h : PktHeader) (tail : List Byte) (s : State),
    exec (.pktSingle now h tail) s = exec (.rxPacket now (classBytes true true false h tail)) s ∧
    exec (.pktSingleIc now h tail) s = exec (.rxPacket now (classBytes true true true h tail)) s ∧
    exec (.pktFirst now h tail) s = exec (.rxPacket now (classBytes true false false h tail)) s ∧
    exec (.pktFirstIc now h tail) s = exec (.rxPacket now (classBytes true false true h tail)) s ∧
    exec (.pktMiddle now h tail) s = exec (.rxPacket now (classBytes false false false h tail)) s ∧
    exec (.pktMiddleIc now h tail) s = exec (.rxPacket now (classBytes false false true h tail)) s ∧
    exec (.pktLast now h tail) s = exec (.rxPacket now (classBytes false true false h tail)) s ∧
    exec (.pktLastIc now h tail) s = exec (.rxPacket now (classBytes false true true h tail)) s

/-- R171 row 1, R80 (delivery: log 3): a sound first packet, with IC or without, delivered while `IDLE`, opens the context with
all its bytes after the message-type byte as the chunk, and is answered `Pending`. -/
def Obligations.FirstPacketOpensContext : Prop :=
  ∀ (ic : Bool) (now : Time) (h : PktHeader) (tail : List Byte) (s : State),
    SoundPacket (classBytes true false ic h tail) → s.rxState = .idle →
      let t : State := { s with
        rxState := .active
        rxKey := { srcEid := h.srcEid, tag := h.tag, toBit := h.toBit }
        rxDestEid := h.destEid
        rxMsg := msgValue ic h.msgType
        rxSeq := h.seq
        rxBuf := tail.dropLast
        rxT0 := now
        result := [.ok .pending] }
      (ic = false → exec (.pktFirst now h tail) s = .next t) ∧
      (ic = true → exec (.pktFirstIc now h tail) s = .next t) ∧
      exec (.rxPacket now (classBytes true false ic h tail)) s = .next t

/-- R171, R167 (delivery: log 3): a sound middle packet of the message in progress, with the next seq, is appended and answered
`Pending`. -/
def Obligations.MiddlePacketAppends : Prop :=
  ∀ (ic : Bool) (now : Time) (h : PktHeader) (tail : List Byte) (s : State),
    SoundPacket (classBytes false false ic h tail) → InTime s now →
    ({ srcEid := h.srcEid, tag := h.tag, toBit := h.toBit } : RxKey) = s.rxKey →
    h.seq.toNat = (s.rxSeq.toNat + 1) % 4 →
      let t : State := { s with rxSeq := h.seq, rxBuf := s.rxBuf ++ tail.dropLast, result := [.ok .pending] }
      (ic = false → exec (.pktMiddle now h tail) s = .next t) ∧
      (ic = true → exec (.pktMiddleIc now h tail) s = .next t) ∧
      exec (.rxPacket now (classBytes false false ic h tail)) s = .next t

/-- R171, R168 (delivery: log 3): a sound last packet of the message in progress, with the next seq, completes it; with IC it
carries the MIC over the whole message after its chunk, without IC the message must not have declared IC. -/
def Obligations.LastPacketCompletes : Prop :=
  ∀ (ic : Bool) (now : Time) (h : PktHeader) (chunk : List Byte) (p : Byte) (s : State),
    let tail := chunk ++ (if ic then micWire (mic (s.rxMsg :: (s.rxBuf ++ chunk))) else []) ++ [p]
    SoundPacket (classBytes false true ic h tail) → InTime s now →
    ({ srcEid := h.srcEid, tag := h.tag, toBit := h.toBit } : RxKey) = s.rxKey →
    h.seq.toNat = (s.rxSeq.toNat + 1) % 4 → (ic = false → s.rxMsg.toNat < 128) →
      ∃ t, t.visible = ({ s with
          rxState := .idle
          rxBuf := []
          result := [.ok (.complete { srcEid := s.rxKey.srcEid, destEid := s.rxDestEid, tag := s.rxKey.tag,
                                      toBit := s.rxKey.toBit, msgType := BitVec.ofNat 7 (s.rxMsg.toNat % 128),
                                      ic := decide (128 ≤ s.rxMsg.toNat), payload := s.rxBuf ++ chunk })] } : State).visible ∧
        (ic = false → exec (.pktLast now h tail) s = .next t) ∧
        (ic = true → exec (.pktLastIc now h tail) s = .next t) ∧
        exec (.rxPacket now (classBytes false true ic h tail)) s = .next t

/-- R171 row 2, R168 (delivery: log 3): a sound packet that is a whole message, with IC and its MIC or without IC, delivered while
`IDLE`, is answered `Complete`, and no context is kept. -/
def Obligations.SinglePacketCompletes : Prop :=
  ∀ (ic : Bool) (now : Time) (h : PktHeader) (chunk : List Byte) (p : Byte) (s : State),
    let tail := chunk ++ (if ic then micWire (mic (msgValue ic h.msgType :: chunk)) else []) ++ [p]
    SoundPacket (classBytes true true ic h tail) → s.rxState = .idle →
      ∃ t, t.visible = ({ s with
          rxBuf := []
          result := [.ok (.complete { srcEid := h.srcEid, destEid := h.destEid, tag := h.tag, toBit := h.toBit,
                                      msgType := h.msgType, ic := ic, payload := chunk })] } : State).visible ∧
        (ic = false → exec (.pktSingle now h tail) s = .next t) ∧
        (ic = true → exec (.pktSingleIc now h tail) s = .next t) ∧
        exec (.rxPacket now (classBytes true true ic h tail)) s = .next t

/-! ### Rules about every operation -/

/-- R220, R160, R238: every operation and every delivered packet answers a next state in every state, except that one whose time
is before `RX_T0` while `ACTIVE` is refused. -/
def Obligations.OnlyBackwardTimeIsRefused : Prop :=
  ∀ (i : Instr) (s : State),
    (TimeOk i s → ∃ t, exec i s = .next t) ∧ (¬ TimeOk i s → exec i s = .refused .timeBackwards)

/-- R57: the eight pure operations leave the state as it was and give the same result when issued again; each of the eleven
others changes some state. -/
def Obligations.SideEffectsAreExactlyListed : Prop :=
  (∀ i : Instr, isPure i = true → ∀ s : State, ∃ r, exec i s = .next { s with result := [r] } ∧
    exec i { s with result := [r] } = .next { s with result := [r] }) ∧
  (∃ s t, exec .pecInit s = .next t ∧ t ≠ { s with result := t.result }) ∧
  (∃ b s t, exec (.pecUpdate b) s = .next t ∧ t ≠ { s with result := t.result }) ∧
  (∃ s t, exec .micInit s = .next t ∧ t ≠ { s with result := t.result }) ∧
  (∃ b s t, exec (.micUpdate b) s = .next t ∧ t ≠ { s with result := t.result }) ∧
  (∃ sel v s t, exec (.cfgWrite sel v) s = .next t ∧ t ≠ { s with result := t.result }) ∧
  (∃ s t, exec .nextTag s = .next t ∧ t ≠ { s with result := t.result }) ∧
  (∃ de mt p ic s t, exec (.buildFragmented de mt p ic) s = .next t ∧ t ≠ { s with result := t.result }) ∧
  (∃ now f s t, exec (.reasm now f) s = .next t ∧ t ≠ { s with result := t.result }) ∧
  (∃ now b s t, exec (.rxPacket now b) s = .next t ∧ t ≠ { s with result := t.result }) ∧
  (∃ now s t, exec (.tick now) s = .next t ∧ t ≠ { s with result := t.result }) ∧
  (∃ s t, exec .reset s = .next t ∧ t ≠ { s with result := t.result })

/-- R20, column "written by": no operation changes a register but those the table lists for it (a delivered packet counts as
`RX_PACKET`, log 3), and none changes what the host has still to issue. -/
def Obligations.RegistersChangeOnlyByTheirWriters : Prop :=
  ∀ (i : Instr) (s t : State), exec i s = .next t → i ≠ .reset →
    (t.pecAcc ≠ s.pecAcc → i = .pecInit ∨ ∃ b, i = .pecUpdate b) ∧
    (t.micAcc ≠ s.micAcc → i = .micInit ∨ ∃ b, i = .micUpdate b) ∧
    (t.cfgDestAddr ≠ s.cfgDestAddr → ∃ v, i = .cfgWrite 0 v) ∧
    (t.cfgSrcAddr ≠ s.cfgSrcAddr → ∃ v, i = .cfgWrite 1 v) ∧
    (t.cfgSrcEid ≠ s.cfgSrcEid → ∃ v, i = .cfgWrite 2 v) ∧
    (t.tagCtr ≠ s.tagCtr → i = .nextTag ∨ ∃ de mt p ic, i = .buildFragmented de mt p ic) ∧
    (t.rxState ≠ s.rxState ∨ t.rxBuf ≠ s.rxBuf → receives i = true ∨ ∃ now, i = .tick now) ∧
    (t.rxKey ≠ s.rxKey ∨ t.rxDestEid ≠ s.rxDestEid ∨ t.rxMsg ≠ s.rxMsg ∨ t.rxSeq ≠ s.rxSeq ∨ t.rxT0 ≠ s.rxT0 →
      receives i = true) ∧
    t.issued = s.issued

/-- R25: the frame operations and the span operations neither read nor write the accumulators. -/
def Obligations.FrameOperationsIgnoreAccumulators : Prop :=
  ∀ (i : Instr) (s : State) (p : Byte) (m : Word32), ignoresAccumulators i = true →
    (∀ t, exec i s = .next t → t.pecAcc = s.pecAcc ∧ t.micAcc = s.micAcc ∧
      exec i { s with pecAcc := p, micAcc := m } = .next { t with pecAcc := p, micAcc := m }) ∧
    (∀ r, exec i s = .refused r → exec i { s with pecAcc := p, micAcc := m } = .refused r)

/-- R36: while `RX_STATE` is `IDLE` no operation reads the five context registers: two states that differ only in them answer
alike and stay alike. -/
def Obligations.IdleContextIsNeverRead : Prop :=
  ∀ (i : Instr) (s t : State), s.visible = t.visible →
    (∀ s', exec i s = .next s' → ∃ t', exec i t = .next t' ∧ t'.visible = s'.visible) ∧
    (∀ r, exec i s = .refused r → exec i t = .refused r)

/-- R210: an operation that returned an error has changed nothing but the reassembly context, and that only for `MissingEom`,
`SequenceGap` and `BadMic`, which leave it unchanged or cleared, and `UnexpectedSom`. -/
def Obligations.ErrorsChangeOnlyContext : Prop :=
  ∀ (i : Instr) (s t : State), exec i s = .next t → (∃ e, .error e ∈ t.result) →
    t.pecAcc = s.pecAcc ∧ t.micAcc = s.micAcc ∧ t.cfgDestAddr = s.cfgDestAddr ∧ t.cfgSrcAddr = s.cfgSrcAddr ∧
    t.cfgSrcEid = s.cfgSrcEid ∧ t.tagCtr = s.tagCtr ∧
    ((∀ e, .error e ∈ t.result → e.code ∉ [ErrCode.missingEom, .sequenceGap, .badMic, .unexpectedSom]) →
      t = { s with result := t.result }) ∧
    (∀ e, t.result = [.error e] → e.code ∈ [ErrCode.missingEom, .sequenceGap, .badMic] →
      t = { s with result := t.result } ∨ t.rxState = .idle ∧ t.rxBuf = [])

/-- R200, R201, R202, R203: the kind of every error code, its number; no code has a kind of the excluded components. -/
def Obligations.ErrorCodesHaveTheirKinds : Prop :=
  [ErrCode.shortPacket, .badPec, .badMic, .badVersion, .wrongCommandCode, .reservedBitsSet, .badByteCount, .unexpectedSom,
      .sequenceGap, .missingEom, .tagMismatch, .usage].map ErrCode.kind =
    [.framing, .integrity, .integrity, .framing, .framing, .framing, .framing, .sequencing, .sequencing, .timeout,
      .sequencing, .usage] ∧
  [ErrCode.shortPacket, .badPec, .badMic, .badVersion, .wrongCommandCode, .reservedBitsSet, .badByteCount, .unexpectedSom,
      .sequenceGap, .missingEom, .tagMismatch, .usage].map ErrCode.number = [1, 2, 3, 4, 5, 6, 7, 8, 9, 10, 11, 12] ∧
  (∀ c : ErrCode, c.kind ≠ .protocol ∧ c.kind ≠ .decode ∧ c.kind ≠ .transport)

/-! ### The step and its invariants -/

/-- The model's step (log 1): when the next input decodes to an instruction, the step is that instruction's `exec` on the state
with the input taken; nothing is added around it. -/
def Obligations.StepRunsDecodedInstruction : Prop :=
  ∀ (input : Input) (rest : List Input) (i : Instr) (s : State), s.issued = input :: rest → decode input = .ok i →
    step s = exec i { s with issued := rest }

/-- R90, R195: an unassigned command code, whatever follows it, raises `Usage` and changes nothing else. -/
def Obligations.UnassignedCodeRaisesUsage : Prop :=
  ∀ (code : Byte) (operands : List Byte) (rest : List Input) (s : State),
    code.toNat ∉ [0x00, 0x01, 0x02, 0x03, 0x10, 0x11, 0x12, 0x13, 0x18, 0x19, 0x1A, 0x1B, 0x20, 0x21, 0x22, 0x30, 0x38, 0x39,
      0x3A] → s.issued = .command (code :: operands) :: rest →
      ∃ info, step s = .next { s with issued := rest, result := [.error { code := .usage, info := info }] }

/-- The model's choice (log 5): with nothing issued the block does nothing; only the host and time act on it (R8). -/
def Obligations.NoInputNoChange : Prop :=
  ∀ s : State, s.issued = [] → step s = .next s

/-- R36, R45, R162 (`clear`): the buffer is empty whenever the context is `IDLE`; every step keeps it so. -/
def Obligations.StepKeepsIdleBufferEmpty : Prop :=
  ∀ s t : State, IdleBufferEmpty s → step s = .next t → IdleBufferEmpty t

/-- R45: the buffer is empty and the context `IDLE` after reset. -/
def Obligations.ResetHasIdleBufferEmpty : Prop :=
  IdleBufferEmpty State.reset ∧ State.reset.rxState = .idle

/-! ### Encoding (30_encoding.md) -/

/-- R90, R80, and the model's operand layout (log 2): decoding what is encoded gives the instruction back, for every well-formed
instruction with every operand at every value. -/
def Obligations.DecodeInvertsEncode : Prop :=
  ∀ i : Instr, i.wellFormed = true → decode (encode i) = .ok i

/-- R80, R94: bytes that the packet-class decoder reads as a packet of a class are exactly that packet's bytes, so no bit is
dropped and no two classes share a packet. -/
def Obligations.EncodeInvertsPacketDecode : Prop :=
  ∀ (now : Time) (b : List Byte) (i : Instr), decodePacketClass now b = some i →
    encode i = .packet now b ∧ i.wellFormed = true

/-- R90, R94: words of the opcode table decode to the instructions they stand for, a packet row's with byte 0 first (operand and
PEC bytes zero: log 18). -/
def Obligations.TableWordsDecode : Prop :=
  decodeTableWord 8 0x00 = some .reset ∧ decodeTableWord 8 0x03 = some .nextTag ∧
  decodeTableWord 8 0x12 = some (.pecUpdate 0) ∧ decodeTableWord 8 0x1B = some .micRead ∧
  decodeTableWord 8 0x22 = some (.parse []) ∧ decodeTableWord 8 0x30 = some (.buildFragmented 0 0 [] false) ∧
  decodeTableWord 8 0x3A = some (.tick 0) ∧ decodeTableWord 8 0x04 = none ∧
  decode (.packet 7 [0x3A, 0x0F, 0x08, 0x21, 0x01, 0x00, 0x09, 0x9D, 0x84, 0x10, 0x11, 0xEC]) =
    .ok (.pktFirstIc 7 { destAddr := 0x3A, byteCount := 0x08, srcAddr := 0x21, destEid := 0x00, srcEid := 0x09, seq := 1,
                         toBit := true, tag := 5, msgType := 0x04 } [0x10, 0x11, 0xEC]) ∧
  decodeTableWord 72 0x3A0F07210100000F04 =
    some (.pktMiddle 0 { destAddr := 0x3A, byteCount := 0x07, srcAddr := 0x21, destEid := 0x00, srcEid := 0x00, seq := 0,
                         toBit := true, tag := 7, msgType := 0x04 } [0x00])

/-- R77: the flags byte is its five fields, each at its place, and reading them gives them back modulo their widths. -/
def Obligations.FlagsByteHoldsItsFields : Prop :=
  ∀ (som eom toBit : Bool) (seq tag : Byte),
    (flagsByte som eom seq toBit tag).toNat = 128 * bitValue som + 64 * bitValue eom + 16 * (seq.toNat % 4) +
      8 * bitValue toBit + tag.toNat % 8 ∧
    flagsSom (flagsByte som eom seq toBit tag) = som ∧ flagsEom (flagsByte som eom seq toBit tag) = eom ∧
    (flagsSeq (flagsByte som eom seq toBit tag)).toNat = seq.toNat % 4 ∧
    flagsTo (flagsByte som eom seq toBit tag) = toBit ∧
    (flagsTag (flagsByte som eom seq toBit tag)).toNat = tag.toNat % 8

/-- R14, R51: the MIC's four bytes are its value's, least significant first, and reading them gives the value back. -/
def Obligations.MicBytesAreLittleEndian : Prop :=
  ∀ v : Word32,
    (le32 v).map BitVec.toNat = [v.toNat % 2 ^ 8, v.toNat / 2 ^ 8 % 2 ^ 8, v.toNat / 2 ^ 16 % 2 ^ 8, v.toNat / 2 ^ 24] ∧
    unLe32 (le32 v) = v
end

