-- ==== Sys2Proof/Laws/Crc.lean ====
section
/-! SUPPORT. The shift registers of the two CRCs: linearity, injectivity, and how a fold splits. -/

namespace Sys2Proof.Machine

theorem repeat_succ_apply {α : Type} (f : α → α) (n : Nat) (a : α) : Nat.repeat f (n + 1) a = f (Nat.repeat f n a) := rfl

/-- Iterating commutes with any operation that each turn respects. -/
theorem repeat_map_two {α : Type} (f : α → α) (op : α → α → α) (h : ∀ a b, f (op a b) = op (f a) (f b)) (n : Nat)
    (a b : α) : Nat.repeat f n (op a b) = op (Nat.repeat f n a) (Nat.repeat f n b) := by
  induction n with
  | zero => rfl
  | succ n ih => simp only [repeat_succ_apply, ih, h]

theorem repeat_injective {α : Type} (f : α → α) (h : Function.Injective f) (n : Nat) :
    Function.Injective (Nat.repeat f n) := by
  induction n with
  | zero => exact fun _ _ e => e
  | succ n ih => exact fun a b e => ih (h e)

theorem repeat_add_apply {α : Type} (f : α → α) (m n : Nat) (a : α) :
    Nat.repeat f (m + n) a = Nat.repeat f m (Nat.repeat f n a) := by
  induction m with
  | zero => simp [Nat.repeat]
  | succ m ih => rw [Nat.succ_add]; simp only [repeat_succ_apply, ih]

/-- A constant that enters twice by exclusive or leaves no trace. -/
theorem xor_xor_cancel {n : Nat} (p q k : BitVec n) : (p ^^^ k) ^^^ (q ^^^ k) = p ^^^ q := by
  rw [BitVec.xor_comm q k, BitVec.xor_assoc, ← BitVec.xor_assoc k k q, BitVec.xor_self, BitVec.zero_xor]

/-! ### PEC -/

@[simp] theorem pecShift_zero : pecShift 0 = 0 := by decide

theorem pecShift_xor (a b : Byte) : pecShift (a ^^^ b) = pecShift a ^^^ pecShift b := by
  unfold pecShift
  rw [BitVec.getLsbD_xor]
  cases a.getLsbD 7 <;> cases b.getLsbD 7 <;> simp only [BitVec.shiftLeft_xor_distrib, xor_xor_cancel, Bool.xor_false,
    Bool.xor_true, Bool.not_false, Bool.not_true, if_true, if_false, Bool.false_eq_true] <;> ac_rfl

theorem pecShift_injective : Function.Injective pecShift := by
  intro a b h
  have hx : pecShift (a ^^^ b) = 0 := by rw [pecShift_xor, h, BitVec.xor_self]; rfl
  have key : ∀ x : Byte, pecShift x = 0 → x = 0 := by decide +kernel
  exact BitVec.xor_eq_zero_iff.mp (key _ hx)

theorem pecStep_def (c b : Byte) : pecStep c b = Nat.repeat pecShift 8 (c ^^^ b) := rfl

theorem pecStep_xor (a b x y : Byte) : pecStep (a ^^^ b) (x ^^^ y) = pecStep a x ^^^ pecStep b y := by
  rw [pecStep_def, pecStep_def, pecStep_def, ← repeat_map_two pecShift (· ^^^ ·) pecShift_xor]
  congr 1; ac_rfl

theorem pecStep_injective_state (b : Byte) : Function.Injective (pecStep · b) := by
  intro c c' h
  have := repeat_injective _ pecShift_injective 8 h
  simpa using this

theorem pecStep_injective_byte (c : Byte) : Function.Injective (pecStep c) := by
  intro b b' h
  have := repeat_injective _ pecShift_injective 8 h
  simpa using this

@[simp] theorem pecFold_nil (c : Byte) : pecFold c [] = c := rfl
@[simp] theorem pecFold_cons (c b : Byte) (s : List Byte) : pecFold c (b :: s) = pecFold (pecStep c b) s := rfl

theorem pecFold_append (c : Byte) (s t : List Byte) : pecFold c (s ++ t) = pecFold (pecFold c s) t := by
  simp [pecFold]

theorem pecFold_injective (s : List Byte) : Function.Injective (pecFold · s) := by
  induction s with
  | nil => exact fun _ _ h => h
  | cons b s ih => exact fun _ _ h => pecStep_injective_state b (ih h)

theorem pecStep_self (c : Byte) : pecStep c c = 0 := by
  rw [pecStep_def, BitVec.xor_self]; decide

/-- A change of one byte, of any kind, changes the PEC. -/
theorem pec_ne_of_one_byte (p t : List Byte) {b b' : Byte} (h : b ≠ b') : pec (p ++ b :: t) ≠ pec (p ++ b' :: t) := by
  unfold pec
  rw [pecFold_append, pecFold_append]
  exact fun e => h (pecStep_injective_byte _ (pecFold_injective t e))

/-! ### MIC -/

@[simp] theorem micShift_zero : micShift 0 = 0 := by decide

theorem micShift_xor (a b : Word32) : micShift (a ^^^ b) = micShift a ^^^ micShift b := by
  unfold micShift
  rw [BitVec.getLsbD_xor]
  cases a.getLsbD 0 <;> cases b.getLsbD 0 <;> simp only [BitVec.ushiftRight_xor_distrib, xor_xor_cancel, Bool.xor_false,
    Bool.xor_true, Bool.not_false, Bool.not_true, if_true, if_false, Bool.false_eq_true] <;> ac_rfl

theorem micShift_injective : Function.Injective micShift := by
  intro a b h
  have hx : micShift (a ^^^ b) = 0 := by rw [micShift_xor, h, BitVec.xor_self]; rfl
  have key : ∀ x : Word32, micShift x = 0 → x = 0 := by
    intro x hx
    unfold micShift at hx
    split at hx
    · have := congrArg (fun v : Word32 => v.getLsbD 31) hx
      simp at this
    · rename_i h0
      have h1 : x.toNat / 2 = 0 := by
        have := congrArg BitVec.toNat hx
        simpa [Nat.shiftRight_eq_div_pow] using this
      have h2 : x.toNat % 2 = 0 := by
        have : x.toNat.testBit 0 = false := by simpa [BitVec.getLsbD] using h0
        simpa [Nat.testBit_zero] using this
      exact BitVec.eq_of_toNat_eq (by simp; omega)
  exact BitVec.xor_eq_zero_iff.mp (key _ hx)

theorem micStep_def (c : Word32) (b : Byte) : micStep c b = Nat.repeat micShift 8 (c ^^^ b.setWidth 32) := rfl

theorem micStep_injective_state (b : Byte) : Function.Injective (micStep · b) := by
  intro c c' h
  have := repeat_injective _ micShift_injective 8 h
  simpa using this

theorem micStep_injective_byte (c : Word32) : Function.Injective (micStep c) := by
  intro b b' h
  have h' : b.setWidth 32 = b'.setWidth 32 := by
    have := repeat_injective _ micShift_injective 8 h
    simpa using this
  have := congrArg (fun v : Word32 => v.setWidth 8) h'
  simpa using this

@[simp] theorem micFold_nil (c : Word32) : micFold c [] = c := rfl
@[simp] theorem micFold_cons (c : Word32) (b : Byte) (s : List Byte) :
    micFold c (b :: s) = micFold (micStep c b) s := rfl

theorem micFold_append (c : Word32) (s t : List Byte) : micFold c (s ++ t) = micFold (micFold c s) t := by
  simp [micFold]

theorem micFold_injective (s : List Byte) : Function.Injective (micFold · s) := by
  induction s with
  | nil => exact fun _ _ h => h
  | cons b s ih => exact fun _ _ h => micStep_injective_state b (ih h)

theorem micFinal_injective : Function.Injective micFinal := by
  intro a b h
  simpa [micFinal] using h

/-- A change of one byte, of any kind, changes the MIC. -/
theorem mic_ne_of_one_byte (p t : List Byte) {b b' : Byte} (h : b ≠ b') : mic (p ++ b :: t) ≠ mic (p ++ b' :: t) := by
  unfold mic
  rw [micFold_append, micFold_append]
  exact fun e => h (micStep_injective_byte _ (micFold_injective t (micFinal_injective e)))

end Sys2Proof.Machine
end

