-- ==== Sys2Proof/Laws/Flags.lean ====
section
/-! SUPPORT. The bit fields of the flags byte, the message-type byte and the MIC's four bytes: what is built is what is read. -/

namespace Sys2Proof.Machine

/-! ### The flags byte (R77) -/

@[simp] theorem flagsSom_flagsByte (som eom : Bool) (seq : Byte) (t : Bool) (tag : Byte) :
    flagsSom (flagsByte som eom seq t tag) = som := by
  cases som <;> cases eom <;> cases t <;> simp [flagsSom, flagsByte, bitByte]

@[simp] theorem flagsEom_flagsByte (som eom : Bool) (seq : Byte) (t : Bool) (tag : Byte) :
    flagsEom (flagsByte som eom seq t tag) = eom := by
  cases som <;> cases eom <;> cases t <;> simp [flagsEom, flagsByte, bitByte]

@[simp] theorem flagsTo_flagsByte (som eom : Bool) (seq : Byte) (t : Bool) (tag : Byte) :
    flagsTo (flagsByte som eom seq t tag) = t := by
  cases som <;> cases eom <;> cases t <;> simp [flagsTo, flagsByte, bitByte]

@[simp] theorem flagsSeq_flagsByte (som eom : Bool) (seq : Byte) (t : Bool) (tag : Byte) :
    flagsSeq (flagsByte som eom seq t tag) = seq.setWidth 2 := by
  apply BitVec.eq_of_getLsbD_eq
  intro i hi
  interval_cases i <;> cases som <;> cases eom <;> cases t <;> simp [flagsSeq, flagsByte, bitByte]

@[simp] theorem flagsTag_flagsByte (som eom : Bool) (seq : Byte) (t : Bool) (tag : Byte) :
    flagsTag (flagsByte som eom seq t tag) = tag.setWidth 3 := by
  apply BitVec.eq_of_getLsbD_eq
  intro i hi
  interval_cases i <;> cases som <;> cases eom <;> cases t <;> simp [flagsTag, flagsByte, bitByte]

/-- Only the fields of `seq` and `tag` count (R91). -/
theorem flagsByte_masks (som eom : Bool) (seq : Byte) (t : Bool) (tag : Byte) :
    flagsByte som eom ((seq.setWidth 2).setWidth 8) t ((tag.setWidth 3).setWidth 8) = flagsByte som eom seq t tag := by
  apply BitVec.eq_of_getLsbD_eq
  intro i hi
  interval_cases i <;> cases som <;> cases eom <;> cases t <;> simp [flagsByte, bitByte]

/-- A flags byte is its fields (R77: "every bit is assigned"). -/
@[simp] theorem flagsByte_fields (fl : Byte) :
    flagsByte (flagsSom fl) (flagsEom fl) ((flagsSeq fl).setWidth 8) (flagsTo fl) ((flagsTag fl).setWidth 8) = fl := by
  have key : ∀ fl : Byte, flagsByte (flagsSom fl) (flagsEom fl) ((flagsSeq fl).setWidth 8) (flagsTo fl)
      ((flagsTag fl).setWidth 8) = fl := by decide +kernel
  exact key fl

/-! ### The message-type byte (R78) -/

@[simp] theorem msgByteIc_msgByte (ic : Bool) (mt : BitVec 7) : msgByteIc (msgByte ic mt) = ic := by
  cases ic <;> simp [msgByteIc, msgByte, bitByte]

@[simp] theorem msgByteType_msgByte (ic : Bool) (mt : BitVec 7) : msgByteType (msgByte ic mt) = mt := by
  apply BitVec.eq_of_getLsbD_eq
  intro i hi
  interval_cases i <;> cases ic <;> simp [msgByteType, msgByte, bitByte]

@[simp] theorem msgByte_fields (mb : Byte) : msgByte (msgByteIc mb) (msgByteType mb) = mb := by
  have key : ∀ mb : Byte, msgByte (msgByteIc mb) (msgByteType mb) = mb := by decide +kernel
  exact key mb

/-! ### The version byte (R75) -/

@[simp] theorem versionReserved_versionByte : versionReserved versionByte = 0 := by decide
@[simp] theorem versionField_versionByte : versionField versionByte = Config.hdrVer := by decide

/-- The two tests of byte 4 leave the one byte the builders write. -/
theorem version_tests_iff (b : Byte) : (versionReserved b = 0 ∧ versionField b = Config.hdrVer) ↔ b = versionByte := by
  have key : ∀ b : Byte, (versionReserved b = 0 ∧ versionField b = Config.hdrVer) ↔ b = versionByte := by decide +kernel
  exact key b

/-! ### The MIC's bytes (R51) -/

@[simp] theorem le32_length (v : Word32) : (le32 v).length = 4 := rfl

@[simp] theorem unLe32_le32 (v : Word32) : unLe32 (le32 v) = v := by
  apply BitVec.eq_of_getLsbD_eq
  intro i hi
  simp only [unLe32, le32, List.getD_cons_zero, List.getD_cons_succ]
  simp only [BitVec.getLsbD_append, BitVec.getLsbD_extractLsb']
  interval_cases i <;> simp

theorem le32_unLe32 {b : List Byte} (h : b.length = 4) : le32 (unLe32 b) = b := by
  match b, h with
  | [b0, b1, b2, b3], _ =>
    simp only [unLe32, le32, List.getD_cons_zero, List.getD_cons_succ]
    congr 1
    · apply BitVec.eq_of_getLsbD_eq
      intro i hi
      simp only [BitVec.getLsbD_append, BitVec.getLsbD_extractLsb']
      interval_cases i <;> simp
    congr 1
    · apply BitVec.eq_of_getLsbD_eq
      intro i hi
      simp only [BitVec.getLsbD_append, BitVec.getLsbD_extractLsb']
      interval_cases i <;> simp
    congr 1
    · apply BitVec.eq_of_getLsbD_eq
      intro i hi
      simp only [BitVec.getLsbD_append, BitVec.getLsbD_extractLsb']
      interval_cases i <;> simp
    congr 1
    · apply BitVec.eq_of_getLsbD_eq
      intro i hi
      simp only [BitVec.getLsbD_append, BitVec.getLsbD_extractLsb']
      interval_cases i <;> simp

end Sys2Proof.Machine
end

