-- ==== Sys2Proof/Laws/Decode.lean ====
section
/-! SUPPORT. Each operand that is written is the operand that is read, with whatever follows it left over. -/

namespace Sys2Proof

open Machine

@[simp] theorem takeByte_cons (b : Byte) (r : List Byte) : takeByte (b :: r) = some (b, r) := rfl

@[simp] theorem takeBits_cons {n : Nat} (h : n ≤ 8) (v : BitVec n) (r : List Byte) :
    takeBits n (v.setWidth 8 :: r) = some (v, r) := by
  have hlt : v.toNat < 2 ^ 8 := lt_of_lt_of_le v.isLt (Nat.pow_le_pow_right (by norm_num) h)
  have ht : (v.setWidth 8).toNat = v.toNat := by
    rw [BitVec.toNat_setWidth]; exact Nat.mod_eq_of_lt hlt
  have hv : (v.setWidth 8).setWidth n = v := by
    apply BitVec.eq_of_toNat_eq
    rw [BitVec.toNat_setWidth, ht]; exact Nat.mod_eq_of_lt v.isLt
  rw [takeBits, if_pos (by rw [ht]; exact v.isLt), hv]

@[simp] theorem takeBool_putBool (b : Bool) (r : List Byte) : takeBool (putBool b ++ r) = some (b, r) := by
  cases b <;> rfl

theorem takeNat_natGroups {fuel n : Nat} (h : n ≤ fuel) (r : List Byte) : takeNat (natGroups fuel n ++ r) = some (n, r) := by
  induction fuel generalizing n with
  | zero =>
    obtain rfl : n = 0 := by omega
    rfl
  | succ fuel ih =>
    unfold natGroups
    split
    · rename_i hn
      have ht : (BitVec.ofNat 8 n).toNat = n := by rw [BitVec.toNat_ofNat]; exact Nat.mod_eq_of_lt (by omega)
      rw [List.cons_append, List.nil_append, takeNat, ht, if_pos hn]
    · rename_i hn
      have ht : (BitVec.ofNat 8 (128 + n % 128)).toNat = 128 + n % 128 := by
        rw [BitVec.toNat_ofNat]; exact Nat.mod_eq_of_lt (by omega)
      rw [List.cons_append, takeNat, ht, if_neg (by omega), ih (by omega)]
      simp only
      rw [show 128 + n % 128 - 128 + 128 * (n / 128) = n by omega]

@[simp] theorem takeNat_putNat (n : Nat) (r : List Byte) : takeNat (putNat n ++ r) = some (n, r) :=
  takeNat_natGroups le_rfl r

@[simp] theorem takeSeq_putSeq (b r : List Byte) : takeSeq (putSeq b ++ r) = some (b, r) := by
  simp [takeSeq, putSeq, List.append_assoc]

@[simp] theorem takeWordOpt_putWordOpt (v : Option Word32) (r : List Byte) :
    takeWordOpt (putWordOpt v ++ r) = some (v, r) := by
  cases v with
  | none => rfl
  | some v =>
    rw [takeWordOpt, putWordOpt, List.append_assoc, takeBool_putBool]
    simp only
    rw [if_pos (by simp), List.take_left' (by simp), List.drop_left' (by simp), unLe32_le32]

@[simp] theorem takeBoolOpt_putBoolOpt (v : Option Bool) (r : List Byte) :
    takeBoolOpt (putBoolOpt v ++ r) = some (v, r) := by
  cases v with
  | none => rfl
  | some v =>
    rw [takeBoolOpt, putBoolOpt, List.append_assoc, takeBool_putBool]
    simp only
    rw [takeBool_putBool]

@[simp] theorem tableBytes_length (n w : Nat) : (tableBytes n w).length = n := by
  induction n with
  | zero => rfl
  | succ n ih => simp [tableBytes, ih]

/-- One operand read, the reader goes on with the rest. -/
theorem bind_taken {α β : Type} {x : Option (α × List Byte)} {a : α} {r : List Byte} (h : x = some (a, r))
    {k : α × List Byte → Option β} : (x >>= k) = k (a, r) := by
  rw [h]; rfl

@[simp] theorem takeFrame_putFrame (f : ParsedFrame) (r : List Byte) : takeFrame (putFrame f ++ r) = some (f, r) := by
  simp only [putFrame, List.append_assoc, List.cons_append, List.nil_append]
  refine (bind_taken (takeByte_cons _ _)).trans ?_
  refine (bind_taken (takeByte_cons _ _)).trans ?_
  refine (bind_taken (takeByte_cons _ _)).trans ?_
  refine (bind_taken (takeBits_cons (n := 4) (by decide) _ _)).trans ?_
  refine (bind_taken (takeByte_cons _ _)).trans ?_
  refine (bind_taken (takeByte_cons _ _)).trans ?_
  refine (bind_taken (takeBool_putBool _ _)).trans ?_
  refine (bind_taken (takeBool_putBool _ _)).trans ?_
  refine (bind_taken (takeBool_putBool _ _)).trans ?_
  refine (bind_taken (takeBits_cons (n := 2) (by decide) _ _)).trans ?_
  refine (bind_taken (takeBits_cons (n := 3) (by decide) _ _)).trans ?_
  refine (bind_taken (takeBool_putBool _ _)).trans ?_
  refine (bind_taken (takeBits_cons (n := 7) (by decide) _ _)).trans ?_
  refine (bind_taken (takeSeq_putSeq _ _)).trans ?_
  refine (bind_taken (takeWordOpt_putWordOpt _ _)).trans ?_
  refine (bind_taken (takeBoolOpt_putBoolOpt _ _)).trans ?_
  refine (bind_taken (takeBool_putBool _ _)).trans ?_
  rfl

end Sys2Proof
end

