-- ==== Sys2Proof/Laws/Framer.lean ====
section
/-! SUPPORT. What the framer's functions can do, said once: the shape of a built packet, and what `PARSE` accepts. -/

namespace Sys2Proof.Machine

/-- The MIC field's bytes: four of them, or none (R81). -/
def micBytes (micOpt : Option Word32) : List Byte :=
  match micOpt with
  | some m => le32 m
  | none => []

@[simp] theorem micBytes_none : micBytes none = [] := rfl
@[simp] theorem micBytes_some (m : Word32) : micBytes (some m) = le32 m := rfl

/-- Bytes 0 to 8 of a built packet (R70). -/
def packetHead (destAddr count srcAddr destEid srcEid flags mb : Byte) : List Byte :=
  [destAddr, Config.cmdCode, count, srcAddr, versionByte, destEid, srcEid, flags, mb]

/-- A built packet is its nine header bytes, the chunk, the MIC field, and the PEC of all of that (R70, R120). -/
theorem assemble_eq (destAddr srcAddr destEid srcEid : Byte) (som eom : Bool) (seq : Byte) (toBit : Bool) (tag mb : Byte)
    (chunk : List Byte) (micOpt : Option Word32) :
    assemble destAddr srcAddr destEid srcEid som eom seq toBit tag mb chunk micOpt =
      (packetHead destAddr (BitVec.ofNat 8 (6 + chunk.length + (micBytes micOpt).length)) srcAddr destEid srcEid
          (flagsByte som eom seq toBit tag) mb ++ (chunk ++ micBytes micOpt)) ++
        [pec (packetHead destAddr (BitVec.ofNat 8 (6 + chunk.length + (micBytes micOpt).length)) srcAddr destEid srcEid
          (flagsByte som eom seq toBit tag) mb ++ (chunk ++ micBytes micOpt))] := by
  have hn : 5 + (mb :: (chunk ++ micBytes micOpt)).length = 6 + chunk.length + (micBytes micOpt).length := by
    simp; omega
  rw [← hn]
  cases micOpt <;> rfl

@[simp] theorem assemble_length (destAddr srcAddr destEid srcEid : Byte) (som eom : Bool) (seq : Byte) (toBit : Bool)
    (tag mb : Byte) (chunk : List Byte) (micOpt : Option Word32) :
    (assemble destAddr srcAddr destEid srcEid som eom seq toBit tag mb chunk micOpt).length =
      10 + chunk.length + (micBytes micOpt).length := by
  rw [assemble_eq]; simp [packetHead]; omega

/-- A packet of at least 10 bytes is bytes 0 to 8, a middle part, and a last byte. -/
theorem packet_parts {b : List Byte} (h : 10 ≤ b.length) :
    ∃ b0 b1 b2 b3 b4 b5 b6 b7 b8 p, ∃ mid : List Byte,
      b = b0 :: b1 :: b2 :: b3 :: b4 :: b5 :: b6 :: b7 :: b8 :: (mid ++ [p]) := by
  match b, h with
  | b0 :: b1 :: b2 :: b3 :: b4 :: b5 :: b6 :: b7 :: b8 :: x :: r, _ =>
    obtain ⟨mid, p, e⟩ := List.eq_nil_or_concat (x :: r) |>.resolve_left (by simp)
    exact ⟨b0, b1, b2, b3, b4, b5, b6, b7, b8, p, mid, by rw [e, List.concat_eq_append]⟩

section
variable (b0 b1 b2 b3 b4 b5 b6 b7 b8 p : Byte) (mid : List Byte)

/-- The fields of a packet given by its parts. -/
def partsFrame (payload : List Byte) (micField : Option Word32) (micOk : Option Bool) : ParsedFrame where
  destAddr := b0
  byteCount := b2
  srcAddr := b3
  version := versionField b4
  destEid := b5
  srcEid := b6
  som := flagsSom b7
  eom := flagsEom b7
  toBit := flagsTo b7
  seq := flagsSeq b7
  tag := flagsTag b7
  ic := msgByteIc b8
  msgType := msgByteType b8
  payload := payload
  mic := micField
  micOk := micOk
  pecOk := true

/-- Lines 9 to 20 of `PARSE` on a packet given by its parts (R136, R140). -/
def partsBody : Except Err ParsedFrame :=
  if msgByteIc b8 && flagsEom b7 then
    if mid.length < 4 then .error (.plain .shortPacket)
    else
      if flagsSom b7 then
        if messageMic b8 (mid.take (mid.length - 4)) ≠ unLe32 (mid.drop (mid.length - 4)) then
          .error (.at .badMic (mid.length + 5))
        else .ok (partsFrame b0 b2 b3 b4 b5 b6 b7 b8 (mid.take (mid.length - 4))
          (some (unLe32 (mid.drop (mid.length - 4)))) (some true))
      else .ok (partsFrame b0 b2 b3 b4 b5 b6 b7 b8 (mid.take (mid.length - 4))
        (some (unLe32 (mid.drop (mid.length - 4)))) none)
  else .ok (partsFrame b0 b2 b3 b4 b5 b6 b7 b8 mid none none)

theorem parseBody_parts :
    parseBody (b0 :: b1 :: b2 :: b3 :: b4 :: b5 :: b6 :: b7 :: b8 :: (mid ++ [p])) =
      partsBody b0 b2 b3 b4 b5 b6 b7 b8 mid := by
  simp [parseBody, partsBody, byteAt, frameOf, partsFrame, Err.at]

/-- `PARSE` on a packet given by its parts (R136): every check, in order. -/
theorem parsePacket_parts :
    parsePacket (b0 :: b1 :: b2 :: b3 :: b4 :: b5 :: b6 :: b7 :: b8 :: (mid ++ [p])) =
      if 246 < mid.length then .error (.badOperand .packet)
      else if b1 ≠ Config.cmdCode then .error (.at .wrongCommandCode 1)
      else if mid.length + 10 < b2.toNat + 4 then .error (.at .shortPacket 2)
      else if b2.toNat + 4 < mid.length + 10 then .error (.at .badByteCount 2)
      else if versionReserved b4 ≠ 0 then .error (.at .reservedBitsSet 4)
      else if versionField b4 ≠ Config.hdrVer then .error (.at .badVersion 4)
      else if pec (b0 :: b1 :: b2 :: b3 :: b4 :: b5 :: b6 :: b7 :: b8 :: mid) ≠ p then
        .error (.at .badPec (mid.length + 9))
      else partsBody b0 b2 b3 b4 b5 b6 b7 b8 mid := by
  rw [← parseBody_parts b0 b1 b2 b3 b4 b5 b6 b7 b8 p mid]
  have hl : (b0 :: b1 :: b2 :: b3 :: b4 :: b5 :: b6 :: b7 :: b8 :: (mid ++ [p])).length = mid.length + 10 := by simp
  have hd : (b0 :: b1 :: b2 :: b3 :: b4 :: b5 :: b6 :: b7 :: b8 :: (mid ++ [p])).dropLast =
      b0 :: b1 :: b2 :: b3 :: b4 :: b5 :: b6 :: b7 :: b8 :: mid := by
    rw [show b0 :: b1 :: b2 :: b3 :: b4 :: b5 :: b6 :: b7 :: b8 :: (mid ++ [p]) =
      (b0 :: b1 :: b2 :: b3 :: b4 :: b5 :: b6 :: b7 :: b8 :: mid) ++ [p] from rfl, List.dropLast_concat]
  have hp : byteAt (b0 :: b1 :: b2 :: b3 :: b4 :: b5 :: b6 :: b7 :: b8 :: (mid ++ [p])) (mid.length + 9) = p := by
    simp [byteAt, List.getD]
  unfold parsePacket
  rw [hl, hd, show mid.length + 10 - 1 = mid.length + 9 from rfl, hp]
  simp only [Config.maxRxPacket, Config.minFrame, show (256 < mid.length + 10) = (246 < mid.length) by
    apply propext; omega, show ¬ (mid.length + 10 < 10) by omega, if_false]
  rfl

end

/-- Everything `PARSE` accepts (R84, R136): the checks have passed and the rest of the packet gives the frame. -/
theorem parsePacket_ok {b : List Byte} {f : ParsedFrame} (h : parsePacket b = .ok f) :
    ∃ b0 b2 b3 b5 b6 b7 b8, ∃ mid : List Byte,
      b = packetHead b0 b2 b3 b5 b6 b7 b8 ++ mid ++ [pec (packetHead b0 b2 b3 b5 b6 b7 b8 ++ mid)] ∧
      mid.length ≤ 246 ∧ b2.toNat = mid.length + 6 ∧ partsBody b0 b2 b3 versionByte b5 b6 b7 b8 mid = .ok f := by
  have hl : 10 ≤ b.length := by
    by_contra hlt
    unfold parsePacket at h
    rw [if_neg (show ¬ Config.maxRxPacket < b.length by simp only [Config.maxRxPacket]; omega),
      if_pos (show b.length < Config.minFrame by simp only [Config.minFrame]; omega)] at h
    cases h
  obtain ⟨b0, b1, b2, b3, b4, b5, b6, b7, b8, p, mid, rfl⟩ := packet_parts hl
  rw [parsePacket_parts] at h
  split at h; · cases h
  split at h; · cases h
  split at h; · cases h
  split at h; · cases h
  split at h; · cases h
  split at h; · cases h
  split at h; · cases h
  simp only [ne_eq, not_not, not_lt] at *
  obtain rfl : b4 = versionByte := (version_tests_iff b4).mp ⟨by assumption, by assumption⟩
  subst_vars
  refine ⟨b0, b2, b3, b5, b6, b7, b8, mid, ?_, by assumption, by omega, h⟩
  simp [packetHead]

/-- A packet `assemble` builds passes every check of `PARSE` up to the PEC (R139, R143). -/
theorem parsePacket_assemble (destAddr srcAddr destEid srcEid : Byte) (som eom : Bool) (seq : Byte) (toBit : Bool)
    (tag mb : Byte) {chunk : List Byte} (micOpt : Option Word32) (h : chunk.length ≤ 120) :
    parsePacket (assemble destAddr srcAddr destEid srcEid som eom seq toBit tag mb chunk micOpt) =
      partsBody destAddr (BitVec.ofNat 8 (6 + chunk.length + (micBytes micOpt).length)) srcAddr versionByte destEid srcEid
        (flagsByte som eom seq toBit tag) mb (chunk ++ micBytes micOpt) := by
  have hm : (micBytes micOpt).length ≤ 4 := by cases micOpt <;> simp
  have hc : (BitVec.ofNat 8 (6 + chunk.length + (micBytes micOpt).length)).toNat =
      6 + chunk.length + (micBytes micOpt).length := by
    rw [BitVec.toNat_ofNat]; exact Nat.mod_eq_of_lt (by omega)
  rw [assemble_eq]
  simp only [packetHead, List.cons_append, List.nil_append]
  rw [parsePacket_parts]
  rw [if_neg (by simp; omega), if_neg (by simp), if_neg (by rw [hc]; simp; omega), if_neg (by rw [hc]; simp; omega),
    if_neg (by simp), if_neg (by simp), if_neg (by simp)]

/-- `BUILD_SINGLE` answers a packet exactly when the payload fits (R122). -/
theorem buildSingle_ok {payload : List Byte} (h : payload.length ≤ 120) (destAddr srcAddr destEid srcEid tag : Byte)
    (mt : BitVec 7) (ic : Bool) :
    buildSingle destAddr srcAddr destEid srcEid tag mt payload ic =
      .ok (assemble destAddr srcAddr destEid srcEid true true 0 true tag (msgByte ic mt) payload
        (if ic then some (messageMic (msgByte ic mt) payload) else none)) := by
  unfold buildSingle
  rw [if_neg (by simp only [Config.maxTxPayload]; omega)]

theorem buildSingle_too_long {payload : List Byte} (h : 120 < payload.length) (destAddr srcAddr destEid srcEid tag : Byte)
    (mt : BitVec 7) (ic : Bool) :
    buildSingle destAddr srcAddr destEid srcEid tag mt payload ic = .error (.badOperand .payload) := by
  unfold buildSingle
  rw [if_pos (by simpa only [Config.maxTxPayload] using h)]

/-- `BUILD_FRAGMENT` with a chunk that fits answers as the MIC field decides (R126). -/
theorem buildFragment_of_fits {chunk : List Byte} (h : chunk.length ≤ 120) (destAddr srcAddr destEid srcEid : Byte)
    (mt : BitVec 7) (ic som eom : Bool) (seq tag : Byte) (micIn : Option Word32) :
    buildFragment destAddr srcAddr destEid srcEid mt ic som eom seq tag chunk micIn =
      (fragmentMic ic som eom (msgByte ic mt) chunk micIn).map fun micOpt =>
        assemble destAddr srcAddr destEid srcEid som eom seq true tag (msgByte ic mt) chunk micOpt := by
  unfold buildFragment
  rw [if_neg (by simp only [Config.maxTxPayload]; omega)]
  simp only
  cases fragmentMic ic som eom (msgByte ic mt) chunk micIn <;> rfl

theorem buildFragment_too_long {chunk : List Byte} (h : 120 < chunk.length) (destAddr srcAddr destEid srcEid : Byte)
    (mt : BitVec 7) (ic som eom : Bool) (seq tag : Byte) (micIn : Option Word32) :
    buildFragment destAddr srcAddr destEid srcEid mt ic som eom seq tag chunk micIn = .error (.badOperand .chunk) := by
  unfold buildFragment
  rw [if_pos (by simpa only [Config.maxTxPayload] using h)]

end Sys2Proof.Machine
end

