-- ==== Sys2Proof/Laws/Fragmenter.lean ====
section
/-! SUPPORT. What the fragmenter can do, said once: the count, the chunks, and that no fragment can raise (R150, R152). -/

namespace Sys2Proof.Machine

theorem fragmentCount_eq (n : Nat) : fragmentCount n = max 1 ((n + 119) / 120) := rfl

theorem fragmentCount_pos (n : Nat) : 0 < fragmentCount n := by
  rw [fragmentCount_eq]; omega

theorem chunkOf_eq (payload : List Byte) (i : Nat) : chunkOf payload i = (payload.drop (120 * i)).take 120 := rfl

theorem chunkOf_length (payload : List Byte) (i : Nat) :
    (chunkOf payload i).length = min 120 (payload.length - 120 * i) := by
  simp [chunkOf_eq]

theorem chunkOf_length_le (payload : List Byte) (i : Nat) : (chunkOf payload i).length ≤ 120 := by
  rw [chunkOf_length]; omega

/-- A payload of one fragment is its chunk 0. -/
theorem chunkOf_zero_of_single {payload : List Byte} (h : fragmentCount payload.length = 1) : chunkOf payload 0 = payload := by
  rw [fragmentCount_eq] at h
  rw [chunkOf_eq, Nat.mul_zero, List.drop_zero, List.take_of_length_le (by omega)]

/-- The first `j` chunks are the first `120·j` bytes. -/
theorem chunks_flatten (payload : List Byte) (j : Nat) :
    ((List.range j).map (chunkOf payload)).flatten = payload.take (120 * j) := by
  induction j with
  | zero => simp
  | succ j ih =>
    rw [List.range_succ, List.map_append, List.flatten_append, ih]
    simp only [List.map_cons, List.map_nil, List.flatten_cons, List.flatten_nil, List.append_nil]
    rw [chunkOf_eq, show 120 * (j + 1) = 120 * j + 120 by omega, List.take_add]

/-- All the chunks together are the payload (R152, R155). -/
theorem chunks_rejoin (payload : List Byte) :
    ((List.range (fragmentCount payload.length)).map (chunkOf payload)).flatten = payload := by
  rw [chunks_flatten]
  apply List.take_of_length_le
  rw [fragmentCount_eq]; omega

/-- The MIC a message carries (R150): over its message-type byte and the whole payload, if it declares IC. -/
def wholeMic (ic : Bool) (mt : BitVec 7) (payload : List Byte) : Option Word32 :=
  if ic then some (messageMic (msgByte ic mt) payload) else none

/-- The packet of fragment `i` of `k` (R150, R153, R154). -/
def fragmentPacket (destAddr srcAddr srcEid : Byte) (tag : BitVec 3) (destEid : Byte) (mt : BitVec 7)
    (payload : List Byte) (ic : Bool) (k i : Nat) : List Byte :=
  assemble destAddr srcAddr destEid srcEid (decide (i = 0)) (decide (i = k - 1)) ((BitVec.ofNat 2 i).setWidth 8) true
    (tag.setWidth 8) (msgByte ic mt) (chunkOf payload i) (if i = k - 1 then wholeMic ic mt payload else none)

theorem fragmentAt_ok (destAddr srcAddr srcEid : Byte) (tag : BitVec 3) (destEid : Byte) (mt : BitVec 7)
    (payload : List Byte) (ic : Bool) (i : Nat) :
    fragmentAt destAddr srcAddr srcEid tag destEid mt payload ic (wholeMic ic mt payload) (fragmentCount payload.length) i =
      .ok { index := i, seq := BitVec.ofNat 2 i, som := decide (i = 0)
            eom := decide (i = fragmentCount payload.length - 1)
            packet := fragmentPacket destAddr srcAddr srcEid tag destEid mt payload ic (fragmentCount payload.length) i } := by
  unfold fragmentAt
  simp only
  rw [buildFragment_of_fits (chunkOf_length_le payload i)]
  have hm : fragmentMic ic (decide (i = 0)) (decide (i = fragmentCount payload.length - 1)) (msgByte ic mt)
      (chunkOf payload i) (wholeMic ic mt payload) =
      .ok (if i = fragmentCount payload.length - 1 then wholeMic ic mt payload else none) := by
    unfold fragmentMic wholeMic
    cases ic
    · simp
    · by_cases he : i = fragmentCount payload.length - 1
      · by_cases hs : i = 0
        · have hk : fragmentCount payload.length = 1 := by
            have := fragmentCount_pos payload.length; omega
          rw [hs] at he ⊢
          simp [he.symm, chunkOf_zero_of_single hk]
        · simp [he.symm, hs]
      · simp [he]
  rw [hm]
  rfl

theorem mapM_ok {α β ε : Type} {f : α → Except ε β} {g : α → β} (h : ∀ a, f a = .ok (g a)) (l : List α) :
    l.mapM f = .ok (l.map g) := by
  induction l with
  | nil => rfl
  | cons a l ih => rw [List.mapM_cons, h, ih]; rfl

/-- `fragment` is total (R150): `BUILD_FRAGMENT` cannot raise inside it. -/
theorem fragmentMessage_ok (destAddr srcAddr srcEid : Byte) (tag : BitVec 3) (destEid : Byte) (mt : BitVec 7)
    (payload : List Byte) (ic : Bool) :
    fragmentMessage destAddr srcAddr srcEid tag destEid mt payload ic =
      .ok { fragments := (List.range (fragmentCount payload.length)).map fun i =>
              { index := i, seq := BitVec.ofNat 2 i, som := decide (i = 0)
                eom := decide (i = fragmentCount payload.length - 1)
                packet := fragmentPacket destAddr srcAddr srcEid tag destEid mt payload ic
                  (fragmentCount payload.length) i }
            totalLen := payload.length } := by
  unfold fragmentMessage
  simp only
  rw [← wholeMic]
  rw [mapM_ok (fun i => fragmentAt_ok destAddr srcAddr srcEid tag destEid mt payload ic i)]

end Sys2Proof.Machine
end

