-- ==== Sys2Proof/Laws/PerInstr.lean ====
section
/-! SUPPORT. Per-instruction facts. Family `EncodeMatchesTable`: the words of every instruction match its row of
`opcode_table.json` (R94): an operation's first byte is its command code; the first nine bytes of a packet, under the row's
mask, are the row's match. -/

namespace Sys2Proof.Laws.EncodeMatchesTable

open Sys2Proof Machine

/-- The mask of a packet row, byte 0 first. -/
def packetMask : List Byte := [0x00, 0xFF, 0x00, 0x00, 0xFF, 0x00, 0x00, 0xC0, 0x80]

/-- The match of a packet row whose flags and message-type bytes match `fl` and `mb`, byte 0 first. -/
def packetMatch (fl mb : Byte) : List Byte := [0x00, 0x0F, 0x00, 0x00, 0x01, 0x00, 0x00, fl, mb]

/-- The input is an operation whose command code is `code`. -/
def IsCommand (code : Byte) : Input → Prop
  | .command bytes => bytes.head? = some code
  | .packet _ _ => False

/-- The input is a packet whose first nine bytes match. -/
def IsPacket (fl mb : Byte) : Input → Prop
  | .command _ => False
  | .packet _ bytes => List.zipWith (· &&& ·) (bytes.take 9) packetMask = packetMatch fl mb

/-- The encoded instruction matches its row of the opcode table. -/
def Statement : Instr → Prop
  | .reset => IsCommand 0x00 (encode .reset)
  | .cfgWrite sel value => IsCommand 0x01 (encode (.cfgWrite sel value))
  | .cfgRead sel => IsCommand 0x02 (encode (.cfgRead sel))
  | .nextTag => IsCommand 0x03 (encode .nextTag)
  | .pecCalc span => IsCommand 0x10 (encode (.pecCalc span))
  | .pecInit => IsCommand 0x11 (encode .pecInit)
  | .pecUpdate byte => IsCommand 0x12 (encode (.pecUpdate byte))
  | .pecRead => IsCommand 0x13 (encode .pecRead)
  | .micCalc span => IsCommand 0x18 (encode (.micCalc span))
  | .micInit => IsCommand 0x19 (encode .micInit)
  | .micUpdate byte => IsCommand 0x1A (encode (.micUpdate byte))
  | .micRead => IsCommand 0x1B (encode .micRead)
  | .buildSingle da sa de se tag mt payload ic => IsCommand 0x20 (encode (.buildSingle da sa de se tag mt payload ic))
  | .buildFragment da sa de se mt ic som eom seq tag chunk micIn =>
    IsCommand 0x21 (encode (.buildFragment da sa de se mt ic som eom seq tag chunk micIn))
  | .parse packet => IsCommand 0x22 (encode (.parse packet))
  | .buildFragmented de mt payload ic => IsCommand 0x30 (encode (.buildFragmented de mt payload ic))
  | .reasm now f => IsCommand 0x38 (encode (.reasm now f))
  | .rxPacket now packet => IsCommand 0x39 (encode (.rxPacket now packet))
  | .tick now => IsCommand 0x3A (encode (.tick now))
  | .pktSingle now h tail => IsPacket 0xC0 0x00 (encode (.pktSingle now h tail))
  | .pktSingleIc now h tail => IsPacket 0xC0 0x80 (encode (.pktSingleIc now h tail))
  | .pktFirst now h tail => IsPacket 0x80 0x00 (encode (.pktFirst now h tail))
  | .pktFirstIc now h tail => IsPacket 0x80 0x80 (encode (.pktFirstIc now h tail))
  | .pktMiddle now h tail => IsPacket 0x00 0x00 (encode (.pktMiddle now h tail))
  | .pktMiddleIc now h tail => IsPacket 0x00 0x80 (encode (.pktMiddleIc now h tail))
  | .pktLast now h tail => IsPacket 0x40 0x00 (encode (.pktLast now h tail))
  | .pktLastIc now h tail => IsPacket 0x40 0x80 (encode (.pktLastIc now h tail))

/-- Under the mask, the flags byte keeps SOM and EOM alone. -/
theorem flags_and_mask (som eom : Bool) (seq : Byte) (t : Bool) (tag : Byte) :
    flagsByte som eom seq t tag &&& 0xC0 = (bitByte som <<< 7) ||| (bitByte eom <<< 6) := by
  apply BitVec.eq_of_getLsbD_eq
  intro i hi
  interval_cases i <;> cases som <;> cases eom <;> cases t <;> simp [flagsByte, bitByte]

/-- Under the mask, the message-type byte keeps IC alone. -/
theorem msg_and_mask (ic : Bool) (mt : BitVec 7) : msgByte ic mt &&& 0x80 = bitByte ic <<< 7 := by
  apply BitVec.eq_of_getLsbD_eq
  intro i hi
  interval_cases i <;> cases ic <;> simp [msgByte, bitByte]

/-- The bytes of a packet class match its row. -/
theorem packetBytes_match (som eom ic : Bool) (h : PktHeader) (tail : List Byte) :
    List.zipWith (· &&& ·) ((packetBytes som eom ic h tail).take 9) packetMask =
      packetMatch ((bitByte som <<< 7) ||| (bitByte eom <<< 6)) (bitByte ic <<< 7) := by
  simp only [packetBytes, packetMask, packetMatch, List.cons_append, List.nil_append, List.take_succ_cons, List.take_zero,
    List.zipWith_cons_cons, List.zipWith_nil_right]
  simp [Config.cmdCode, versionByte, Config.hdrVer]
  exact ⟨flags_and_mask .., msg_and_mask ..⟩

theorem reset : Statement .reset := rfl
theorem cfgWrite (sel : BitVec 2) (value : Byte) : Statement (.cfgWrite sel value) := rfl
theorem cfgRead (sel : BitVec 2) : Statement (.cfgRead sel) := rfl
theorem nextTag : Statement .nextTag := rfl
theorem pecCalc (span : List Byte) : Statement (.pecCalc span) := rfl
theorem pecInit : Statement .pecInit := rfl
theorem pecUpdate (byte : Byte) : Statement (.pecUpdate byte) := rfl
theorem pecRead : Statement .pecRead := rfl
theorem micCalc (span : List Byte) : Statement (.micCalc span) := rfl
theorem micInit : Statement .micInit := rfl
theorem micUpdate (byte : Byte) : Statement (.micUpdate byte) := rfl
theorem micRead : Statement .micRead := rfl
theorem buildSingle (da sa de se tag : Byte) (mt : BitVec 7) (payload : List Byte) (ic : Bool) :
    Statement (.buildSingle da sa de se tag mt payload ic) := rfl
theorem buildFragment (da sa de se : Byte) (mt : BitVec 7) (ic som eom : Bool) (seq tag : Byte) (chunk : List Byte)
    (micIn : Option Word32) : Statement (.buildFragment da sa de se mt ic som eom seq tag chunk micIn) := rfl
theorem parse (packet : List Byte) : Statement (.parse packet) := rfl
theorem buildFragmented (de : Byte) (mt : BitVec 7) (payload : List Byte) (ic : Bool) :
    Statement (.buildFragmented de mt payload ic) := rfl
theorem reasm (now : Time) (f : ParsedFrame) : Statement (.reasm now f) := rfl
theorem rxPacket (now : Time) (packet : List Byte) : Statement (.rxPacket now packet) := rfl
theorem tick (now : Time) : Statement (.tick now) := rfl
theorem pktSingle (now : Time) (h : PktHeader) (tail : List Byte) : Statement (.pktSingle now h tail) :=
  packetBytes_match true true false h tail
theorem pktSingleIc (now : Time) (h : PktHeader) (tail : List Byte) : Statement (.pktSingleIc now h tail) :=
  packetBytes_match true true true h tail
theorem pktFirst (now : Time) (h : PktHeader) (tail : List Byte) : Statement (.pktFirst now h tail) :=
  packetBytes_match true false false h tail
theorem pktFirstIc (now : Time) (h : PktHeader) (tail : List Byte) : Statement (.pktFirstIc now h tail) :=
  packetBytes_match true false true h tail
theorem pktMiddle (now : Time) (h : PktHeader) (tail : List Byte) : Statement (.pktMiddle now h tail) :=
  packetBytes_match false false false h tail
theorem pktMiddleIc (now : Time) (h : PktHeader) (tail : List Byte) : Statement (.pktMiddleIc now h tail) :=
  packetBytes_match false false true h tail
theorem pktLast (now : Time) (h : PktHeader) (tail : List Byte) : Statement (.pktLast now h tail) :=
  packetBytes_match false true false h tail
theorem pktLastIc (now : Time) (h : PktHeader) (tail : List Byte) : Statement (.pktLastIc now h tail) :=
  packetBytes_match false true true h tail

end Sys2Proof.Laws.EncodeMatchesTable
end

