-- ==== Sys2Proof/Laws/State.lean ====
section
/-! SUPPORT. One lemma per field per update of the state, so that no proof unfolds an update. -/

namespace Sys2Proof.Machine

/-! ### `State.report` -/

@[simp] theorem State.report_pecAcc (rs : List Result) (s : State) : (s.report rs).pecAcc = s.pecAcc := rfl
@[simp] theorem State.report_micAcc (rs : List Result) (s : State) : (s.report rs).micAcc = s.micAcc := rfl
@[simp] theorem State.report_cfgDestAddr (rs : List Result) (s : State) : (s.report rs).cfgDestAddr = s.cfgDestAddr := rfl
@[simp] theorem State.report_cfgSrcAddr (rs : List Result) (s : State) : (s.report rs).cfgSrcAddr = s.cfgSrcAddr := rfl
@[simp] theorem State.report_cfgSrcEid (rs : List Result) (s : State) : (s.report rs).cfgSrcEid = s.cfgSrcEid := rfl
@[simp] theorem State.report_tagCtr (rs : List Result) (s : State) : (s.report rs).tagCtr = s.tagCtr := rfl
@[simp] theorem State.report_rxState (rs : List Result) (s : State) : (s.report rs).rxState = s.rxState := rfl
@[simp] theorem State.report_rxKey (rs : List Result) (s : State) : (s.report rs).rxKey = s.rxKey := rfl
@[simp] theorem State.report_rxDestEid (rs : List Result) (s : State) : (s.report rs).rxDestEid = s.rxDestEid := rfl
@[simp] theorem State.report_rxMsg (rs : List Result) (s : State) : (s.report rs).rxMsg = s.rxMsg := rfl
@[simp] theorem State.report_rxSeq (rs : List Result) (s : State) : (s.report rs).rxSeq = s.rxSeq := rfl
@[simp] theorem State.report_rxBuf (rs : List Result) (s : State) : (s.report rs).rxBuf = s.rxBuf := rfl
@[simp] theorem State.report_rxT0 (rs : List Result) (s : State) : (s.report rs).rxT0 = s.rxT0 := rfl
@[simp] theorem State.report_result (rs : List Result) (s : State) : (s.report rs).result = rs := rfl
@[simp] theorem State.report_issued (rs : List Result) (s : State) : (s.report rs).issued = s.issued := rfl

/-! ### `State.answer` -/

@[simp] theorem State.answer_pecAcc (v : Value) (s : State) : (s.answer v).pecAcc = s.pecAcc := rfl
@[simp] theorem State.answer_micAcc (v : Value) (s : State) : (s.answer v).micAcc = s.micAcc := rfl
@[simp] theorem State.answer_cfgDestAddr (v : Value) (s : State) : (s.answer v).cfgDestAddr = s.cfgDestAddr := rfl
@[simp] theorem State.answer_cfgSrcAddr (v : Value) (s : State) : (s.answer v).cfgSrcAddr = s.cfgSrcAddr := rfl
@[simp] theorem State.answer_cfgSrcEid (v : Value) (s : State) : (s.answer v).cfgSrcEid = s.cfgSrcEid := rfl
@[simp] theorem State.answer_tagCtr (v : Value) (s : State) : (s.answer v).tagCtr = s.tagCtr := rfl
@[simp] theorem State.answer_rxState (v : Value) (s : State) : (s.answer v).rxState = s.rxState := rfl
@[simp] theorem State.answer_rxKey (v : Value) (s : State) : (s.answer v).rxKey = s.rxKey := rfl
@[simp] theorem State.answer_rxDestEid (v : Value) (s : State) : (s.answer v).rxDestEid = s.rxDestEid := rfl
@[simp] theorem State.answer_rxMsg (v : Value) (s : State) : (s.answer v).rxMsg = s.rxMsg := rfl
@[simp] theorem State.answer_rxSeq (v : Value) (s : State) : (s.answer v).rxSeq = s.rxSeq := rfl
@[simp] theorem State.answer_rxBuf (v : Value) (s : State) : (s.answer v).rxBuf = s.rxBuf := rfl
@[simp] theorem State.answer_rxT0 (v : Value) (s : State) : (s.answer v).rxT0 = s.rxT0 := rfl
@[simp] theorem State.answer_result (v : Value) (s : State) : (s.answer v).result = [.ok v] := rfl
@[simp] theorem State.answer_issued (v : Value) (s : State) : (s.answer v).issued = s.issued := rfl

/-! ### `State.raise` -/

@[simp] theorem State.raise_pecAcc (e : Err) (s : State) : (s.raise e).pecAcc = s.pecAcc := rfl
@[simp] theorem State.raise_micAcc (e : Err) (s : State) : (s.raise e).micAcc = s.micAcc := rfl
@[simp] theorem State.raise_cfgDestAddr (e : Err) (s : State) : (s.raise e).cfgDestAddr = s.cfgDestAddr := rfl
@[simp] theorem State.raise_cfgSrcAddr (e : Err) (s : State) : (s.raise e).cfgSrcAddr = s.cfgSrcAddr := rfl
@[simp] theorem State.raise_cfgSrcEid (e : Err) (s : State) : (s.raise e).cfgSrcEid = s.cfgSrcEid := rfl
@[simp] theorem State.raise_tagCtr (e : Err) (s : State) : (s.raise e).tagCtr = s.tagCtr := rfl
@[simp] theorem State.raise_rxState (e : Err) (s : State) : (s.raise e).rxState = s.rxState := rfl
@[simp] theorem State.raise_rxKey (e : Err) (s : State) : (s.raise e).rxKey = s.rxKey := rfl
@[simp] theorem State.raise_rxDestEid (e : Err) (s : State) : (s.raise e).rxDestEid = s.rxDestEid := rfl
@[simp] theorem State.raise_rxMsg (e : Err) (s : State) : (s.raise e).rxMsg = s.rxMsg := rfl
@[simp] theorem State.raise_rxSeq (e : Err) (s : State) : (s.raise e).rxSeq = s.rxSeq := rfl
@[simp] theorem State.raise_rxBuf (e : Err) (s : State) : (s.raise e).rxBuf = s.rxBuf := rfl
@[simp] theorem State.raise_rxT0 (e : Err) (s : State) : (s.raise e).rxT0 = s.rxT0 := rfl
@[simp] theorem State.raise_result (e : Err) (s : State) : (s.raise e).result = [.error e] := rfl
@[simp] theorem State.raise_issued (e : Err) (s : State) : (s.raise e).issued = s.issued := rfl

/-! ### `State.advanceTag` -/

@[simp] theorem State.advanceTag_pecAcc (s : State) : (s.advanceTag).pecAcc = s.pecAcc := rfl
@[simp] theorem State.advanceTag_micAcc (s : State) : (s.advanceTag).micAcc = s.micAcc := rfl
@[simp] theorem State.advanceTag_cfgDestAddr (s : State) : (s.advanceTag).cfgDestAddr = s.cfgDestAddr := rfl
@[simp] theorem State.advanceTag_cfgSrcAddr (s : State) : (s.advanceTag).cfgSrcAddr = s.cfgSrcAddr := rfl
@[simp] theorem State.advanceTag_cfgSrcEid (s : State) : (s.advanceTag).cfgSrcEid = s.cfgSrcEid := rfl
@[simp] theorem State.advanceTag_tagCtr (s : State) : (s.advanceTag).tagCtr = s.tagCtr + 1 := rfl
@[simp] theorem State.advanceTag_rxState (s : State) : (s.advanceTag).rxState = s.rxState := rfl
@[simp] theorem State.advanceTag_rxKey (s : State) : (s.advanceTag).rxKey = s.rxKey := rfl
@[simp] theorem State.advanceTag_rxDestEid (s : State) : (s.advanceTag).rxDestEid = s.rxDestEid := rfl
@[simp] theorem State.advanceTag_rxMsg (s : State) : (s.advanceTag).rxMsg = s.rxMsg := rfl
@[simp] theorem State.advanceTag_rxSeq (s : State) : (s.advanceTag).rxSeq = s.rxSeq := rfl
@[simp] theorem State.advanceTag_rxBuf (s : State) : (s.advanceTag).rxBuf = s.rxBuf := rfl
@[simp] theorem State.advanceTag_rxT0 (s : State) : (s.advanceTag).rxT0 = s.rxT0 := rfl
@[simp] theorem State.advanceTag_result (s : State) : (s.advanceTag).result = s.result := rfl
@[simp] theorem State.advanceTag_issued (s : State) : (s.advanceTag).issued = s.issued := rfl

/-! ### `State.clearContext` -/

@[simp] theorem State.clearContext_pecAcc (s : State) : (s.clearContext).pecAcc = s.pecAcc := rfl
@[simp] theorem State.clearContext_micAcc (s : State) : (s.clearContext).micAcc = s.micAcc := rfl
@[simp] theorem State.clearContext_cfgDestAddr (s : State) : (s.clearContext).cfgDestAddr = s.cfgDestAddr := rfl
@[simp] theorem State.clearContext_cfgSrcAddr (s : State) : (s.clearContext).cfgSrcAddr = s.cfgSrcAddr := rfl
@[simp] theorem State.clearContext_cfgSrcEid (s : State) : (s.clearContext).cfgSrcEid = s.cfgSrcEid := rfl
@[simp] theorem State.clearContext_tagCtr (s : State) : (s.clearContext).tagCtr = s.tagCtr := rfl
@[simp] theorem State.clearContext_rxState (s : State) : (s.clearContext).rxState = .idle := rfl
@[simp] theorem State.clearContext_rxKey (s : State) : (s.clearContext).rxKey = s.rxKey := rfl
@[simp] theorem State.clearContext_rxDestEid (s : State) : (s.clearContext).rxDestEid = s.rxDestEid := rfl
@[simp] theorem State.clearContext_rxMsg (s : State) : (s.clearContext).rxMsg = s.rxMsg := rfl
@[simp] theorem State.clearContext_rxSeq (s : State) : (s.clearContext).rxSeq = s.rxSeq := rfl
@[simp] theorem State.clearContext_rxBuf (s : State) : (s.clearContext).rxBuf = [] := rfl
@[simp] theorem State.clearContext_rxT0 (s : State) : (s.clearContext).rxT0 = s.rxT0 := rfl
@[simp] theorem State.clearContext_result (s : State) : (s.clearContext).result = s.result := rfl
@[simp] theorem State.clearContext_issued (s : State) : (s.clearContext).issued = s.issued := rfl

/-! ### `State.openContext` -/

@[simp] theorem State.openContext_pecAcc (f : ParsedFrame) (now : Time) (s : State) : (s.openContext f now).pecAcc = s.pecAcc := rfl
@[simp] theorem State.openContext_micAcc (f : ParsedFrame) (now : Time) (s : State) : (s.openContext f now).micAcc = s.micAcc := rfl
@[simp] theorem State.openContext_cfgDestAddr (f : ParsedFrame) (now : Time) (s : State) : (s.openContext f now).cfgDestAddr = s.cfgDestAddr := rfl
@[simp] theorem State.openContext_cfgSrcAddr (f : ParsedFrame) (now : Time) (s : State) : (s.openContext f now).cfgSrcAddr = s.cfgSrcAddr := rfl
@[simp] theorem State.openContext_cfgSrcEid (f : ParsedFrame) (now : Time) (s : State) : (s.openContext f now).cfgSrcEid = s.cfgSrcEid := rfl
@[simp] theorem State.openContext_tagCtr (f : ParsedFrame) (now : Time) (s : State) : (s.openContext f now).tagCtr = s.tagCtr := rfl
@[simp] theorem State.openContext_rxState (f : ParsedFrame) (now : Time) (s : State) : (s.openContext f now).rxState = .active := rfl
@[simp] theorem State.openContext_rxKey (f : ParsedFrame) (now : Time) (s : State) : (s.openContext f now).rxKey = frameKey f := rfl
@[simp] theorem State.openContext_rxDestEid (f : ParsedFrame) (now : Time) (s : State) : (s.openContext f now).rxDestEid = f.destEid := rfl
@[simp] theorem State.openContext_rxMsg (f : ParsedFrame) (now : Time) (s : State) : (s.openContext f now).rxMsg = msgByte f.ic f.msgType := rfl
@[simp] theorem State.openContext_rxSeq (f : ParsedFrame) (now : Time) (s : State) : (s.openContext f now).rxSeq = f.seq := rfl
@[simp] theorem State.openContext_rxBuf (f : ParsedFrame) (now : Time) (s : State) : (s.openContext f now).rxBuf = f.payload := rfl
@[simp] theorem State.openContext_rxT0 (f : ParsedFrame) (now : Time) (s : State) : (s.openContext f now).rxT0 = now := rfl
@[simp] theorem State.openContext_result (f : ParsedFrame) (now : Time) (s : State) : (s.openContext f now).result = s.result := rfl
@[simp] theorem State.openContext_issued (f : ParsedFrame) (now : Time) (s : State) : (s.openContext f now).issued = s.issued := rfl

/-! ### `State.appendChunk` -/

@[simp] theorem State.appendChunk_pecAcc (f : ParsedFrame) (s : State) : (s.appendChunk f).pecAcc = s.pecAcc := rfl
@[simp] theorem State.appendChunk_micAcc (f : ParsedFrame) (s : State) : (s.appendChunk f).micAcc = s.micAcc := rfl
@[simp] theorem State.appendChunk_cfgDestAddr (f : ParsedFrame) (s : State) : (s.appendChunk f).cfgDestAddr = s.cfgDestAddr := rfl
@[simp] theorem State.appendChunk_cfgSrcAddr (f : ParsedFrame) (s : State) : (s.appendChunk f).cfgSrcAddr = s.cfgSrcAddr := rfl
@[simp] theorem State.appendChunk_cfgSrcEid (f : ParsedFrame) (s : State) : (s.appendChunk f).cfgSrcEid = s.cfgSrcEid := rfl
@[simp] theorem State.appendChunk_tagCtr (f : ParsedFrame) (s : State) : (s.appendChunk f).tagCtr = s.tagCtr := rfl
@[simp] theorem State.appendChunk_rxState (f : ParsedFrame) (s : State) : (s.appendChunk f).rxState = s.rxState := rfl
@[simp] theorem State.appendChunk_rxKey (f : ParsedFrame) (s : State) : (s.appendChunk f).rxKey = s.rxKey := rfl
@[simp] theorem State.appendChunk_rxDestEid (f : ParsedFrame) (s : State) : (s.appendChunk f).rxDestEid = s.rxDestEid := rfl
@[simp] theorem State.appendChunk_rxMsg (f : ParsedFrame) (s : State) : (s.appendChunk f).rxMsg = s.rxMsg := rfl
@[simp] theorem State.appendChunk_rxSeq (f : ParsedFrame) (s : State) : (s.appendChunk f).rxSeq = f.seq := rfl
@[simp] theorem State.appendChunk_rxBuf (f : ParsedFrame) (s : State) : (s.appendChunk f).rxBuf = s.rxBuf ++ f.payload := rfl
@[simp] theorem State.appendChunk_rxT0 (f : ParsedFrame) (s : State) : (s.appendChunk f).rxT0 = s.rxT0 := rfl
@[simp] theorem State.appendChunk_result (f : ParsedFrame) (s : State) : (s.appendChunk f).result = s.result := rfl
@[simp] theorem State.appendChunk_issued (f : ParsedFrame) (s : State) : (s.appendChunk f).issued = s.issued := rfl

/-! ### `State.takeInput` -/

@[simp] theorem State.takeInput_pecAcc (rest : List Input) (s : State) : (s.takeInput rest).pecAcc = s.pecAcc := rfl
@[simp] theorem State.takeInput_micAcc (rest : List Input) (s : State) : (s.takeInput rest).micAcc = s.micAcc := rfl
@[simp] theorem State.takeInput_cfgDestAddr (rest : List Input) (s : State) : (s.takeInput rest).cfgDestAddr = s.cfgDestAddr := rfl
@[simp] theorem State.takeInput_cfgSrcAddr (rest : List Input) (s : State) : (s.takeInput rest).cfgSrcAddr = s.cfgSrcAddr := rfl
@[simp] theorem State.takeInput_cfgSrcEid (rest : List Input) (s : State) : (s.takeInput rest).cfgSrcEid = s.cfgSrcEid := rfl
@[simp] theorem State.takeInput_tagCtr (rest : List Input) (s : State) : (s.takeInput rest).tagCtr = s.tagCtr := rfl
@[simp] theorem State.takeInput_rxState (rest : List Input) (s : State) : (s.takeInput rest).rxState = s.rxState := rfl
@[simp] theorem State.takeInput_rxKey (rest : List Input) (s : State) : (s.takeInput rest).rxKey = s.rxKey := rfl
@[simp] theorem State.takeInput_rxDestEid (rest : List Input) (s : State) : (s.takeInput rest).rxDestEid = s.rxDestEid := rfl
@[simp] theorem State.takeInput_rxMsg (rest : List Input) (s : State) : (s.takeInput rest).rxMsg = s.rxMsg := rfl
@[simp] theorem State.takeInput_rxSeq (rest : List Input) (s : State) : (s.takeInput rest).rxSeq = s.rxSeq := rfl
@[simp] theorem State.takeInput_rxBuf (rest : List Input) (s : State) : (s.takeInput rest).rxBuf = s.rxBuf := rfl
@[simp] theorem State.takeInput_rxT0 (rest : List Input) (s : State) : (s.takeInput rest).rxT0 = s.rxT0 := rfl
@[simp] theorem State.takeInput_result (rest : List Input) (s : State) : (s.takeInput rest).result = s.result := rfl
@[simp] theorem State.takeInput_issued (rest : List Input) (s : State) : (s.takeInput rest).issued = rest := rfl

/-! ### `State.conclude` -/

@[simp] theorem State.conclude_pecAcc (r : Except Err Value) (s : State) : (s.conclude r).pecAcc = s.pecAcc := by
  cases r <;> rfl
@[simp] theorem State.conclude_micAcc (r : Except Err Value) (s : State) : (s.conclude r).micAcc = s.micAcc := by
  cases r <;> rfl
@[simp] theorem State.conclude_cfgDestAddr (r : Except Err Value) (s : State) : (s.conclude r).cfgDestAddr = s.cfgDestAddr := by
  cases r <;> rfl
@[simp] theorem State.conclude_cfgSrcAddr (r : Except Err Value) (s : State) : (s.conclude r).cfgSrcAddr = s.cfgSrcAddr := by
  cases r <;> rfl
@[simp] theorem State.conclude_cfgSrcEid (r : Except Err Value) (s : State) : (s.conclude r).cfgSrcEid = s.cfgSrcEid := by
  cases r <;> rfl
@[simp] theorem State.conclude_tagCtr (r : Except Err Value) (s : State) : (s.conclude r).tagCtr = s.tagCtr := by
  cases r <;> rfl
@[simp] theorem State.conclude_rxState (r : Except Err Value) (s : State) : (s.conclude r).rxState = s.rxState := by
  cases r <;> rfl
@[simp] theorem State.conclude_rxKey (r : Except Err Value) (s : State) : (s.conclude r).rxKey = s.rxKey := by
  cases r <;> rfl
@[simp] theorem State.conclude_rxDestEid (r : Except Err Value) (s : State) : (s.conclude r).rxDestEid = s.rxDestEid := by
  cases r <;> rfl
@[simp] theorem State.conclude_rxMsg (r : Except Err Value) (s : State) : (s.conclude r).rxMsg = s.rxMsg := by
  cases r <;> rfl
@[simp] theorem State.conclude_rxSeq (r : Except Err Value) (s : State) : (s.conclude r).rxSeq = s.rxSeq := by
  cases r <;> rfl
@[simp] theorem State.conclude_rxBuf (r : Except Err Value) (s : State) : (s.conclude r).rxBuf = s.rxBuf := by
  cases r <;> rfl
@[simp] theorem State.conclude_rxT0 (r : Except Err Value) (s : State) : (s.conclude r).rxT0 = s.rxT0 := by
  cases r <;> rfl
@[simp] theorem State.conclude_ok (v : Value) (s : State) : s.conclude (.ok v) = s.answer v := rfl
@[simp] theorem State.conclude_error (e : Err) (s : State) : s.conclude (.error e) = s.raise e := rfl
@[simp] theorem State.conclude_issued (r : Except Err Value) (s : State) : (s.conclude r).issued = s.issued := by
  cases r <;> rfl

/-! ### The last report is the one that stands -/

@[simp] theorem State.report_report (rs rs' : List Result) (s : State) : (s.report rs).report rs' = s.report rs' := rfl
@[simp] theorem State.answer_report (v : Value) (rs : List Result) (s : State) :
    (s.answer v).report rs = s.report rs := rfl
@[simp] theorem State.raise_report (e : Err) (rs : List Result) (s : State) :
    (s.raise e).report rs = s.report rs := rfl
@[simp] theorem State.report_result_self (s : State) : s.report s.result = s := rfl

/-! ### Small facts about the context -/

@[simp] theorem State.clearContext_idem (s : State) : s.clearContext.clearContext = s.clearContext := rfl
@[simp] theorem State.clearContext_openContext (f : ParsedFrame) (now : Time) (s : State) :
    s.clearContext.openContext f now = s.openContext f now := rfl

theorem State.expired_idle {s : State} (h : s.rxState = .idle) (now : Time) : s.expired now = false := by
  simp [State.expired, h]

theorem State.timeBackwards_idle {s : State} (h : s.rxState = .idle) (now : Time) : s.timeBackwards now = false := by
  simp [State.timeBackwards, h]

theorem State.expired_iff (s : State) (now : Time) :
    s.expired now = true ↔ s.rxState = .active ∧ Config.tReasm < now - s.rxT0 := by
  simp [State.expired]

theorem State.timeBackwards_iff (s : State) (now : Time) :
    s.timeBackwards now = true ↔ s.rxState = .active ∧ now < s.rxT0 := by
  simp [State.timeBackwards]

theorem RxState.ne_idle_iff (r : RxState) : r ≠ .idle ↔ r = .active := by cases r <;> simp

end Sys2Proof.Machine
end

