-- ==== Sys2Proof/Laws/Reassembler.lean ====
section
/-! SUPPORT. What the reassembler can do, said once: the expiry test, the fate of a packet, and the two operations that take
one. -/

namespace Sys2Proof.Machine

/-! ### The expiry test (R160, R161) -/

/-- The expiry test has two outcomes. -/
theorem noticeExpiry_cases (now : Time) (s : State) :
    (s.expired now = true ∧ s.noticeExpiry now = ([.error (.plain .missingEom)], s.clearContext)) ∨
    (s.expired now = false ∧ s.noticeExpiry now = ([], s)) := by
  unfold State.noticeExpiry
  cases h : s.expired now <;> simp

theorem noticeExpiry_of_expired {s : State} {now : Time} (h : s.expired now = true) :
    s.noticeExpiry now = ([.error (.plain .missingEom)], s.clearContext) := by simp [State.noticeExpiry, h]

theorem noticeExpiry_of_in_time {s : State} {now : Time} (h : s.expired now = false) :
    s.noticeExpiry now = ([], s) := by simp [State.noticeExpiry, h]

/-! ### The fate of a packet (R162 to R168) -/

/-- What the packet that completes a message, or does not, answers; the context is cleared exactly at the end. -/
theorem settlePacket_cases (f : ParsedFrame) (s : State) :
    (f.eom = false ∧ settlePacket f s = (.ok .pending, s)) ∨
    (f.eom = true ∧ s.micAccepted f = true ∧ settlePacket f s = (.ok (.complete s.contextMessage), s.clearContext)) ∨
    (f.eom = true ∧ s.micAccepted f = false ∧ settlePacket f s = (.error (.plain .badMic), s.clearContext)) := by
  unfold settlePacket finishMessage
  cases f.eom <;> cases s.micAccepted f <;> simp

/-- Everything lines 4 to 20 of `REASM` can do with an unbounded buffer (R162, R171). -/
theorem acceptFrame_unbounded (now : Time) (f : ParsedFrame) (s : State) :
    (s.rxState = .active ∧ frameKey f ≠ s.rxKey ∧
      acceptFrame none now f s = .ok ([.error (.plain .tagMismatch)], s)) ∨
    (¬ (s.rxState = .active ∧ frameKey f ≠ s.rxKey) ∧ f.som = true ∧
      acceptFrame none now f s = .ok ((if s.rxState = .active then [.error (.plain .unexpectedSom)] else []) ++
        [(settlePacket f (s.openContext f now)).1], (settlePacket f (s.openContext f now)).2)) ∨
    (f.som = false ∧ s.rxState = .idle ∧ acceptFrame none now f s = .ok ([.error (.plain .sequenceGap)], s)) ∨
    (s.rxState = .active ∧ frameKey f = s.rxKey ∧ f.som = false ∧ f.seq ≠ s.rxSeq + 1 ∧
      acceptFrame none now f s = .ok ([.error (.plain .sequenceGap)], s.clearContext)) ∨
    (s.rxState = .active ∧ frameKey f = s.rxKey ∧ f.som = false ∧ f.seq = s.rxSeq + 1 ∧
      acceptFrame none now f s = .ok ([(settlePacket f (s.appendChunk f)).1], (settlePacket f (s.appendChunk f)).2)) := by
  unfold acceptFrame startMessage continueMessage
  by_cases ha : s.rxState = .active <;> by_cases hk : frameKey f = s.rxKey <;> cases hs : f.som <;>
    by_cases hq : f.seq = s.rxSeq + 1 <;>
    simp_all [fitsBuffer, RxState.ne_idle_iff]
  all_goals
    cases hr : s.rxState
    · simp
    · exact absurd hr ha

/-- A packet is never refused by an unbounded buffer (R169). -/
theorem acceptFrame_unbounded_ok (now : Time) (f : ParsedFrame) (s : State) :
    ∃ rs t, acceptFrame none now f s = .ok (rs, t) := by
  rcases acceptFrame_unbounded now f s with ⟨_, _, h⟩ | ⟨_, _, h⟩ | ⟨_, _, h⟩ | ⟨_, _, _, _, h⟩ | ⟨_, _, _, _, h⟩ <;>
    exact ⟨_, _, h⟩

/-! ### `REASM` and `RX_PACKET` -/

/-- `REASM` on an unbounded buffer: refused when time runs backwards, else the expiry test and the packet (R162). -/
theorem reassemble_unbounded (now : Time) (f : ParsedFrame) (s : State) :
    (s.timeBackwards now = true ∧ reassemble none now f s = .refused .timeBackwards) ∨
    (s.timeBackwards now = false ∧ ∃ rs t, acceptFrame none now f (s.noticeExpiry now).2 = .ok (rs, t) ∧
      reassemble none now f s = .next (t.report ((s.noticeExpiry now).1 ++ rs))) := by
  unfold reassemble
  cases hb : s.timeBackwards now
  · obtain ⟨rs, t, h⟩ := acceptFrame_unbounded_ok now f (s.noticeExpiry now).2
    exact .inr ⟨rfl, rs, t, h, by simp [h]⟩
  · exact .inl ⟨rfl, by simp⟩

/-- A packet that parses is reassembled (R172). -/
theorem receivePacket_of_ok {b : List Byte} {f : ParsedFrame} (h : parsePacket b = .ok f) (cap : Option Nat) (now : Time)
    (s : State) : receivePacket cap now b s = reassemble cap now f s := by
  simp [receivePacket, h]

/-- A packet that does not parse is dropped; its error follows a pending `MissingEom` (R172). -/
theorem receivePacket_of_error {b : List Byte} {e : Err} (h : parsePacket b = .error e) (cap : Option Nat) {now : Time}
    {s : State} (hb : s.timeBackwards now = false) :
    receivePacket cap now b s =
      .next ((s.noticeExpiry now).2.report ((s.noticeExpiry now).1 ++ [.error e])) := by
  simp [receivePacket, h, hb]

theorem receivePacket_backwards {s : State} {now : Time} (hb : s.timeBackwards now = true) (cap : Option Nat)
    (b : List Byte) : receivePacket cap now b s = .refused .timeBackwards := by
  unfold receivePacket
  cases parsePacket b <;> simp [reassemble, hb]

/-- `RX_PACKET` on an unbounded buffer answers a next state whenever time does not run backwards. -/
theorem receivePacket_unbounded_next {s : State} {now : Time} (hb : s.timeBackwards now = false) (b : List Byte) :
    ∃ t, receivePacket none now b s = .next t := by
  cases hp : parsePacket b with
  | error e => exact ⟨_, receivePacket_of_error hp none hb⟩
  | ok f =>
    rw [receivePacket_of_ok hp]
    rcases reassemble_unbounded now f s with ⟨h, _⟩ | ⟨_, rs, t, _, h⟩
    · rw [hb] at h; cases h
    · exact ⟨_, h⟩

/-! ### The buffer keeps its form -/

theorem fitsBuffer_zero (cap : Option Nat) : fitsBuffer cap 0 = true := by cases cap <;> simp [fitsBuffer]

theorem clearContext_wf (cap : Option Nat) (s : State) : Memory.wf cap s.clearContext = true := fitsBuffer_zero cap

theorem reset_wf (cap : Option Nat) : Memory.wf cap State.reset = true := fitsBuffer_zero cap

theorem noticeExpiry_wf {cap : Option Nat} {s : State} (h : Memory.wf cap s = true) (now : Time) :
    Memory.wf cap (s.noticeExpiry now).2 = true := by
  rcases noticeExpiry_cases now s with ⟨_, e⟩ | ⟨_, e⟩ <;> rw [e]
  · exact clearContext_wf cap s
  · exact h

theorem settlePacket_wf {cap : Option Nat} {s : State} (h : Memory.wf cap s = true) (f : ParsedFrame) :
    Memory.wf cap (settlePacket f s).2 = true := by
  rcases settlePacket_cases f s with ⟨_, e⟩ | ⟨_, _, e⟩ | ⟨_, _, e⟩ <;> rw [e]
  · exact h
  · exact clearContext_wf cap s
  · exact clearContext_wf cap s

/-- The one operation that stores to `RX_BUF` keeps it within its capacity, whatever the capacity is (R169). -/
theorem acceptFrame_wf {cap : Option Nat} {now : Time} {f : ParsedFrame} {s t : State} {rs : List Result}
    (hs : Memory.wf cap s = true) (h : acceptFrame cap now f s = .ok (rs, t)) : Memory.wf cap t = true := by
  unfold acceptFrame startMessage continueMessage at h
  split at h
  · cases h; exact hs
  split at h
  · split at h
    · cases h
    · cases h
      exact settlePacket_wf (by simpa [Memory.wf] using ‹¬ (!fitsBuffer cap _) = true›) f
  · split at h
    · cases h; exact hs
    split at h
    · cases h; exact clearContext_wf cap s
    split at h
    · cases h
    · cases h
      exact settlePacket_wf (by simpa [Memory.wf] using ‹¬ (!fitsBuffer cap _) = true›) f

end Sys2Proof.Machine
end

