-- ==== Sys2Proof/Tests/Slice0.lean ====
section
/-! SUPPORT. The model's own tests. `V-…`, `P…`, `S…` name the vectors of 95_test_vectors.md, which the expected values come
from; what has no such name is worked out by hand from the rule named beside it. The last part has, for every statement with
hypotheses, concrete states and operands that meet them. -/

namespace Sys2Proof.Tests

open Machine

/-! ### Helpers -/

/-- The outcome list of a step that answers a next state. -/
def results : StepOutcome → List Result
  | .next t => t.result
  | _ => []

/-- The next state, or the reset state where there is none. -/
def after : StepOutcome → State
  | .next t => t
  | _ => State.reset

/-- The step answers a next state. -/
def isNext : StepOutcome → Bool
  | .next _ => true
  | _ => false

/-- The reset state with one input issued. -/
def issue (input : Input) : State := { State.reset with issued := [input] }

/-- Right after `RX_PACKET(1000, A)` (V-RSM-2). -/
def openA : State :=
  { State.reset with
    rxState := .active, rxKey := { srcEid := 0, tag := 0, toBit := true }, rxMsg := 0x04, rxBuf := [0x10, 0x11], rxT0 := 1000 }

/-- The same after A and B (V-RSM-2). -/
def openAB : State := { openA with rxSeq := 1, rxBuf := [0x10, 0x11, 0x12] }

/-- The same after Ai and Bi, a message that declares IC (V-RSM-13). -/
def openABi : State := { openAB with rxMsg := 0x84 }

/-- The free fields of the packets of section 2.6, but byte count and seq. -/
def head (byteCount : Byte) (seq : BitVec 2) : PktHeader :=
  { destAddr := 0x3A, byteCount := byteCount, srcAddr := 0x21, destEid := 0, srcEid := 0, seq := seq, toBit := true, tag := 0,
    msgType := 0x04 }

def pktA : List Byte := [0x3A, 0x0F, 0x08, 0x21, 0x01, 0x00, 0x00, 0x88, 0x04, 0x10, 0x11, 0xE7]
def pktB : List Byte := [0x3A, 0x0F, 0x07, 0x21, 0x01, 0x00, 0x00, 0x18, 0x04, 0x12, 0x76]
def pktC : List Byte := [0x3A, 0x0F, 0x08, 0x21, 0x01, 0x00, 0x00, 0x68, 0x04, 0x13, 0x14, 0xA7]
def pktS : List Byte := [0x3A, 0x0F, 0x07, 0x21, 0x01, 0x00, 0x00, 0xC8, 0x04, 0x99, 0xE1]
def pktCi : List Byte := [0x3A, 0x0F, 0x0C, 0x21, 0x01, 0x00, 0x00, 0x68, 0x84, 0x13, 0x14, 0x92, 0xA0, 0xFF, 0xA1, 0xC2]

/-- S1: the health poll. -/
def pktS1 : List Byte := [0x3A, 0x0F, 0x0A, 0x21, 0x01, 0x00, 0x00, 0xC8, 0x04, 0x01, 0x01, 0x00, 0x00, 0xB3]

/-- V-BLD-2: the health poll with IC. -/
def pktS2 : List Byte :=
  [0x3A, 0x0F, 0x0E, 0x21, 0x01, 0x00, 0x00, 0xC8, 0x84, 0x01, 0x01, 0x00, 0x00, 0x1F, 0x25, 0x91, 0xB3, 0x9E]

/-- A frame of the message in `openA`: EOM, seq 1 and one payload byte, with the fields that vary as arguments. -/
def frame (som eom : Bool) (seq : BitVec 2) (ic : Bool) (mic : Option Word32) : ParsedFrame :=
  { destAddr := 0x3A, byteCount := 0x07, srcAddr := 0x21, version := 1, destEid := 0, srcEid := 0, som := som, eom := eom,
    toBit := true, seq := seq, tag := 0, ic := ic, msgType := 0x04, payload := [0x12], mic := mic, micOk := none, pecOk := true }

/-- The payload of `Complete` in V-RSM-1. -/
def messageABC (ic : Bool) : Message :=
  { srcEid := 0, destEid := 0, tag := 0, toBit := true, msgType := 0x04, ic := ic, payload := [0x10, 0x11, 0x12, 0x13, 0x14] }

/-! ### WellFormed: one ill-formed term per check -/

/-- A packet of 9 bytes is too short (R85); 10 bytes are enough. -/
theorem test_wellFormed_short_packet :
    (Instr.pktSingle 0 (head 6 0) []).wellFormed = false ∧ (Instr.pktSingle 0 (head 6 0) [0xBF]).wellFormed = true := by decide

/-- A packet of 257 bytes is too long (R85); 256 bytes are not. -/
theorem test_wellFormed_long_packet :
    (Instr.pktLastIc 0 (head 252 0) (List.replicate 248 0)).wellFormed = false ∧
    (Instr.pktLastIc 0 (head 252 0) (List.replicate 247 0)).wellFormed = true := by decide +kernel

/-- `mic_ok` is never 0 (R141). -/
theorem test_wellFormed_micOk :
    (Instr.reasm 0 { frame true true 0 true (some 0) with micOk := some false }).wellFormed = false ∧
    (Instr.reasm 0 { frame true true 0 true (some 0) with micOk := some true }).wellFormed = true := by decide

/-- The decoder refuses that `mic_ok`, and a bit above a 2-bit operand (R91). -/
theorem test_decode_refuses_ill_formed :
    decode (encode (.reasm 0 { frame true true 0 true none with micOk := some false })) = .error (.malformedOperands 0x38) ∧
    decode (.command [0b00000001, 0b00000100, 0xFF]) = .error (.malformedOperands 0x01) := by decide

/-! ### Decode: every constructor's word, written out from R80 and R90 -/

theorem test_decode_reset : decode (.command [0b00000000]) = .ok .reset := by decide
theorem test_decode_cfgWrite : decode (.command [0b00000001, 0b10, 0x08]) = .ok (.cfgWrite 2 0x08) := by decide
theorem test_decode_cfgRead : decode (.command [0b00000010, 0b11]) = .ok (.cfgRead 3) := by decide
theorem test_decode_nextTag : decode (.command [0b00000011]) = .ok .nextTag := by decide
theorem test_decode_pecCalc : decode (.command [0b00010000, 2, 0xAA, 0xBB]) = .ok (.pecCalc [0xAA, 0xBB]) := by decide
theorem test_decode_pecInit : decode (.command [0b00010001]) = .ok .pecInit := by decide
theorem test_decode_pecUpdate : decode (.command [0b00010010, 0x3A]) = .ok (.pecUpdate 0x3A) := by decide
theorem test_decode_pecRead : decode (.command [0b00010011]) = .ok .pecRead := by decide
theorem test_decode_micCalc : decode (.command [0b00011000, 1, 0x84]) = .ok (.micCalc [0x84]) := by decide
theorem test_decode_micInit : decode (.command [0b00011001]) = .ok .micInit := by decide
theorem test_decode_micUpdate : decode (.command [0b00011010, 0x84]) = .ok (.micUpdate 0x84) := by decide
theorem test_decode_micRead : decode (.command [0b00011011]) = .ok .micRead := by decide
theorem test_decode_buildSingle :
    decode (.command [0b00100000, 0x3A, 0x21, 0x1D, 0x08, 0x0D, 0x7E, 1, 0xDE, 1]) =
      .ok (.buildSingle 0x3A 0x21 0x1D 0x08 0x0D 0x7E [0xDE] true) := by decide
theorem test_decode_buildFragment :
    decode (.command [0b00100001, 0x3A, 0x21, 0x1D, 0x08, 0x04, 1, 0, 1, 6, 0x0D, 1, 0x13, 1, 0x92, 0xA0, 0xFF, 0xA1]) =
      .ok (.buildFragment 0x3A 0x21 0x1D 0x08 0x04 true false true 6 0x0D [0x13] (some 0xA1FFA092)) := by decide
theorem test_decode_parse : decode (.command [0b00100010, 3, 0x3A, 0x0F, 0x06]) = .ok (.parse [0x3A, 0x0F, 0x06]) := by decide
theorem test_decode_buildFragmented :
    decode (.command [0b00110000, 0x1D, 0x04, 0, 1]) = .ok (.buildFragmented 0x1D 0x04 [] true) := by decide
theorem test_decode_reasm :
    decode (.command [0b00111000, 5, 0x3A, 0x07, 0x21, 1, 0, 0, 0, 1, 1, 2, 0, 0, 0x04, 1, 0x12, 0, 0, 1]) =
      .ok (.reasm 5 (frame false true 2 false none)) := by decide
theorem test_decode_rxPacket : decode (.command [0b00111001, 0xE8, 0x07, 1, 0xAA]) = .ok (.rxPacket 1000 [0xAA]) := by decide
theorem test_decode_tick : decode (.command [0b00111010, 0xCD, 0x08]) = .ok (.tick 1101) := by decide

theorem test_decode_pktSingle :
    decode (.packet 3 [0x3A, 0x0F, 0x07, 0x21, 0x01, 0x1D, 0x08, 0b11010101, 0b00000100, 0x99, 0xE1]) =
      .ok (.pktSingle 3 { head 7 1 with destEid := 0x1D, srcEid := 0x08, toBit := false, tag := 5 } [0x99, 0xE1]) := by decide
theorem test_decode_pktSingleIc :
    decode (.packet 3 [0x3A, 0x0F, 0x07, 0x21, 0x01, 0, 0, 0b11001000, 0b10000100, 1, 2]) =
      .ok (.pktSingleIc 3 (head 7 0) [1, 2]) := by decide
theorem test_decode_pktFirst :
    decode (.packet 3 [0x3A, 0x0F, 0x07, 0x21, 0x01, 0, 0, 0b10001000, 0b00000100, 1, 2]) =
      .ok (.pktFirst 3 (head 7 0) [1, 2]) := by decide
theorem test_decode_pktFirstIc :
    decode (.packet 3 [0x3A, 0x0F, 0x07, 0x21, 0x01, 0, 0, 0b10001000, 0b10000100, 1, 2]) =
      .ok (.pktFirstIc 3 (head 7 0) [1, 2]) := by decide
theorem test_decode_pktMiddle :
    decode (.packet 3 [0x3A, 0x0F, 0x07, 0x21, 0x01, 0, 0, 0b00111000, 0b00000100, 1, 2]) =
      .ok (.pktMiddle 3 (head 7 3) [1, 2]) := by decide
theorem test_decode_pktMiddleIc :
    decode (.packet 3 [0x3A, 0x0F, 0x07, 0x21, 0x01, 0, 0, 0b00111000, 0b10000100, 1, 2]) =
      .ok (.pktMiddleIc 3 (head 7 3) [1, 2]) := by decide
theorem test_decode_pktLast :
    decode (.packet 3 [0x3A, 0x0F, 0x07, 0x21, 0x01, 0, 0, 0b01101000, 0b00000100, 1, 2]) =
      .ok (.pktLast 3 (head 7 2) [1, 2]) := by decide
theorem test_decode_pktLastIc :
    decode (.packet 3 [0x3A, 0x0F, 0x07, 0x21, 0x01, 0, 0, 0b01101000, 0b10000100, 1, 2]) =
      .ok (.pktLastIc 3 (head 7 2) [1, 2]) := by decide

/-- Byte 4 = 2 is no packet class; the packet goes to `RX_PACKET`, which reports it (log 3). -/
theorem test_decode_no_class :
    decode (.packet 3 [0x3A, 0x0F, 0x07, 0x21, 0x02, 0, 0, 0xC8, 0x04, 1, 2]) =
      .ok (.rxPacket 3 [0x3A, 0x0F, 0x07, 0x21, 0x02, 0, 0, 0xC8, 0x04, 1, 2]) := by decide

/-- The eight packet rows' `match` numbers of opcode_table.json, read with byte 0 first (R94). -/
theorem test_tableWord_packet_rows :
    [0x000F0000010000C000, 0x000F0000010000C080, 0x000F00000100008000, 0x000F00000100008080, 0x000F00000100000000,
      0x000F00000100000080, 0x000F00000100004000, 0x000F00000100004080].map (decodeTableWord 72) =
    ([Instr.pktSingle, .pktSingleIc, .pktFirst, .pktFirstIc, .pktMiddle, .pktMiddleIc, .pktLast, .pktLastIc].map fun row =>
      some (row 0 { destAddr := 0, byteCount := 0, srcAddr := 0, destEid := 0, srcEid := 0, seq := 0, toBit := false, tag := 0,
                    msgType := 0 } [0])) := by decide

/-- A PKT_MIDDLE row with its free fields set; its flags byte 0x0F is no command code (R94). -/
theorem test_tableWord_fields :
    decodeTableWord 72 0x3A0F07210100000F04 = some (.pktMiddle 0 { head 7 0 with tag := 7 } [0]) ∧
    decodeTableWord 72 0x3A0F0721011D0878FE =
      some (.pktLastIc 0 { head 7 3 with destEid := 0x1D, srcEid := 0x08, msgType := 0x7E } [0]) := by decide

/-- Packet B's bytes 0 to 8 numbered the other way round have byte 1 = 0x18: no packet of a class (R80). -/
theorem test_tableWord_reversed : decodeTableWord 72 0x041800000121070F3A = none := by decide

/-! ### System operations -/

/-- V-SYS-7. -/
theorem test_reset : after (exec .reset { openA with pecAcc := 0x93, tagCtr := 5, cfgSrcEid := 8 }) =
    { State.reset with result := [.ok .unit] } := by decide
/-- V-SYS-3. -/
theorem test_cfgWrite : after (exec (.cfgWrite 0 0xFF) State.reset) =
    { State.reset with cfgDestAddr := 0xFF, result := [.ok .unit] } := by decide
/-- V-SYS-4. -/
theorem test_cfgWrite_tag_counter : after (exec (.cfgWrite 3 5) State.reset) =
    { State.reset with result := [.error { code := .usage, info := .operand .sel }] } := by decide
/-- V-SYS-5. -/
theorem test_cfgRead : results (exec (.cfgRead 3) { State.reset with tagCtr := 7 }) = [.ok (.byte 7)] := by decide
/-- V-SYS-5: the counter wraps. -/
theorem test_nextTag : after (exec .nextTag { State.reset with tagCtr := 7 }) =
    { State.reset with tagCtr := 0, result := [.ok (.tag 7)] } := by decide
/-- V-SYS-6. -/
theorem test_unassigned_code : (results (step (issue (.command [0x04])))).map
    (fun r => match r with | .error e => some e.code | .ok _ => none) = [some ErrCode.usage] := by decide

/-! ### Integrity -/

/-- V-PEC-9. -/
theorem test_pecCalc : results (exec (.pecCalc [0x31, 0x32, 0x33, 0x34, 0x35, 0x36, 0x37, 0x38, 0x39]) State.reset) =
    [.ok (.byte 0xF4)] := by decide +kernel
/-- R111. -/
theorem test_pecInit : (after (exec .pecInit { State.reset with pecAcc := 0x93 })).pecAcc = 0x00 := by decide
/-- V-ACC-9, and R112's second example. -/
theorem test_pecUpdate : (after (exec (.pecUpdate 0x00) { State.reset with pecAcc := 0xFF })).pecAcc = 0xF3 ∧
    (after (exec (.pecUpdate 0x0F) { State.reset with pecAcc := 0xA6 })).pecAcc = 0x56 := by decide +kernel
/-- V-ACC-3. -/
theorem test_pecRead : after (exec .pecRead { State.reset with pecAcc := 0x93 }) =
    { State.reset with pecAcc := 0x93, result := [.ok (.byte 0x93)] } := by decide
/-- V-MIC-9. -/
theorem test_micCalc : results (exec (.micCalc [0x31, 0x32, 0x33, 0x34, 0x35, 0x36, 0x37, 0x38, 0x39]) State.reset) =
    [.ok (.word 0xE3069283)] := by decide +kernel
/-- R114. -/
theorem test_micInit : (after (exec .micInit { State.reset with micAcc := 5 })).micAcc = 0xFFFFFFFF := by decide
/-- V-ACC-10 and V-ACC-5. -/
theorem test_micUpdate : (after (exec (.micUpdate 0x01) { State.reset with micAcc := 0 })).micAcc = 0xF26B8303 ∧
    (after (exec (.micUpdate 0x84) State.reset)).micAcc = 0xE8EE00C9 := by decide +kernel
/-- V-ACC-6. -/
theorem test_micRead : after (exec .micRead { State.reset with micAcc := 0x1CF96D7C }) =
    { State.reset with micAcc := 0x1CF96D7C, result := [.ok (.word 0xE3069283)] } := by decide
/-- V-MIC-7: the fixed residue. -/
theorem test_mic_residue : mic [0x84, 0x01, 0x01, 0x00, 0x00, 0x1F, 0x25, 0x91, 0xB3] = 0x48674BC7 := by decide +kernel

/-! ### Framer -/

/-- V-BLD-6: a tag wider than 3 bits. -/
theorem test_buildSingle :
    results (exec (.buildSingle 0x3A 0x21 0x1D 0x08 0x0D 0x7E [0xDE, 0xAD, 0xBE, 0xEF] true) State.reset) =
      [.ok (.packet [0x3A, 0x0F, 0x0E, 0x21, 0x01, 0x1D, 0x08, 0xCD, 0xFE, 0xDE, 0xAD, 0xBE, 0xEF, 0x73, 0x4B, 0xB0, 0x64,
        0x35])] := by decide +kernel
/-- V-BLD-9. -/
theorem test_buildSingle_too_long :
    after (exec (.buildSingle 0x3A 0x21 0 0 0 0x04 (List.replicate 121 0) false) State.reset) =
      { State.reset with result := [.error { code := .usage, info := .operand .payload }] } := by decide +kernel
/-- V-BF-Ci, with V-BF-U3's `seq` = 6. -/
theorem test_buildFragment :
    results (exec (.buildFragment 0x3A 0x21 0 0 0x04 true false true 6 0 [0x13, 0x14] (some 0xA1FFA092)) State.reset) =
      [.ok (.packet pktCi)] := by decide +kernel
/-- V-BF-U1. -/
theorem test_buildFragment_no_mic :
    results (exec (.buildFragment 0x3A 0x21 0 0 0x04 true false true 2 0 [0x13, 0x14] none) State.reset) =
      [.error { code := .usage, info := .operand .micIn }] := by decide
/-- V-PRS-21. -/
theorem test_parse :
    results (exec (.parse [0x3A, 0x0F, 0x0B, 0x21, 0x01, 0x00, 0x00, 0x58, 0x84, 0xCC, 0x78, 0x56, 0x34, 0x12, 0x4D])
      State.reset) =
      [.ok (.frame { destAddr := 0x3A, byteCount := 0x0B, srcAddr := 0x21, version := 1, destEid := 0, srcEid := 0, som := false,
                     eom := true, toBit := true, seq := 1, tag := 0, ic := true, msgType := 0x04, payload := [0xCC],
                     mic := some 0x12345678, micOk := none, pecOk := true })] := by decide +kernel
/-- V-PRS-18: the first check that fails decides. -/
theorem test_parse_first_check :
    results (exec (.parse [0x3A, 0x0E, 0x0A, 0x21, 0x02, 0x00, 0x00, 0xC8, 0x04, 0x01, 0x01, 0x00, 0x00, 0xFF]) State.reset) =
      [.error { code := .wrongCommandCode, info := .offset 1 }] := by decide +kernel

/-! ### Fragmenter -/

/-- P5, step 10. -/
theorem test_buildFragmented :
    after (exec (.buildFragmented 0x1D 0x04 [0x01, 0x01, 0x00, 0x00] false) { State.reset with cfgSrcEid := 0x08, tagCtr := 7 }) =
      { State.reset with
        cfgSrcEid := 0x08
        tagCtr := 0
        result := [.ok (.fragmented
          { totalLen := 4
            fragments := [{ index := 0, seq := 0, som := true, eom := true, packet :=
              [0x3A, 0x0F, 0x0A, 0x21, 0x01, 0x1D, 0x08, 0xCF, 0x04, 0x01, 0x01, 0x00, 0x00, 0x76] }] })] } := by
  decide +kernel
/-- P5, step 11. -/
theorem test_buildFragmented_empty :
    results (exec (.buildFragmented 0x1D 0x04 [] true) { State.reset with cfgSrcEid := 0x08 }) =
      [.ok (.fragmented
        { totalLen := 0
          fragments := [{ index := 0, seq := 0, som := true, eom := true, packet :=
            [0x3A, 0x0F, 0x0A, 0x21, 0x01, 0x1D, 0x08, 0xC8, 0x84, 0x36, 0xFF, 0x11, 0x17, 0x92] }] })] := by decide +kernel

/-! ### Reassembler -/

/-- V-RSM-2. -/
theorem test_tick_in_time : after (exec (.tick 1100) openAB) = { openAB with result := [.ok .unit] } := by decide
/-- V-RSM-3. -/
theorem test_tick_late : results (exec (.tick 1101) openAB) = [.error { code := .missingEom, info := .nothing }] ∧
    (after (exec (.tick 1101) openAB)).rxState = .idle ∧ (after (exec (.tick 1101) openAB)).rxBuf = [] := by decide
/-- R162, lines 13 to 18. -/
theorem test_reasm : after (exec (.reasm 1005 (frame false false 1 false none)) openA) =
    { openAB with result := [.ok .pending] } := by decide
/-- V-RSM-10: another key, here TO = 0. -/
theorem test_reasm_other_key : after (exec (.reasm 1004 { frame true false 0 false none with toBit := false }) openA) =
    { openA with result := [.error { code := .tagMismatch, info := .nothing }] } := by decide
/-- V-RSM-2: the last packet exactly in time. -/
theorem test_rxPacket : results (exec (.rxPacket 1100 pktC) openAB) = [.ok (.complete (messageABC false))] := by decide +kernel
/-- V-RSM-4: the last packet too late. -/
theorem test_rxPacket_late : results (exec (.rxPacket 1101 pktC) openAB) =
    [.error { code := .missingEom, info := .nothing }, .error { code := .sequenceGap, info := .nothing }] := by decide +kernel

/-! ### Packet classes (log 3) -/

/-- V-RSM-9. -/
theorem test_pktSingle : results (exec (.pktSingle 1005 (head 7 0) [0x99, 0xE1]) openA) =
    [.error { code := .unexpectedSom, info := .nothing },
      .ok (.complete { messageABC false with payload := [0x99] })] := by decide +kernel
/-- V-BLD-2, received. -/
theorem test_pktSingleIc :
    results (exec (.pktSingleIc 0 (head 0x0E 0) [0x01, 0x01, 0x00, 0x00, 0x1F, 0x25, 0x91, 0xB3, 0x9E]) State.reset) =
      [.ok (.complete { messageABC true with payload := [0x01, 0x01, 0x00, 0x00] })] := by decide +kernel
/-- V-RSM-2, first row. -/
theorem test_pktFirst : after (exec (.pktFirst 1000 (head 8 0) [0x10, 0x11, 0xE7]) State.reset) =
    { openA with result := [.ok .pending] } := by decide +kernel
/-- V-RSM-13, first row. -/
theorem test_pktFirstIc : after (exec (.pktFirstIc 1000 (head 8 0) [0x10, 0x11, 0xEC]) State.reset) =
    { openA with rxMsg := 0x84, result := [.ok .pending] } := by decide +kernel
/-- V-RSM-2, second packet; V-RSM-7: the same packet again. -/
theorem test_pktMiddle : after (exec (.pktMiddle 1005 (head 7 1) [0x12, 0x76]) openA) =
      { openAB with result := [.ok .pending] } ∧
    results (exec (.pktMiddle 1010 (head 7 1) [0x12, 0x76]) openAB) =
      [.error { code := .sequenceGap, info := .nothing }] := by decide +kernel
/-- V-RSM-13, second row. -/
theorem test_pktMiddleIc : after (exec (.pktMiddleIc 1005 (head 7 1) [0x12, 0xC0]) { openA with rxMsg := 0x84 }) =
    { openABi with result := [.ok .pending] } := by decide +kernel
/-- V-RSM-1 and V-RSM-15: a message that declared IC, its last packet without. -/
theorem test_pktLast : results (exec (.pktLast 1010 (head 8 2) [0x13, 0x14, 0xA7]) openAB) =
      [.ok (.complete (messageABC false))] ∧
    results (exec (.pktLast 1010 (head 8 2) [0x13, 0x14, 0xA7]) openABi) =
      [.error { code := .badMic, info := .nothing }] := by decide +kernel
/-- V-RSM-13 and V-RSM-14: one bit of the MIC wrong. -/
theorem test_pktLastIc :
    results (exec (.pktLastIc 1010 (head 0x0C 2) [0x13, 0x14, 0x92, 0xA0, 0xFF, 0xA1, 0xC2]) openABi) =
      [.ok (.complete (messageABC true))] ∧
    results (exec (.pktLastIc 1010 (head 0x0C 2) [0x13, 0x14, 0x93, 0xA0, 0xFF, 0xA1, 0xD4]) openABi) =
      [.error { code := .badMic, info := .nothing }] := by decide +kernel

/-! ### Witnesses: concrete states and operands that meet the hypotheses of each statement, at the boundaries of its clauses -/

/-- A fragmented message of any payload exists in any state. -/
theorem fragmented_exists (de : Byte) (mt : BitVec 7) (payload : List Byte) (ic : Bool) (s : State) :
    ∃ t m, exec (.buildFragmented de mt payload ic) s = .next t ∧ t.result = [.ok (.fragmented m)] ∧
      m.fragments.length = fragmentCount payload.length := by
  refine ⟨_, _, by rw [exec, execBuildFragmented, fragmentMessage_ok], rfl, ?_⟩
  simp

theorem witness_ResetLeavesSpecifiedState : ∃ t, exec .reset openA = .next t := ⟨_, rfl⟩

theorem witness_TagCounterCountsDraws :
    (∀ i ∈ [Instr.nextTag, .buildFragmented 0 0x04 [] false], i ≠ .reset) ∧
    ∃ t, runAll [Instr.nextTag, .buildFragmented 0 0x04 [] false] { State.reset with tagCtr := 7 } = .next t :=
  ⟨by decide, _, rfl⟩

theorem witness_PecLaws : ([0x3A, 0x0F] : List Byte).length = ([0xC8, 0x04] : List Byte).length ∧
    1 < ([0x3A, 0x0F] : List Byte).length ∧ 7 < 8 := by decide

theorem witness_MicLaws : 1 < ([0x84, 0x01] : List Byte).length ∧ 7 < 8 := by decide

theorem witness_PecAccumulatorWrites : State.reset.pecAcc = 0x00 := rfl

theorem witness_BuildSingleReturnsPacket :
    (List.replicate 120 (0 : Byte)).length ≤ 120 ∧ 120 < (List.replicate 121 (0 : Byte)).length := by decide +kernel

theorem witness_BuildFragmentReturnsPacket :
    120 < (List.replicate 121 (0 : Byte)).length ∧ (List.replicate 120 (0 : Byte)).length ≤ 120 ∧
    (true = true ∧ true = true ∧ false = false ∧ (none : Option Word32) = none) ∧
    (some (0xA1FFA092 : Word32) = some 0xA1FFA092) ∧ (false = false ∨ true = false) ∧ (true = false ∨ false = false) := by
  decide +kernel

/-- Lengths 257, 9, 10; then V-PRS-4, -5, -6, -8, -10, -13, -1, -17, -21, -15, -23, one for each clause; V-BLD-4. -/
theorem witness_ParseFollowsNumberedChecks :
    256 < (List.replicate 257 (0 : Byte)).length ∧ (pktS1.take 9).length < 10 ∧
    results (exec (.parse [0x3A, 0x0E, 0x0A, 0x21, 0x01, 0x00, 0x00, 0xC8, 0x04, 0x01]) State.reset) =
      [.error { code := .wrongCommandCode, info := .offset 1 }] ∧
    results (exec (.parse (pktS1.set 2 0x0B)) State.reset) = [.error { code := .shortPacket, info := .offset 2 }] ∧
    results (exec (.parse (pktS1.set 2 0x09)) State.reset) = [.error { code := .badByteCount, info := .offset 2 }] ∧
    results (exec (.parse (pktS1.set 4 0x11)) State.reset) = [.error { code := .reservedBitsSet, info := .offset 4 }] ∧
    results (exec (.parse (pktS1.set 4 0x02)) State.reset) = [.error { code := .badVersion, info := .offset 4 }] ∧
    results (exec (.parse (pktS1.set 13 0xB2)) State.reset) = [.error { code := .badPec, info := .offset 13 }] ∧
    results (exec (.parse [0x3A, 0x0F, 0x09, 0x21, 0x01, 0x00, 0x00, 0xC8, 0x84, 0x01, 0x02, 0x03, 0x82]) State.reset) =
      [.error { code := .shortPacket, info := .nothing }] ∧
    results (exec (.parse (pktS2.set 13 0x1E |>.set 17 0x88)) State.reset) =
      [.error { code := .badMic, info := .offset 13 }] ∧
    [pktS1, pktCi, pktS2, [0x3A, 0x0F, 0x0A, 0x21, 0x01, 0x00, 0x00, 0xC8, 0x84, 0x36, 0xFF, 0x11, 0x17, 0x88]].map
        (fun b => (parsePacket b).toOption.map fun f => (f.payload, f.mic, f.micOk)) =
      [some ([0x01, 0x01, 0x00, 0x00], none, none), some ([0x13, 0x14], some 0xA1FFA092, none),
        some ([0x01, 0x01, 0x00, 0x00], some 0xB391251F, some true), some ([], some 0x1711FF36, some true)] := by
  decide +kernel

/-- V-PRS-1 as a frame. -/
def frameS1 : ParsedFrame :=
  { destAddr := 0x3A, byteCount := 0x0A, srcAddr := 0x21, version := 1, destEid := 0, srcEid := 0, som := true, eom := true,
    toBit := true, seq := 0, tag := 0, ic := false, msgType := 0x04, payload := [0x01, 0x01, 0x00, 0x00], mic := none,
    micOk := none, pecOk := true }

theorem parse_pktS1 : parsePacket pktS1 = .ok frameS1 := by decide +kernel

theorem exec_parse_pktS1 (s : State) : exec (.parse pktS1) s = .next { s with result := [.ok (.frame frameS1)] } := by
  rw [exec, execParse, parse_pktS1]; rfl

theorem witness_PacketsHaveFrameLayout :
    (∃ b, exec (.buildFragment 0x3A 0x21 0 0 0x04 true false true 2 0 [0x13, 0x14] (some 5)) State.reset =
      .next { State.reset with result := [.ok (.packet b)] }) ∧
    exec (.parse pktS1) State.reset = .next { State.reset with result := [.ok (.frame frameS1)] } :=
  ⟨⟨_, rfl⟩, exec_parse_pktS1 _⟩

theorem witness_BuildThenParseRoundTrip : (List.replicate 120 (0 : Byte)).length ≤ 120 := by decide +kernel

theorem witness_ParseThenBuildRoundTrip :
    exec (.parse pktS1) State.reset = .next { State.reset with result := [.ok (.frame frameS1)] } ∧ frameS1.som = true ∧
    frameS1.eom = true ∧ frameS1.seq = 0 ∧ frameS1.toBit = true ∧ frameS1.payload.length ≤ 120 :=
  ⟨exec_parse_pktS1 _, by decide⟩

/-- Every byte index of S1, and the bits where the clauses of byte 4 meet. -/
theorem witness_SingleBitFlipIsReported :
    exec (.parse pktS1) State.reset = .next { State.reset with result := [.ok (.frame frameS1)] } ∧
    (∀ i ∈ [0, 1, 2, 3, 4, 5, 13], i < pktS1.length) ∧ (∀ k ∈ [0, 3, 4, 7], k < 8) :=
  ⟨exec_parse_pktS1 _, by decide⟩

/-- Payloads of 0, 120, 121 and 240 bytes. -/
theorem witness_FragmentsPartitionPayload : ∀ n ∈ [0, 120, 121, 240], ∃ t m,
    exec (.buildFragmented 0x09 0x04 (List.replicate n 0) true) State.reset = .next t ∧
    t.result = [.ok (.fragmented m)] ∧ m.fragments.length = fragmentCount (List.replicate n (0 : Byte)).length :=
  fun _ _ => fragmented_exists ..

theorem witness_FragmentHeadersKeepInvariants : ∃ t m,
    exec (.buildFragmented 0x09 0x04 (List.replicate 121 0) true) State.reset = .next t ∧
    t.result = [.ok (.fragmented m)] ∧ (∃ f, m.fragments[1]? = some f) := by
  obtain ⟨t, m, h, hr, hl⟩ := fragmented_exists 0x09 0x04 (List.replicate 121 0) true State.reset
  refine ⟨t, m, h, hr, _, List.getElem?_eq_getElem ?_⟩
  rw [hl, List.length_replicate]; decide

/-- While idle; 999 before the start at 1000; 1000 and 1100 in time; 1101 late. -/
theorem witness_TickEnforcesDeadline :
    State.reset.rxState = .idle ∧ openA.rxState = .active ∧ 999 < openA.rxT0 ∧ openA.rxT0 ≤ 1000 ∧
    1100 ≤ openA.rxT0 + 100 ∧ openA.rxT0 + 100 < 1101 := by decide

/-- In time at both ends of the deadline. -/
theorem witness_InTime : InTime openA 1000 ∧ InTime openA 1100 ∧ ¬ InTime openA 999 ∧ ¬ InTime openA 1101 := by
  unfold InTime; decide

/-- A key that differs in each of its three components. -/
theorem witness_ReasmDropsOtherKey :
    InTime openA 1100 ∧ ({ srcEid := 9, tag := 0, toBit := true } : RxKey) ≠ openA.rxKey ∧
    ({ srcEid := 0, tag := 1, toBit := true } : RxKey) ≠ openA.rxKey ∧
    ({ srcEid := 0, tag := 0, toBit := false } : RxKey) ≠ openA.rxKey ∧ State.reset.rxState = .idle := by
  unfold InTime; decide

/-- The key of `frame` is the key of `openA`. -/
theorem frame_key (som eom : Bool) (seq : BitVec 2) (ic : Bool) (m : Option Word32) :
    ({ srcEid := (frame som eom seq ic m).srcEid, tag := (frame som eom seq ic m).tag,
       toBit := (frame som eom seq ic m).toBit } : RxKey) = openA.rxKey := rfl

theorem witness_ReasmSomStartsMessage :
    (frame true false 2 false none).som = true ∧ (frame true false 2 false none).eom = false ∧
    State.reset.rxState = .idle ∧ InTime openA 1100 ∧
    ({ srcEid := (frame true false 2 false none).srcEid, tag := (frame true false 2 false none).tag,
       toBit := (frame true false 2 false none).toBit } : RxKey) = openA.rxKey := by
  unfold InTime; decide

/-- Idle, and open with the same key; with and without IC, the MIC right and absent (`mic([84 12])`). -/
theorem witness_ReasmSinglePacketCompletes :
    (frame true true 0 true none).som = true ∧ (frame true true 0 true none).eom = true ∧ State.reset.rxState = .idle ∧
    InTime openA 1000 ∧ (frame true true 0 false none).ic = false ∧
    isNext (exec (.reasm 1000 (frame true true 0 true (some (mic [0x84, 0x12])))) openA) = true := by
  unfold InTime; decide +kernel

theorem witness_ReasmIdleDropsNonSom : (frame false true 1 false none).som = false ∧ State.reset.rxState = .idle := by decide

/-- The seq before, and the seq after, the one expected; and wrapping from 3. -/
theorem witness_ReasmSequenceGapAbandons :
    InTime openA 1100 ∧ (frame false true 0 false none).som = false ∧
    (frame false true 0 false none).seq.toNat ≠ (openA.rxSeq.toNat + 1) % 4 ∧
    (frame false true 2 false none).seq.toNat ≠ (openA.rxSeq.toNat + 1) % 4 := by
  unfold InTime; decide

theorem witness_ReasmAppendsChunk :
    InTime openA 1100 ∧ (frame false false 1 false none).som = false ∧ (frame false false 1 false none).eom = false ∧
    (frame false false 1 false none).seq.toNat = (openA.rxSeq.toNat + 1) % 4 ∧
    (frame false false 0 false none).seq.toNat = (({ openA with rxSeq := 3 } : State).rxSeq.toNat + 1) % 4 := by
  unfold InTime; decide

theorem witness_ReasmLastPacketCompletes :
    InTime openA 1100 ∧ (frame false true 1 true (some 0)).som = false ∧ (frame false true 1 true (some 0)).eom = true ∧
    (frame false true 1 true (some 0)).seq.toNat = (openA.rxSeq.toNat + 1) % 4 := by
  unfold InTime; decide

/-- 101 ms after the start, for each operation that takes a packet. -/
theorem witness_ExpiredContextIsReportedFirst :
    (∀ i ∈ [Instr.reasm 1101 frameS1, .rxPacket 1101 pktC, .pktSingle 1101 (head 7 0) [0x99, 0xE1],
      .pktSingleIc 1101 (head 7 0) [0], .pktFirst 1101 (head 7 0) [0], .pktFirstIc 1101 (head 7 0) [0],
      .pktMiddle 1101 (head 7 0) [0], .pktMiddleIc 1101 (head 7 0) [0], .pktLast 1101 (head 7 0) [0],
      .pktLastIc 1101 (head 7 0) [0]], receives i = true ∧ timeOf i = some 1101) ∧
    openA.rxState = .active ∧ openA.rxT0 + 100 < 1101 := by decide +kernel

/-- A packet that parses; one that does not, while idle, at 1100 and at 1101 (V-RSM-12's B'). -/
theorem witness_RxPacketParsesThenReassembles :
    exec (.parse pktS1) openA = .next { openA with result := [.ok (.frame frameS1)] } ∧
    exec (.parse (pktB.set 10 0x77)) openA =
      .next { openA with result := [.error { code := .badPec, info := .offset 10 }] } ∧
    State.reset.rxState = .idle ∧ InTime openA 1100 ∧ openA.rxState = .active ∧ openA.rxT0 + 100 < 1101 := by
  refine ⟨exec_parse_pktS1 _, ?_, by decide, by unfold InTime; decide, by decide, by decide⟩
  have h : parsePacket (pktB.set 10 0x77) = .error { code := .badPec, info := .offset 10 } := by decide +kernel
  rw [exec, execParse, h]; rfl

/-- One outcome (V-RSM-2), and the two-element lists of V-RSM-4 and V-RSM-9. -/
theorem witness_OutcomeListShape :
    receives (.rxPacket 1100 pktC) = true ∧ (results (exec (.rxPacket 1100 pktC) openAB)).length = 1 ∧
    (results (exec (.rxPacket 1101 pktC) openAB)).length = 2 ∧
    (results (exec (.rxPacket 1005 pktS) openA)).length = 2 := by decide +kernel

/-- Two fragments, the second exactly 100 ms after the first; and one fragment. -/
theorem witness_FragmentThenReassembleRoundTrip :
    State.reset.rxState = .idle ∧
    (∃ t m, exec (.buildFragmented 0x09 0x04 (List.replicate 121 0) true) State.reset = .next t ∧
      t.result = [.ok (.fragmented m)] ∧ [5, 105].length = m.fragments.length) ∧
    (∃ t m, exec (.buildFragmented 0x09 0x04 [] true) State.reset = .next t ∧
      t.result = [.ok (.fragmented m)] ∧ [5].length = m.fragments.length) ∧
    [5, 105].Pairwise (· ≤ ·) ∧ (∀ a ∈ [5, 105], a ≤ [5, 105].headD 0 + 100) := by
  obtain ⟨t, m, h, hr, hl⟩ := fragmented_exists 0x09 0x04 (List.replicate 121 0) true State.reset
  obtain ⟨t', m', h', hr', hl'⟩ := fragmented_exists 0x09 0x04 [] true State.reset
  rw [List.length_replicate] at hl
  exact ⟨rfl, ⟨t, m, h, hr, hl ▸ rfl⟩, ⟨t', m', h', hr', hl' ▸ rfl⟩, by decide, by decide⟩

/-- The buffer holds two bytes and the frame one. The next packet exceeds capacity 2; a SOM packet exceeds capacity 0 while idle,
late, and with the same key. -/
theorem witness_FiniteCapacityRefuses :
    ExceedsCapacity 2 1100 (frame false false 1 false none) openA ∧
    ExceedsCapacity 0 0 (frame true true 0 false none) State.reset ∧
    ExceedsCapacity 0 1101 (frame true true 0 false none) openA ∧
    ExceedsCapacity 0 1000 (frame true true 0 false none) openA ∧ openA.rxBuf.length ≤ 3 ∧
    isNext (reassemble (some 3) 1100 (frame false false 1 false none) openA) = true := by
  unfold ExceedsCapacity SameKey InTime; decide

/-- The next packet fits capacity 3, and a SOM packet fits capacity 1, whatever the old buffer holds; and capacity 0 is not
exceeded by a packet that is dropped: of another key, without SOM while idle, of the wrong seq, without SOM when late. -/
theorem witness_FiniteCapacityRefuses_fits :
    ¬ ExceedsCapacity 3 1100 (frame false false 1 false none) openA ∧
    ¬ ExceedsCapacity 1 1100 (frame true false 0 false none) openA ∧
    ¬ ExceedsCapacity 0 1100 { frame true false 0 false none with tag := 1 } openA ∧
    ¬ ExceedsCapacity 0 0 (frame false false 1 false none) State.reset ∧
    ¬ ExceedsCapacity 0 1100 (frame false false 2 false none) openA ∧
    ¬ ExceedsCapacity 0 1101 (frame false false 1 false none) openA := by
  unfold ExceedsCapacity SameKey InTime
  refine ⟨?_, ?_, ?_, ?_, ?_, ?_⟩ <;> decide

/-- Packets A and Ai while idle. -/
theorem witness_FirstPacketOpensContext :
    SoundPacket (classBytes true false false (head 8 0) [0x10, 0x11, 0xE7]) ∧
    SoundPacket (classBytes true false true (head 8 0) [0x10, 0x11, 0xEC]) ∧ State.reset.rxState = .idle := by
  unfold SoundPacket; decide +kernel

/-- Packets B and Bi after A and Ai. -/
theorem witness_MiddlePacketAppends :
    SoundPacket (classBytes false false false (head 7 1) [0x12, 0x76]) ∧
    SoundPacket (classBytes false false true (head 7 1) [0x12, 0xC0]) ∧ InTime openA 1100 ∧
    ({ srcEid := (head 7 1).srcEid, tag := (head 7 1).tag, toBit := (head 7 1).toBit } : RxKey) = openA.rxKey ∧
    (head 7 1).seq.toNat = (openA.rxSeq.toNat + 1) % 4 := by
  unfold SoundPacket InTime; decide +kernel

/-- Packets C and Ci after A, B and Ai, Bi. -/
theorem witness_LastPacketCompletes :
    SoundPacket (classBytes false true false (head 8 2) ([0x13, 0x14] ++ [] ++ [0xA7])) ∧ openAB.rxMsg.toNat < 128 ∧
    SoundPacket (classBytes false true true (head 0x0C 2)
      ([0x13, 0x14] ++ micWire (mic (openABi.rxMsg :: (openABi.rxBuf ++ [0x13, 0x14]))) ++ [0xC2])) ∧
    InTime openAB 1100 ∧ InTime openABi 1100 ∧
    ({ srcEid := (head 8 2).srcEid, tag := (head 8 2).tag, toBit := (head 8 2).toBit } : RxKey) = openAB.rxKey ∧
    ({ srcEid := (head 0x0C 2).srcEid, tag := (head 0x0C 2).tag, toBit := (head 0x0C 2).toBit } : RxKey) = openABi.rxKey ∧
    (head 8 2).seq.toNat = (openAB.rxSeq.toNat + 1) % 4 ∧ (head 0x0C 2).seq.toNat = (openABi.rxSeq.toNat + 1) % 4 := by
  unfold SoundPacket InTime; decide +kernel

/-- Packet S and V-BLD-2 while idle. -/
theorem witness_SinglePacketCompletes :
    SoundPacket (classBytes true true false (head 7 0) ([0x99] ++ [] ++ [0xE1])) ∧
    SoundPacket (classBytes true true true (head 0x0E 0) ([0x01, 0x01, 0x00, 0x00] ++
      micWire (mic (msgValue true (head 0x0E 0).msgType :: [0x01, 0x01, 0x00, 0x00])) ++ [0x9E])) ∧
    State.reset.rxState = .idle := by
  unfold SoundPacket; decide +kernel

/-- At the start, in time; before it, not; and an operation without a time. -/
theorem witness_OnlyBackwardTimeIsRefused :
    TimeOk (.tick 1000) openA ∧ ¬ TimeOk (.tick 999) openA ∧ TimeOk (.tick 0) State.reset ∧ TimeOk .nextTag openA := by
  refine ⟨?_, ?_, ?_, ?_⟩
  · intro now h _; cases h; decide
  · intro h; exact absurd (h 999 rfl rfl) (by decide)
  · intro now _ h; cases h
  · intro now h; cases h

theorem witness_SideEffectsAreExactlyListed : ∀ i ∈ [Instr.pecCalc [], .micCalc [], .pecRead, .micRead,
    .buildSingle 0 0 0 0 0 0 [] false, .buildFragment 0 0 0 0 0 true false true 0 0 [] none, .parse [], .cfgRead 3],
    isPure i = true := by decide

/-- Each register changed by an operation that is not `RESET`. -/
theorem witness_RegistersChangeOnlyByTheirWriters :
    (after (exec (.pecUpdate 1) State.reset)).pecAcc ≠ State.reset.pecAcc ∧
    (after (exec (.micUpdate 1) State.reset)).micAcc ≠ State.reset.micAcc ∧
    (after (exec (.cfgWrite 0 1) State.reset)).cfgDestAddr ≠ State.reset.cfgDestAddr ∧
    (after (exec (.cfgWrite 1 1) State.reset)).cfgSrcAddr ≠ State.reset.cfgSrcAddr ∧
    (after (exec (.cfgWrite 2 1) State.reset)).cfgSrcEid ≠ State.reset.cfgSrcEid ∧
    (after (exec .nextTag State.reset)).tagCtr ≠ State.reset.tagCtr ∧
    (after (exec (.tick 1101) openA)).rxState ≠ openA.rxState ∧ (after (exec (.tick 1101) openA)).rxBuf ≠ openA.rxBuf ∧
    (after (exec (.reasm 1 { frame true false 2 false none with srcEid := 9, destEid := 1 }) State.reset)).rxKey ≠
      State.reset.rxKey ∧
    (after (exec (.reasm 1 (frame true false 2 false none)) State.reset)).rxT0 ≠ State.reset.rxT0 := by decide +kernel

theorem witness_FrameOperationsIgnoreAccumulators :
    ignoresAccumulators (.tick 0) = false ∧ ignoresAccumulators (.pecCalc [1]) = true ∧
    ignoresAccumulators (.reasm 999 frameS1) = true ∧ isNext (exec (.pecCalc [1]) openA) = true ∧
    exec (.reasm 999 frameS1) openA = .refused .timeBackwards :=
  ⟨by decide, by decide, by decide, by decide, rfl⟩

/-- Two idle states that differ in a context register; and an open one, refused. -/
theorem witness_IdleContextIsNeverRead :
    State.reset.visible = ({ State.reset with rxT0 := 5, rxSeq := 3 } : State).visible ∧
    State.reset ≠ { State.reset with rxT0 := 5, rxSeq := 3 } ∧ isNext (exec (.tick 0) State.reset) = true ∧
    exec (.tick 999) openA = .refused .timeBackwards :=
  ⟨rfl, by decide, rfl, rfl⟩

/-- An error that changes nothing, one that clears the context, one that leaves it idle, one that replaces it. -/
theorem witness_ErrorsChangeOnlyContext :
    results (exec (.cfgWrite 3 5) openA) = [.error { code := .usage, info := .operand .sel }] ∧
    results (exec (.tick 1101) openA) = [plainError .missingEom] ∧
    results (exec (.reasm 0 (frame false true 1 false none)) State.reset) = [plainError .sequenceGap] ∧
    results (exec (.reasm 1001 (frame true false 0 false none)) openA) = [plainError .unexpectedSom, .ok .pending] := by
  decide

theorem witness_StepRunsDecodedInstruction :
    (issue (.command [0x3A, 0x00])).issued = [.command [0x3A, 0x00]] ∧ decode (.command [0x3A, 0x00]) = .ok (.tick 0) := by
  decide

theorem witness_UnassignedCodeRaisesUsage :
    (0x04 : Byte).toNat ∉ [0x00, 0x01, 0x02, 0x03, 0x10, 0x11, 0x12, 0x13, 0x18, 0x19, 0x1A, 0x1B, 0x20, 0x21, 0x22, 0x30,
      0x38, 0x39, 0x3A] ∧ (issue (.command [0x04, 0xFF])).issued = [.command (0x04 :: [0xFF])] := by decide

theorem witness_NoInputNoChange : State.reset.issued = [] := rfl

/-- An open context, which meets the invariant, times out. -/
theorem witness_StepKeepsIdleBufferEmpty :
    IdleBufferEmpty { openA with issued := [.command [0x3A, 0xCD, 0x08]] } ∧
    isNext (step { openA with issued := [.command [0x3A, 0xCD, 0x08]] }) = true := by
  unfold IdleBufferEmpty; decide

theorem witness_DecodeInvertsEncode :
    (Instr.reasm 1000 { frameS1 with micOk := some true }).wellFormed = true ∧
    (Instr.pktMiddle 0 (head 7 1) [0x12, 0x76]).wellFormed = true := by decide

theorem witness_EncodeInvertsPacketDecode :
    decodePacketClass 3 pktB = some (.pktMiddle 3 (head 7 1) [0x12, 0x76]) := by decide

end Sys2Proof.Tests
end

section
/-! PROOF. What 00_scope.md says of the block as a whole: it acts on an input only. -/

namespace Sys2Proof.Proofs

open Sys2Proof Sys2Proof.Machine

/-- Settles O53: of the branches of `step`, the empty input list selects the one that answers the state itself. -/
theorem noInputNoChange : Obligations.NoInputNoChange := by
  unfold Obligations.NoInputNoChange
  intro s hissued
  rw [step, hissued]

end Sys2Proof.Proofs
end

section
/-! PROOF. What 10_state.md says of the registers: which operations write which (R20), who leaves the accumulators alone (R25),
the tag counter (R29), and the context while it is idle (R36, R45). The lemmas before the obligations say what an operation
can do to the state, once for the operations that take a time (the reassembler's) and once for the others. -/

namespace Sys2Proof.Proofs

open Sys2Proof Sys2Proof.Machine

/-! ### A state with another context, a state with other accumulators -/

/-- The state `s` with the seven context registers of `c`. -/
def withContext (c s : State) : State :=
  { s with
    rxState := c.rxState, rxKey := c.rxKey, rxDestEid := c.rxDestEid, rxMsg := c.rxMsg, rxSeq := c.rxSeq
    rxBuf := c.rxBuf, rxT0 := c.rxT0 }

/-- The state `s` with the accumulator values `p` and `m`. -/
def withAccumulators (p : Byte) (m : Word32) (s : State) : State := { s with pecAcc := p, micAcc := m }

theorem withAccumulators_self (s : State) : withAccumulators s.pecAcc s.micAcc s = s := rfl

theorem conclude_withContext (r : Except Err Value) (c s : State) :
    (withContext c s).conclude r = withContext c (s.conclude r) := by cases r <;> rfl

theorem conclude_withAccumulators (r : Except Err Value) (p : Byte) (m : Word32) (s : State) :
    (withAccumulators p m s).conclude r = withAccumulators p m (s.conclude r) := by cases r <;> rfl

/-! ### Two runs that answer alike -/

/-- Both outcomes are the same refusal, or both are next states, related by `R`. (The block has no fault.) -/
def AnswersAlike (R : State → State → Prop) (o o' : StepOutcome) : Prop :=
  (∃ r, o = .refused r ∧ o' = .refused r) ∨ ∃ u v, o = .next u ∧ o' = .next v ∧ R u v

theorem AnswersAlike.next_of_next {R : State → State → Prop} {o o' : StepOutcome} {u : State} (h : AnswersAlike R o o')
    (hu : o = .next u) : ∃ v, o' = .next v ∧ R u v := by
  subst hu
  obtain ⟨r, hr, -⟩ | ⟨u', v, hu', hv, hR⟩ := h
  · cases hr
  · cases hu'
    exact ⟨v, hv, hR⟩

theorem AnswersAlike.refused_of_refused {R : State → State → Prop} {o o' : StepOutcome} {r : Refusal}
    (h : AnswersAlike R o o') (hr : o = .refused r) : o' = .refused r := by
  subst hr
  obtain ⟨r', hr', ho'⟩ | ⟨u, v, hu, -, -⟩ := h
  · cases hr'
    exact ho'
  · cases hu

/-- A relation between the states of two runs that the reassembler cannot tell apart and cannot break: related states agree on
what it reads (the context, while it is open), and each of its four writes keeps them related. -/
structure RespectsContext (R : State → State → Prop) : Prop where
  rxState_eq : ∀ {s t}, R s t → t.rxState = s.rxState
  context_eq : ∀ {s t}, R s t → s.rxState = .active → withContext s t = t
  report : ∀ {s t}, R s t → ∀ rs, R (s.report rs) (t.report rs)
  clearContext : ∀ {s t}, R s t → R s.clearContext t.clearContext
  openContext : ∀ {s t}, R s t → ∀ f now, R (s.openContext f now) (t.openContext f now)
  appendChunk : ∀ {s t}, R s t → s.rxState = .active → ∀ f, R (s.appendChunk f) (t.appendChunk f)

namespace RespectsContext

variable {R : State → State → Prop} {s t : State}

/-- While the context is open, a function of the context alone has the same value in related states. -/
theorem read_eq (hR : RespectsContext R) (hst : R s t) (ha : s.rxState = .active) {α : Type} (read : State → α)
    (hread : read (withContext s t) = read s) : read t = read s := by
  rw [← hread, hR.context_eq hst ha]

theorem expired_eq (hR : RespectsContext R) (hst : R s t) (now : Time) : t.expired now = s.expired now := by
  cases hs : s.rxState with
  | idle => rw [State.expired_idle hs, State.expired_idle ((hR.rxState_eq hst).trans hs)]
  | active => exact hR.read_eq hst hs (State.expired · now) rfl

theorem timeBackwards_eq (hR : RespectsContext R) (hst : R s t) (now : Time) :
    t.timeBackwards now = s.timeBackwards now := by
  cases hs : s.rxState with
  | idle => rw [State.timeBackwards_idle hs, State.timeBackwards_idle ((hR.rxState_eq hst).trans hs)]
  | active => exact hR.read_eq hst hs (State.timeBackwards · now) rfl

theorem noticeExpiry_alike (hR : RespectsContext R) (hst : R s t) (now : Time) :
    (t.noticeExpiry now).1 = (s.noticeExpiry now).1 ∧ R (s.noticeExpiry now).2 (t.noticeExpiry now).2 := by
  have heq := hR.expired_eq hst now
  cases hs : s.expired now with
  | true => simpa [noticeExpiry_of_expired hs, noticeExpiry_of_expired (heq.trans hs)] using hR.clearContext hst
  | false => simpa [noticeExpiry_of_in_time hs, noticeExpiry_of_in_time (heq.trans hs)] using hst

/-- The packet that was taken into an open context is settled alike: the MIC and the message are read from the context. -/
theorem settlePacket_alike (hR : RespectsContext R) (hst : R s t) (ha : s.rxState = .active) (f : ParsedFrame) :
    (settlePacket f t).1 = (settlePacket f s).1 ∧ R (settlePacket f s).2 (settlePacket f t).2 := by
  have hmic : t.micAccepted f = s.micAccepted f := hR.read_eq hst ha (State.micAccepted f) rfl
  have hmessage : t.contextMessage = s.contextMessage := hR.read_eq hst ha State.contextMessage rfl
  simp only [settlePacket, finishMessage, hmic, hmessage]
  split_ifs
  · exact ⟨rfl, hR.clearContext hst⟩
  · exact ⟨rfl, hR.clearContext hst⟩
  · exact ⟨rfl, hst⟩

theorem startMessage_alike (hR : RespectsContext R) (hst : R s t) (now : Time) (f : ParsedFrame) :
    ∃ rs u v, startMessage none now f s = .ok (rs, u) ∧ startMessage none now f t = .ok (rs, v) ∧ R u v := by
  obtain ⟨hresult, hnext⟩ := hR.settlePacket_alike (hR.openContext hst f now) rfl f
  exact ⟨_, _, _, rfl, by simp [startMessage, fitsBuffer, hresult, hR.rxState_eq hst], hnext⟩

theorem continueMessage_alike (hR : RespectsContext R) (hst : R s t) (f : ParsedFrame) :
    ∃ rs u v, continueMessage none f s = .ok (rs, u) ∧ continueMessage none f t = .ok (rs, v) ∧ R u v := by
  have hstate := hR.rxState_eq hst
  cases hs : s.rxState with
  | idle =>
    exact ⟨[.error (.plain .sequenceGap)], s, t, if_pos hs, if_pos (hstate.trans hs), hst⟩
  | active =>
    have hidle : ¬ s.rxState = .idle := by simp [hs]
    have hseq : t.rxSeq = s.rxSeq := hR.read_eq hst hs State.rxSeq rfl
    obtain ⟨hresult, hsettled⟩ := hR.settlePacket_alike (hR.appendChunk hst hs f) hs f
    simp only [continueMessage, hstate, hseq, hresult, if_neg hidle, fitsBuffer, Bool.not_true,
      Bool.false_eq_true, if_false]
    split_ifs
    · exact ⟨_, _, _, rfl, rfl, hR.clearContext hst⟩
    · exact ⟨_, _, _, rfl, rfl, hsettled⟩

theorem acceptFrame_alike (hR : RespectsContext R) (hst : R s t) (now : Time) (f : ParsedFrame) :
    ∃ rs u v, acceptFrame none now f s = .ok (rs, u) ∧ acceptFrame none now f t = .ok (rs, v) ∧ R u v := by
  have hother : (t.rxState = .active ∧ frameKey f ≠ t.rxKey) = (s.rxState = .active ∧ frameKey f ≠ s.rxKey) := by
    rw [hR.rxState_eq hst]
    exact propext (and_congr_right fun ha => by rw [hR.read_eq hst ha State.rxKey rfl])
  simp only [acceptFrame, hother]
  split_ifs
  · exact ⟨_, s, t, rfl, rfl, hst⟩
  · exact hR.startMessage_alike hst now f
  · exact hR.continueMessage_alike hst f

theorem reassemble_alike (hR : RespectsContext R) (hst : R s t) (now : Time) (f : ParsedFrame) :
    AnswersAlike R (reassemble none now f s) (reassemble none now f t) := by
  obtain ⟨hnoticed, hexpired⟩ := hR.noticeExpiry_alike hst now
  obtain ⟨rs, u, v, hu, hv, huv⟩ := hR.acceptFrame_alike hexpired now f
  simp only [reassemble, hR.timeBackwards_eq hst, hnoticed, hu, hv]
  split_ifs
  · exact .inl ⟨_, rfl, rfl⟩
  · exact .inr ⟨_, _, rfl, rfl, hR.report huv _⟩

theorem receivePacket_alike (hR : RespectsContext R) (hst : R s t) (now : Time) (b : List Byte) :
    AnswersAlike R (receivePacket none now b s) (receivePacket none now b t) := by
  cases hp : parsePacket b with
  | ok f =>
    rw [receivePacket_of_ok hp, receivePacket_of_ok hp]
    exact hR.reassemble_alike hst now f
  | error e =>
    have hback := hR.timeBackwards_eq hst now
    cases hs : s.timeBackwards now with
    | true => exact .inl ⟨_, receivePacket_backwards hs none b, receivePacket_backwards (hback.trans hs) none b⟩
    | false =>
      obtain ⟨hnoticed, hexpired⟩ := hR.noticeExpiry_alike hst now
      rw [receivePacket_of_error hp none hs, receivePacket_of_error hp none (hback.trans hs), hnoticed]
      exact .inr ⟨_, _, rfl, rfl, hR.report hexpired _⟩

theorem execTick_alike (hR : RespectsContext R) (hst : R s t) (now : Time) :
    AnswersAlike R (execTick now s) (execTick now t) := by
  simp only [execTick, hR.timeBackwards_eq hst, hR.expired_eq hst]
  split_ifs
  · exact .inl ⟨_, rfl, rfl⟩
  · exact .inr ⟨_, _, rfl, rfl, hR.report (hR.clearContext hst) _⟩
  · exact .inr ⟨_, _, rfl, rfl, hR.report hst _⟩

/-- Every operation that takes a time is one of the reassembler's, so two runs of it from related states answer alike. -/
theorem exec_alike (hR : RespectsContext R) {i : Instr} {now : Time} (hi : timeOf i = some now) (hst : R s t) :
    AnswersAlike R (exec i s) (exec i t) := by
  cases i with
  | tick now => exact hR.execTick_alike hst now
  | reasm now f => exact hR.reassemble_alike hst now f
  | rxPacket | pktSingle | pktSingleIc | pktFirst | pktFirstIc | pktMiddle | pktMiddleIc | pktLast | pktLastIc =>
    exact hR.receivePacket_alike hst _ _
  | _ => cases hi

/-- A property of one state is the relation "the same state, with that property". -/
theorem of_predicate {P : State → Prop} (report : ∀ u rs, P u → P (u.report rs))
    (clearContext : ∀ u, P u → P u.clearContext) (openContext : ∀ u f now, P u → P (u.openContext f now))
    (appendChunk : ∀ u f, u.rxState = .active → P u → P (u.appendChunk f)) :
    RespectsContext fun u v => v = u ∧ P u where
  rxState_eq := by rintro s _ ⟨rfl, -⟩; rfl
  context_eq := by rintro s _ ⟨rfl, -⟩ -; rfl
  report := by rintro s _ ⟨rfl, hs⟩ rs; exact ⟨rfl, report _ rs hs⟩
  clearContext := by rintro s _ ⟨rfl, hs⟩; exact ⟨rfl, clearContext _ hs⟩
  openContext := by rintro s _ ⟨rfl, hs⟩ f now; exact ⟨rfl, openContext _ f now hs⟩
  appendChunk := by rintro s _ ⟨rfl, hs⟩ ha f; exact ⟨rfl, appendChunk _ f ha hs⟩

/-- What the reassembler's four writes keep, every operation that takes a time keeps. -/
theorem exec_keeps {P : State → Prop} (hP : RespectsContext fun u v => v = u ∧ P u) {i : Instr} {now : Time}
    (hi : timeOf i = some now) (hs : P s) (h : exec i s = .next t) : P t := by
  obtain ⟨_, -, -, ht⟩ := (hP.exec_alike hi ⟨rfl, hs⟩).next_of_next h
  exact ht

end RespectsContext

/-! ### The operations that take a time write the context alone -/

/-- `t` differs from `s` in the context and the outcome alone. -/
def SameOutsideContext (s t : State) : Prop := t = (withContext t s).report t.result

theorem SameOutsideContext.refl (s : State) : SameOutsideContext s s := rfl

theorem SameOutsideContext.eq {s t : State} (h : SameOutsideContext s t) : t = (withContext t s).report t.result := h

theorem sameOutsideContext_respectsContext (s : State) :
    RespectsContext fun u v => v = u ∧ SameOutsideContext s u :=
  .of_predicate (fun _ rs h => (congrArg (State.report rs) h.eq :)) (fun _ h => (congrArg State.clearContext h.eq :))
    (fun _ f now h => (congrArg (State.openContext f now) h.eq :))
    (fun _ f _ h => (congrArg (State.appendChunk f) h.eq :))

theorem exec_sameOutsideContext {i : Instr} {now : Time} {s t : State} (hi : timeOf i = some now)
    (h : exec i s = .next t) : SameOutsideContext s t :=
  (sameOutsideContext_respectsContext s).exec_keeps hi (.refl s) h

theorem SameOutsideContext.registers {s t : State} (h : SameOutsideContext s t) :
    t.pecAcc = s.pecAcc ∧ t.micAcc = s.micAcc ∧ t.cfgDestAddr = s.cfgDestAddr ∧ t.cfgSrcAddr = s.cfgSrcAddr ∧
      t.cfgSrcEid = s.cfgSrcEid ∧ t.tagCtr = s.tagCtr ∧ t.issued = s.issued :=
  ⟨(congrArg State.pecAcc h.eq :), (congrArg State.micAcc h.eq :), (congrArg State.cfgDestAddr h.eq :),
    (congrArg State.cfgSrcAddr h.eq :), (congrArg State.cfgSrcEid h.eq :), (congrArg State.tagCtr h.eq :),
    (congrArg State.issued h.eq :)⟩

theorem timeOf_of_receives {i : Instr} (h : receives i = true) : ∃ now, timeOf i = some now := by
  cases i with
  | reasm | rxPacket | pktSingle | pktSingleIc | pktFirst | pktFirstIc | pktMiddle | pktMiddleIc | pktLast | pktLastIc =>
    exact ⟨_, rfl⟩
  | _ => cases h

theorem receives_or_tick_of_timeOf {i : Instr} {now : Time} (h : timeOf i = some now) :
    receives i = true ∨ ∃ now, i = .tick now := by
  cases i with
  | tick now => exact .inr ⟨now, rfl⟩
  | reasm | rxPacket | pktSingle | pktSingleIc | pktFirst | pktFirstIc | pktMiddle | pktMiddleIc | pktLast | pktLastIc =>
    exact .inl rfl
  | _ => cases h

/-- `TICK` clears the context or leaves it alone (R161). -/
theorem exec_tick_cases {now : Time} {s t : State} (h : exec (.tick now) s = .next t) :
    t = s.clearContext.raise (.plain .missingEom) ∨ t = s.answer .unit := by
  change execTick now s = .next t at h
  unfold execTick at h
  split_ifs at h
  · exact .inl (by cases h; rfl)
  · exact .inr (by cases h; rfl)

/-! ### The other operations neither read nor write the context -/

/-- `CFG_WRITE` says once what it writes: the register its `sel` names, or nothing (R192). -/
theorem exec_cfgWrite_cases (sel : BitVec 2) (v : Byte) :
    (sel = 0 ∧ ∀ s, exec (.cfgWrite sel v) s = .next ({ s with cfgDestAddr := v }.answer .unit)) ∨
    (sel = 1 ∧ ∀ s, exec (.cfgWrite sel v) s = .next ({ s with cfgSrcAddr := v }.answer .unit)) ∨
    (sel = 2 ∧ ∀ s, exec (.cfgWrite sel v) s = .next ({ s with cfgSrcEid := v }.answer .unit)) ∨
    (∀ s, exec (.cfgWrite sel v) s = .next (s.raise (.badOperand .sel))) := by
  by_cases h0 : sel = 0
  · exact .inl ⟨h0, fun s => by subst h0; rfl⟩
  by_cases h1 : sel = 1
  · exact .inr (.inl ⟨h1, fun s => by subst h1; rfl⟩)
  by_cases h2 : sel = 2
  · exact .inr (.inr (.inl ⟨h2, fun s => by subst h2; rfl⟩))
  · exact .inr (.inr (.inr fun s => by simp only [exec, execCfgWrite, State.setCfg, if_neg h0, if_neg h1, if_neg h2]))

/-- An operation without a time, other than `RESET`, answers from the registers outside the context, and carries any context
along as it was. -/
theorem exec_withContext {i : Instr} (hi : timeOf i = none) (hreset : i ≠ .reset) (c s : State) :
    ∃ u, exec i s = .next u ∧ exec i (withContext c s) = .next (withContext c u) := by
  cases i with
  | reset => exact absurd rfl hreset
  | cfgWrite sel v =>
    obtain ⟨-, h⟩ | ⟨-, h⟩ | ⟨-, h⟩ | h := exec_cfgWrite_cases sel v <;> exact ⟨_, h s, h _⟩
  | buildSingle | buildFragment | parse =>
    exact ⟨_, rfl, congrArg Host.Outcome.next (conclude_withContext _ c s)⟩
  | buildFragmented => exact ⟨_, rfl, congrArg Host.Outcome.next (conclude_withContext _ c s.advanceTag)⟩
  | cfgRead | nextTag | pecCalc | pecInit | pecUpdate | pecRead | micCalc | micInit | micUpdate | micRead =>
    exact ⟨_, rfl, rfl⟩
  | _ => cases hi

/-- So the context it leaves is the one it found. -/
theorem exec_keeps_context {i : Instr} {s t : State} (hi : timeOf i = none) (hreset : i ≠ .reset)
    (h : exec i s = .next t) : withContext s t = t := by
  obtain ⟨u, hu, hu'⟩ := exec_withContext hi hreset s s
  cases hu.symm.trans h
  exact (Host.Outcome.next.inj (h.symm.trans hu')).symm

theorem eq_of_drawsTag {i : Instr} (h : drawsTag i = true) :
    i = .nextTag ∨ ∃ de mt p ic, i = .buildFragmented de mt p ic := by
  cases i with
  | nextTag => exact .inl rfl
  | buildFragmented => exact .inr ⟨_, _, _, _, rfl⟩
  | _ => cases h

/-- What an operation outside the reassembler, other than `RESET`, does to the state `s`: it answers and writes nothing, or it
writes one register, and then it is an operation that the table of R20 lists for that register. -/
inductive RegisterEffect (s : State) : Instr → State → Prop where
  | answer {i : Instr} (hi : drawsTag i = false) (r : Except Err Value) : RegisterEffect s i (s.conclude r)
  | pecAcc {i : Instr} (hi : i = .pecInit ∨ ∃ b, i = .pecUpdate b) (c : Byte) :
      RegisterEffect s i ({ s with pecAcc := c }.answer .unit)
  | micAcc {i : Instr} (hi : i = .micInit ∨ ∃ b, i = .micUpdate b) (c : Word32) :
      RegisterEffect s i ({ s with micAcc := c }.answer .unit)
  | cfgDestAddr (v : Byte) : RegisterEffect s (.cfgWrite 0 v) ({ s with cfgDestAddr := v }.answer .unit)
  | cfgSrcAddr (v : Byte) : RegisterEffect s (.cfgWrite 1 v) ({ s with cfgSrcAddr := v }.answer .unit)
  | cfgSrcEid (v : Byte) : RegisterEffect s (.cfgWrite 2 v) ({ s with cfgSrcEid := v }.answer .unit)
  | tagCtr {i : Instr} (hi : drawsTag i = true) (r : Except Err Value) : RegisterEffect s i (s.advanceTag.conclude r)

theorem exec_registerEffect {i : Instr} {s t : State} (hi : timeOf i = none) (hreset : i ≠ .reset)
    (h : exec i s = .next t) : RegisterEffect s i t := by
  cases i with
  | reset => exact absurd rfl hreset
  | cfgWrite sel v =>
    obtain ⟨rfl, he⟩ | ⟨rfl, he⟩ | ⟨rfl, he⟩ | he := exec_cfgWrite_cases sel v <;>
      cases Host.Outcome.next.inj (h.symm.trans (he s))
    · exact .cfgDestAddr v
    · exact .cfgSrcAddr v
    · exact .cfgSrcEid v
    · exact .answer rfl (.error _)
  | pecInit => cases h; exact .pecAcc (.inl rfl) _
  | pecUpdate b => cases h; exact .pecAcc (.inr ⟨b, rfl⟩) _
  | micInit => cases h; exact .micAcc (.inl rfl) _
  | micUpdate b => cases h; exact .micAcc (.inr ⟨b, rfl⟩) _
  | nextTag => cases h; exact .tagCtr rfl (.ok _)
  | buildFragmented => cases h; exact .tagCtr rfl _
  | cfgRead | pecCalc | pecRead | micCalc | micRead => cases h; exact .answer rfl (.ok _)
  | buildSingle | buildFragment | parse => cases h; exact .answer rfl _
  | _ => cases hi

/-! ### The registers and their writers (R20) -/

/-- Settles O46: an operation with a time writes the context alone, and `TICK` of that only `RX_STATE` and `RX_BUF`; for the
others, each case of what they can write. -/
theorem registersChangeOnlyByTheirWriters : Obligations.RegistersChangeOnlyByTheirWriters := by
  unfold Obligations.RegistersChangeOnlyByTheirWriters
  intro i s t h hreset
  cases hi : timeOf i with
  | some now =>
    obtain ⟨hpec, hmic, hdest, hsrc, heid, htag, hissued⟩ := (exec_sameOutsideContext hi h).registers
    have hcontext : t.rxKey ≠ s.rxKey ∨ t.rxDestEid ≠ s.rxDestEid ∨ t.rxMsg ≠ s.rxMsg ∨ t.rxSeq ≠ s.rxSeq ∨
        t.rxT0 ≠ s.rxT0 → receives i = true := by
      obtain hreceives | ⟨now, rfl⟩ := receives_or_tick_of_timeOf hi
      · exact fun _ => hreceives
      · obtain rfl | rfl := exec_tick_cases h <;> simp
    exact ⟨absurd hpec, absurd hmic, absurd hdest, absurd hsrc, absurd heid, absurd htag,
      fun _ => receives_or_tick_of_timeOf hi, hcontext, hissued⟩
  | none =>
    cases exec_registerEffect hi hreset h with
    | pecAcc hwriter | micAcc hwriter => simp [hwriter]
    | tagCtr hdraw => simp [-Bool.exists_bool, eq_of_drawsTag hdraw]
    | answer | cfgDestAddr | cfgSrcAddr | cfgSrcEid => simp

/-! ### The tag counter (R29) -/

theorem exec_tagCtr {i : Instr} {s t : State} (hreset : i ≠ .reset) (h : exec i s = .next t) :
    t.tagCtr.toNat = (s.tagCtr.toNat + if drawsTag i then 1 else 0) % 8 := by
  have hdraws : t.tagCtr = s.tagCtr + if drawsTag i then 1 else 0 := by
    cases hi : timeOf i with
    | some now =>
      obtain ⟨-, -, -, -, -, htag, -⟩ := (exec_sameOutsideContext hi h).registers
      have hdraw : drawsTag i = false := by
        cases i with
        | nextTag | buildFragmented => cases hi
        | _ => rfl
      simp [htag, hdraw]
    | none =>
      cases exec_registerEffect hi hreset h with
      | answer hdraw | tagCtr hdraw => simp [hdraw]
      | pecAcc hwriter | micAcc hwriter => obtain rfl | ⟨b, rfl⟩ := hwriter <;> simp [drawsTag]
      | cfgDestAddr | cfgSrcAddr | cfgSrcEid => simp [drawsTag]
  rw [hdraws, BitVec.toNat_add]
  split_ifs <;> rfl

theorem runAll_cons_next {i : Instr} {is : List Instr} {s t : State} (h : runAll (i :: is) s = .next t) :
    ∃ u, exec i s = .next u ∧ runAll is u = .next t := by
  unfold runAll at h
  split at h
  · exact ⟨_, ‹_›, h⟩
  · cases h
  · cases h

/-- Settles O5, by induction on the run: its first operation advances the counter by its own draw, the rest by theirs. -/
theorem tagCounterCountsDraws : Obligations.TagCounterCountsDraws := by
  unfold Obligations.TagCounterCountsDraws
  intro is
  induction is with
  | nil =>
    intro s t _ h
    cases h
    exact (Nat.mod_eq_of_lt s.tagCtr.isLt).symm
  | cons i is ih =>
    intro s t hreset h
    obtain ⟨u, hu, hrest⟩ := runAll_cons_next h
    obtain ⟨hi, his⟩ := List.forall_mem_cons.mp hreset
    rw [ih u t his hrest, exec_tagCtr hi hu, List.filter_cons]
    split_ifs <;> simp
    omega

/-! ### The accumulators (R25) -/

theorem withAccumulators_respectsContext (p : Byte) (m : Word32) :
    RespectsContext fun u v => v = withAccumulators p m u where
  rxState_eq := by rintro s _ rfl; rfl
  context_eq := by rintro s _ rfl -; rfl
  report := by rintro s _ rfl rs; rfl
  clearContext := by rintro s _ rfl; rfl
  openContext := by rintro s _ rfl f now; rfl
  appendChunk := by rintro s _ rfl - f; rfl

/-- The frame and span operations do the same with other accumulator values, and carry those along. -/
theorem exec_withAccumulators {i : Instr} (hi : ignoresAccumulators i = true) (p : Byte) (m : Word32) (s : State) :
    AnswersAlike (fun u v => v = withAccumulators p m u) (exec i s) (exec i (withAccumulators p m s)) := by
  cases hreceives : receives i with
  | true =>
    obtain ⟨now, hnow⟩ := timeOf_of_receives hreceives
    exact (withAccumulators_respectsContext p m).exec_alike hnow rfl
  | false =>
    cases i with
    | buildSingle | buildFragment | parse => exact .inr ⟨_, _, rfl, rfl, conclude_withAccumulators _ p m s⟩
    | buildFragmented => exact .inr ⟨_, _, rfl, rfl, conclude_withAccumulators _ p m s.advanceTag⟩
    | pecCalc | micCalc => exact .inr ⟨_, _, rfl, rfl, rfl⟩
    | reset | cfgWrite | cfgRead | nextTag | pecInit | pecUpdate | pecRead | micInit | micUpdate | micRead | tick =>
      cases hi
    | _ => cases hreceives

/-- Settles O47: the run with other accumulator values answers alike; and since that holds of the values that `s` has, the
operation has left those as they were. -/
theorem frameOperationsIgnoreAccumulators : Obligations.FrameOperationsIgnoreAccumulators := by
  unfold Obligations.FrameOperationsIgnoreAccumulators
  intro i s p m hi
  refine ⟨fun t h => ?_, fun r => (exec_withAccumulators hi p m s).refused_of_refused⟩
  obtain ⟨v, hv, hkept⟩ := (exec_withAccumulators hi s.pecAcc s.micAcc s).next_of_next h
  rw [withAccumulators_self, h] at hv
  cases hv
  obtain ⟨_, hother, rfl⟩ := (exec_withAccumulators hi p m s).next_of_next h
  exact ⟨(congrArg State.pecAcc hkept :), (congrArg State.micAcc hkept :), hother⟩

/-! ### The idle context (R36) -/

theorem visible_of_active {s : State} (hs : s.rxState = .active) : s.visible = s := by simp [State.visible, hs]

theorem visible_of_idle {s : State} (hs : s.rxState = .idle) :
    s.visible = { s with
      rxKey := { srcEid := 0, tag := 0, toBit := false }, rxDestEid := 0, rxMsg := 0, rxSeq := 0, rxT0 := 0 } := by
  simp [State.visible, hs]

theorem visible_rxState (s : State) : s.visible.rxState = s.rxState := by
  cases hs : s.rxState <;> simp [State.visible, hs]

theorem visible_issued (s : State) : s.visible.issued = s.issued := by
  cases hs : s.rxState <;> simp [State.visible, hs]

theorem visible_report (rs : List Result) (s : State) : (s.report rs).visible = s.visible.report rs := by
  cases hs : s.rxState <;> simp [State.visible, hs, State.report]

theorem visible_clearContext (s : State) : s.clearContext.visible = s.visible.clearContext.visible := by
  cases hs : s.rxState <;> simp [State.visible, hs, State.clearContext]

theorem visible_openContext (s : State) (f : ParsedFrame) (now : Time) :
    s.visible.openContext f now = s.openContext f now := by
  cases hs : s.rxState <;> simp [State.visible, hs, State.openContext]

/-- Exchanging one idle context for another with the same buffer is not seen. -/
theorem visible_withContext {c s : State} (hc : c.rxState = .idle) (hs : s.rxState = .idle) (hbuf : c.rxBuf = s.rxBuf) :
    (withContext c s).visible = s.visible := by
  rw [visible_of_idle hs, visible_of_idle (s := withContext c s) hc]
  simp [withContext, hc, hs, hbuf]

/-- Two states that look alike are one state, or differ in an idle context alone. -/
theorem eq_or_idle_of_visible_eq {s t : State} (h : s.visible = t.visible) :
    s = t ∨ s.rxState = .idle ∧ t.rxState = .idle ∧ t.rxBuf = s.rxBuf ∧ withContext t s = t := by
  have hstate : s.rxState = t.rxState := by rw [← visible_rxState s, h, visible_rxState]
  cases ht : t.rxState with
  | active =>
    rw [visible_of_active (hstate.trans ht), visible_of_active ht] at h
    exact .inl h
  | idle =>
    rw [visible_of_idle (hstate.trans ht), visible_of_idle ht] at h
    exact .inr ⟨hstate.trans ht, rfl, (congrArg State.rxBuf h.symm :), (congrArg (withContext t) h :)⟩

theorem eq_of_visible_eq_of_active {s t : State} (h : s.visible = t.visible) (ha : s.rxState = .active) : s = t := by
  obtain hst | ⟨hidle, -⟩ := eq_or_idle_of_visible_eq h
  · exact hst
  · cases ha.symm.trans hidle

theorem visible_respectsContext : RespectsContext fun u v => u.visible = v.visible where
  rxState_eq := fun {s t} h => by rw [← visible_rxState t, ← h, visible_rxState]
  context_eq := fun h ha => by rw [eq_of_visible_eq_of_active h ha]; rfl
  report := fun h rs => by rw [visible_report, h, visible_report]
  clearContext := fun {s t} h => by rw [visible_clearContext, h, ← visible_clearContext]
  openContext := fun {s t} h f now => by rw [← visible_openContext s, h, visible_openContext]
  appendChunk := fun h ha f => by rw [eq_of_visible_eq_of_active h ha]

/-- Whatever the instruction, runs from states that look alike answer alike. -/
theorem exec_visible (i : Instr) {s t : State} (h : s.visible = t.visible) :
    AnswersAlike (fun u v => u.visible = v.visible) (exec i s) (exec i t) := by
  cases hi : timeOf i with
  | some now => exact visible_respectsContext.exec_alike hi h
  | none =>
    by_cases hreset : i = .reset
    · subst hreset
      have hissued : s.issued = t.issued := by rw [← visible_issued s, h, visible_issued]
      exact .inr ⟨_, _, rfl, rfl, by rw [hissued]⟩
    obtain rfl | ⟨hs, ht, hbuf, hcontext⟩ := eq_or_idle_of_visible_eq h
    · obtain ⟨u, hu, -⟩ := exec_withContext hi hreset s s
      exact .inr ⟨u, u, hu, hu, rfl⟩
    · obtain ⟨u, hu, hut⟩ := exec_withContext hi hreset t s
      rw [hcontext] at hut
      have hkept := exec_keeps_context hi hreset hu
      have hidle : u.rxState = .idle := hkept ▸ hs
      have hbuf' : t.rxBuf = u.rxBuf := hkept ▸ hbuf
      exact .inr ⟨u, _, hu, hut, (visible_withContext ht hidle hbuf').symm⟩

/-- Settles O48: the relation "looks alike" is one that the reassembler respects, and the other operations do not read the
context at all. -/
theorem idleContextIsNeverRead : Obligations.IdleContextIsNeverRead := by
  unfold Obligations.IdleContextIsNeverRead
  intro i s t h
  refine ⟨fun s' hs' => ?_, fun r => (exec_visible i h).refused_of_refused⟩
  obtain ⟨t', ht', halike⟩ := (exec_visible i h).next_of_next hs'
  exact ⟨t', ht', halike.symm⟩

/-! ### The idle buffer (R36, R45) -/

theorem idleBufferEmpty_respectsContext : RespectsContext fun u v => v = u ∧ IdleBufferEmpty u :=
  .of_predicate (fun _ _ h => h) (fun _ _ _ => rfl) (fun _ _ _ _ h => nomatch h)
    (fun _ _ ha _ hidle => nomatch ha.symm.trans hidle)

theorem exec_keeps_idleBufferEmpty {i : Instr} {s t : State} (hs : IdleBufferEmpty s) (h : exec i s = .next t) :
    IdleBufferEmpty t := by
  cases hi : timeOf i with
  | some now => exact idleBufferEmpty_respectsContext.exec_keeps hi hs h
  | none =>
    by_cases hreset : i = .reset
    · subst hreset
      cases h
      exact fun _ => rfl
    · rw [← exec_keeps_context hi hreset h]
      exact hs

/-! ### The step -/

/-- Settles O51: of the branches of `step`, an input that decodes selects the one that executes its instruction. -/
theorem stepRunsDecodedInstruction : Obligations.StepRunsDecodedInstruction := by
  unfold Obligations.StepRunsDecodedInstruction
  intro input rest i s hissued hdecode
  simp only [step, hissued, hdecode]
  rfl

/-- All that a step can do: nothing, run the instruction that was decoded, or reject a command code (R90, R195). -/
theorem step_next_cases {s t : State} (h : step s = .next t) :
    t = s ∨ ∃ rest, (∃ i, exec i (s.takeInput rest) = .next t) ∨ t = (s.takeInput rest).rejectCode := by
  unfold step at h
  split at h
  · exact .inl (Host.Outcome.next.inj h).symm
  next input rest _ =>
    refine .inr ⟨rest, ?_⟩
    split at h
    · exact .inl ⟨_, h⟩
    · exact .inr (Host.Outcome.next.inj h).symm
    · cases h
    · cases h

/-- Settles O54: each of the three things a step can do keeps the invariant. -/
theorem stepKeepsIdleBufferEmpty : Obligations.StepKeepsIdleBufferEmpty := by
  unfold Obligations.StepKeepsIdleBufferEmpty
  intro s t hs h
  obtain rfl | ⟨rest, ⟨i, hexec⟩ | rfl⟩ := step_next_cases h
  · exact hs
  · exact exec_keeps_idleBufferEmpty (s := s.takeInput rest) hs hexec
  · exact hs

/-- Settles O55: `State.reset` gives `RX_STATE` and `RX_BUF` these values by definition (R45). -/
theorem resetHasIdleBufferEmpty : Obligations.ResetHasIdleBufferEmpty := ⟨fun _ => rfl, rfl⟩

end Sys2Proof.Proofs
end

section
/-! PROOF. What 20_memory.md says of the block's memory: the byte order of the MIC (R51), and which operations have a side
effect on the block's state (R57). -/

namespace Sys2Proof.Proofs

open Sys2Proof Sys2Proof.Machine

/-! ### The bytes of the MIC (R51) -/

/-- A field of a word is a quotient, cut off at the field's width. -/
theorem toNat_extractLsb'_byte (v : Word32) (start : Nat) :
    (v.extractLsb' start 8).toNat = v.toNat / 2 ^ start % 2 ^ 8 := by
  rw [BitVec.extractLsb'_toNat, Nat.shiftRight_eq_div_pow]

/-- Settles O60: each byte is a field of the value, and the most significant one needs no cut, since a quotient of a 32-bit
number by `2 ^ 24` is a byte. -/
theorem micBytesAreLittleEndian : Obligations.MicBytesAreLittleEndian := by
  unfold Obligations.MicBytesAreLittleEndian
  intro v
  refine ⟨?_, unLe32_le32 v⟩
  have htop : v.toNat / 2 ^ 24 % 2 ^ 8 = v.toNat / 2 ^ 24 := by omega
  simp only [le32, List.map_cons, List.map_nil, toNat_extractLsb'_byte, htop, pow_zero, Nat.div_one]

/-! ### The pure operations (R57) -/

/-- The outcome that `State.conclude` reports. -/
def outcomeOf : Except Err Value → Result
  | .ok v => .ok v
  | .error e => .error e

theorem conclude_report (r : Except Err Value) (rs : List Result) (s : State) :
    (s.report rs).conclude r = s.report [outcomeOf r] := by cases r <;> rfl

/-- A pure operation writes its one outcome and nothing else, and that outcome does not depend on the one before it. -/
theorem exec_of_isPure {i : Instr} (hi : isPure i = true) (s : State) :
    ∃ r, ∀ rs, exec i (s.report rs) = .next (s.report [r]) := by
  cases i with
  | pecCalc | micCalc => exact ⟨_, fun _ => rfl⟩
  | pecRead => exact ⟨.ok (.byte s.pecAcc), fun _ => rfl⟩
  | micRead => exact ⟨.ok (.word (micFinal s.micAcc)), fun _ => rfl⟩
  | cfgRead sel => exact ⟨.ok (.byte (s.cfg sel)), fun _ => rfl⟩
  | buildSingle | buildFragment | parse => exact ⟨_, fun rs => congrArg Host.Outcome.next (conclude_report _ rs s)⟩
  | _ => cases hi

/-! ### The operations with a side effect (R57) -/

/-- In the state `s` the operation is not refused, and it changes more than the outcome. -/
def ChangesState (i : Instr) (s : State) : Prop := ∃ t, exec i s = .next t ∧ t ≠ s.report t.result

/-- A register that has another value afterwards is a side effect. -/
theorem changesState_of_register {i : Instr} {s t : State} {α : Type} (read : State → α)
    (hread : ∀ rs, read (s.report rs) = read s) (h : exec i s = .next t) (hne : read t ≠ read s) : ChangesState i s :=
  ⟨t, h, fun ht => hne ((congrArg read ht).trans (hread _))⟩

theorem pecInit_changesState {s : State} (h : s.pecAcc ≠ 0) : ChangesState .pecInit s :=
  changesState_of_register State.pecAcc (fun _ => rfl) rfl h.symm

theorem pecUpdate_changesState {s : State} {b : Byte} (h : pecStep s.pecAcc b ≠ s.pecAcc) :
    ChangesState (.pecUpdate b) s :=
  changesState_of_register State.pecAcc (fun _ => rfl) rfl h

theorem micInit_changesState {s : State} (h : s.micAcc ≠ 0xFFFFFFFF) : ChangesState .micInit s :=
  changesState_of_register State.micAcc (fun _ => rfl) rfl h.symm

theorem micUpdate_changesState {s : State} {b : Byte} (h : micStep s.micAcc b ≠ s.micAcc) :
    ChangesState (.micUpdate b) s :=
  changesState_of_register State.micAcc (fun _ => rfl) rfl h

theorem cfgWrite_changesState {s : State} {v : Byte} (h : v ≠ s.cfgDestAddr) : ChangesState (.cfgWrite 0 v) s :=
  changesState_of_register State.cfgDestAddr (fun _ => rfl) rfl h

theorem reset_changesState {s : State} (h : s.pecAcc ≠ 0) : ChangesState .reset s :=
  changesState_of_register State.pecAcc (fun _ => rfl) rfl h.symm

/-- Drawing a tag changes every state: the counter has eight values, and the next one is another. -/
theorem changesState_of_drawsTag {i : Instr} (hi : drawsTag i = true) (s : State) : ChangesState i s := by
  have hnext : ∀ r, (s.advanceTag.conclude r).tagCtr ≠ s.tagCtr := fun r => by simp
  obtain rfl | ⟨_, _, _, _, rfl⟩ := eq_of_drawsTag hi
  · exact changesState_of_register State.tagCtr (fun _ => rfl) rfl (hnext (.ok _))
  · exact changesState_of_register State.tagCtr (fun _ => rfl) rfl (hnext _)

theorem timeBackwards_of_expired {s : State} {now : Time} (h : s.expired now = true) : s.timeBackwards now = false := by
  obtain ⟨-, hlate⟩ := (s.expired_iff now).mp h
  have hnow : s.rxT0 ≤ now := Nat.le_of_lt (Nat.lt_of_sub_pos (Nat.zero_lt_of_lt hlate))
  simp [State.timeBackwards, hnow]

/-- `TICK` closes an expired context (R161). -/
theorem exec_tick_of_expired {s : State} {now : Time} (h : s.expired now = true) :
    exec (.tick now) s = .next (s.clearContext.raise (.plain .missingEom)) := by
  simp [exec, execTick, timeBackwards_of_expired h, h]

theorem tick_changesState {s : State} {now : Time} (h : s.expired now = true) : ChangesState (.tick now) s := by
  obtain ⟨hactive, -⟩ := (s.expired_iff now).mp h
  exact changesState_of_register State.rxState (fun _ => rfl) (exec_tick_of_expired h) (by simp [hactive])

/-- A packet that starts a message and does not end it opens the idle context (R164). -/
theorem exec_reasm_first {s : State} {f : ParsedFrame} (hs : s.rxState = .idle) (hsom : f.som = true) (heom : f.eom = false)
    (now : Time) : exec (.reasm now f) s = .next ((s.openContext f now).answer .pending) := by
  simp [exec, execReasm, reassemble, State.timeBackwards_idle hs, noticeExpiry_of_in_time (State.expired_idle hs now),
    acceptFrame, startMessage, settlePacket, Config.reasmCap, fitsBuffer, hs, hsom, heom, State.answer]

theorem reasm_changesState {s : State} {f : ParsedFrame} (hs : s.rxState = .idle) (hsom : f.som = true)
    (heom : f.eom = false) (now : Time) : ChangesState (.reasm now f) s :=
  changesState_of_register State.rxState (fun _ => rfl) (exec_reasm_first hs hsom heom now) (by simp [hs])

/-- What `REASM` changes, `RX_PACKET` changes for the bytes of the same packet (R172). -/
theorem rxPacket_changesState {s : State} {b : List Byte} {f : ParsedFrame} {now : Time} (hb : parsePacket b = .ok f)
    (h : ChangesState (.reasm now f) s) : ChangesState (.rxPacket now b) s := by
  have hexec : exec (.rxPacket now b) s = exec (.reasm now f) s := receivePacket_of_ok hb _ now s
  unfold ChangesState
  rw [hexec]
  exact h

/-- A packet that starts a message of several: packet A of V-RSM-2. -/
def firstPacket : List Byte := [0x3A, 0x0F, 0x08, 0x21, 0x01, 0x00, 0x00, 0x88, 0x04, 0x10, 0x11, 0xE7]

/-- What `PARSE` reads from it. -/
def firstFrame : ParsedFrame := frameOf firstPacket [0x10, 0x11] none none

theorem parsePacket_firstPacket : parsePacket firstPacket = .ok firstFrame := by decide +kernel

theorem reasm_firstFrame_changesState : ChangesState (.reasm 0 firstFrame) State.reset :=
  reasm_changesState rfl (by decide) (by decide) 0

/-- Settles O45: a pure operation reports an outcome that does not depend on the outcome before it; each of the others changes
a register of the state named here. -/
theorem sideEffectsAreExactlyListed : Obligations.SideEffectsAreExactlyListed := by
  unfold Obligations.SideEffectsAreExactlyListed
  refine ⟨fun i hi s => ?pure, ?pecInit, ?pecUpdate, ?micInit, ?micUpdate, ?cfgWrite, ?nextTag, ?buildFragmented, ?reasm,
    ?rxPacket, ?tick, ?reset⟩
  case pure =>
    obtain ⟨r, hr⟩ := exec_of_isPure hi s
    exact ⟨r, hr s.result, hr [r]⟩
  case pecInit => exact ⟨{ State.reset with pecAcc := 1 }, pecInit_changesState (by decide)⟩
  case pecUpdate => exact ⟨1, State.reset, pecUpdate_changesState (by decide)⟩
  case micInit => exact ⟨{ State.reset with micAcc := 0 }, micInit_changesState (by decide)⟩
  case micUpdate => exact ⟨0, State.reset, micUpdate_changesState (by decide)⟩
  case cfgWrite => exact ⟨0, 0, State.reset, cfgWrite_changesState (by decide)⟩
  case nextTag => exact ⟨State.reset, changesState_of_drawsTag rfl _⟩
  case buildFragmented => exact ⟨0, 0, [], false, State.reset, changesState_of_drawsTag rfl _⟩
  case reasm => exact ⟨0, firstFrame, State.reset, reasm_firstFrame_changesState⟩
  case rxPacket =>
    exact ⟨0, firstPacket, State.reset, rxPacket_changesState parsePacket_firstPacket reasm_firstFrame_changesState⟩
  case tick => exact ⟨101, { State.reset with rxState := .active }, tick_changesState (by decide)⟩
  case reset => exact ⟨{ State.reset with pecAcc := 1 }, reset_changesState (by decide)⟩

end Sys2Proof.Proofs
end

section
/-! PROOF. What 30_encoding.md says of the two encodings: the packet's bit fields and layout (R70, R74, R77, R82), the packet
classes (R80), and the operations' command codes and operands (R90, R94). -/

namespace Sys2Proof.Proofs

open Sys2Proof Sys2Proof.Machine

/-! ### The bit fields of a packet (R77, R78) -/

theorem toNat_bitByte_shiftLeft (b : Bool) {k : Nat} (hk : k < 8) : (bitByte b <<< k).toNat = 2 ^ k * bitValue b := by
  cases b with
  | false => simp [bitByte, bitValue]
  | true =>
    have hpow : 2 ^ k < 2 ^ 8 := Nat.pow_lt_pow_right (by decide) hk
    simpa [bitByte, bitValue, Nat.shiftLeft_eq] using Nat.mod_eq_of_lt hpow

theorem toNat_and_three_shiftLeft (seq : Byte) : ((seq &&& 3) <<< 4).toNat = 2 ^ 4 * (seq.toNat % 4) := by
  have hmask : (seq &&& 3).toNat = seq.toNat % 4 := Nat.and_two_pow_sub_one_eq_mod seq.toNat 2
  rw [BitVec.toNat_shiftLeft, hmask, Nat.shiftLeft_eq]
  omega

theorem toNat_and_seven (tag : Byte) : (tag &&& 7).toNat = tag.toNat % 8 := Nat.and_two_pow_sub_one_eq_mod tag.toNat 3

theorem bitValue_le_one (b : Bool) : bitValue b ≤ 1 := by cases b <;> decide

/-- The five fields do not overlap, so their disjunction is their sum (R77). -/
theorem toNat_flagsByte (som eom toBit : Bool) (seq tag : Byte) :
    (flagsByte som eom seq toBit tag).toNat = 128 * bitValue som + 64 * bitValue eom + 16 * (seq.toNat % 4) +
      8 * bitValue toBit + tag.toNat % 8 := by
  have hto := bitValue_le_one toBit
  have heom := bitValue_le_one eom
  simp only [flagsByte, BitVec.toNat_or, Nat.or_assoc, toNat_bitByte_shiftLeft _ (show 7 < 8 by decide),
    toNat_bitByte_shiftLeft _ (show 6 < 8 by decide), toNat_bitByte_shiftLeft _ (show 3 < 8 by decide),
    toNat_and_three_shiftLeft, toNat_and_seven]
  rw [← Nat.two_pow_add_eq_or_of_lt (i := 3) (by omega), ← Nat.two_pow_add_eq_or_of_lt (i := 4) (by omega),
    ← Nat.two_pow_add_eq_or_of_lt (i := 6) (by omega), ← Nat.two_pow_add_eq_or_of_lt (i := 7) (by omega)]
  omega

theorem flagsByte_eq_flagsValue (som eom : Bool) (seq : Byte) (toBit : Bool) (tag : Byte) :
    flagsByte som eom seq toBit tag = flagsValue som eom seq.toNat toBit tag.toNat := by
  rw [flagsValue, ← toNat_flagsByte, BitVec.ofNat_toNat, BitVec.setWidth_eq]

theorem msgByte_eq_msgValue (ic : Bool) (mt : BitVec 7) : msgByte ic mt = msgValue ic mt := by
  have hmt : (mt.setWidth 8).toNat = mt.toNat := BitVec.toNat_setWidth_of_le (by decide)
  have hsum : (msgByte ic mt).toNat = 128 * bitValue ic + mt.toNat := by
    rw [msgByte, BitVec.toNat_or, toNat_bitByte_shiftLeft ic (by decide), hmt, ← Nat.two_pow_add_eq_or_of_lt mt.isLt]
  rw [msgValue, ← hsum, BitVec.ofNat_toNat, BitVec.setWidth_eq]

/-- Settles O59: the byte's value is the sum of its fields; reading `seq` and `tag` cuts them to their widths. -/
theorem flagsByteHoldsItsFields : Obligations.FlagsByteHoldsItsFields := by
  unfold Obligations.FlagsByteHoldsItsFields
  intro som eom toBit seq tag
  refine ⟨toNat_flagsByte .., flagsSom_flagsByte .., flagsEom_flagsByte .., ?seq, flagsTo_flagsByte .., ?tag⟩
  case seq => rw [flagsSeq_flagsByte, BitVec.toNat_setWidth]
  case tag => rw [flagsTag_flagsByte, BitVec.toNat_setWidth]

/-! ### The packet classes (R80) -/

/-- The bytes of a packet class are those of the spec's formulas (R70, R77, R78). -/
theorem packetBytes_eq_classBytes (som eom ic : Bool) (h : PktHeader) (tail : List Byte) :
    packetBytes som eom ic h tail = classBytes som eom ic h tail := by
  have hseq : (h.seq.setWidth 8).toNat = h.seq.toNat := BitVec.toNat_setWidth_of_le (by decide)
  have htag : (h.tag.setWidth 8).toNat = h.tag.toNat := BitVec.toNat_setWidth_of_le (by decide)
  rw [packetBytes, flagsByte_eq_flagsValue, msgByte_eq_msgValue, hseq, htag]
  rfl

/-- A packet of a class is delivered as `RX_PACKET` on the class's bytes (log 3). -/
theorem exec_packetClass (som eom ic : Bool) (now : Time) (h : PktHeader) (tail : List Byte) (s : State) :
    exec (packetClass som eom ic now h tail) s = exec (.rxPacket now (classBytes som eom ic h tail)) s := by
  rw [← packetBytes_eq_classBytes]
  cases som <;> cases eom <;> cases ic <;> rfl

/-- Settles O39: each class is `packetClass` of its SOM, EOM and IC. -/
theorem deliveredPacketIsRxPacket : Obligations.DeliveredPacketIsRxPacket := by
  unfold Obligations.DeliveredPacketIsRxPacket
  intro now h tail s
  have hclass (som eom ic : Bool) := exec_packetClass som eom ic now h tail s
  exact ⟨hclass true true false, hclass true true true, hclass true false false, hclass true false true,
    hclass false false false, hclass false false true, hclass false true false, hclass false true true⟩

theorem encode_packetClass (som eom ic : Bool) (now : Time) (h : PktHeader) (tail : List Byte) :
    encode (packetClass som eom ic now h tail) = .packet now (packetBytes som eom ic h tail) := by
  cases som <;> cases eom <;> cases ic <;> rfl

theorem wellFormed_packetClass (som eom ic : Bool) (now : Time) (h : PktHeader) (tail : List Byte) :
    (packetClass som eom ic now h tail).wellFormed = packetTailOk tail := by
  cases som <;> cases eom <;> cases ic <;> rfl

/-- The header fields are the operands they came from, so the class is read back from its bytes (R80, R94). -/
theorem decodePacketClass_packetBytes (som eom ic : Bool) (now : Time) (h : PktHeader) {tail : List Byte}
    (htail : packetTailOk tail = true) :
    decodePacketClass now (packetBytes som eom ic h tail) = some (packetClass som eom ic now h tail) := by
  simp [packetBytes, decodePacketClass, htail]

theorem decode_packetBytes (som eom ic : Bool) (now : Time) (h : PktHeader) {tail : List Byte}
    (htail : packetTailOk tail = true) :
    decode (.packet now (packetBytes som eom ic h tail)) = .ok (packetClass som eom ic now h tail) := by
  rw [decode, decodePacketClass_packetBytes som eom ic now h htail, Option.getD_some]

/-- All that the packet-class decoder can read: the class and fields whose bytes it was given. -/
theorem decodePacketClass_eq_some {now : Time} {b : List Byte} {i : Instr} (hdecode : decodePacketClass now b = some i) :
    ∃ som eom ic h tail, i = packetClass som eom ic now h tail ∧ b = packetBytes som eom ic h tail ∧
      packetTailOk tail = true := by
  unfold decodePacketClass at hdecode
  split at hdecode
  · split at hdecode
    next hfixed =>
      obtain ⟨rfl, rfl, htail⟩ := hfixed
      exact ⟨_, _, _, _, _, (Option.some.inj hdecode).symm, by simp [packetBytes], htail⟩
    next => cases hdecode
  · cases hdecode

/-- Settles O57: the bytes read are those of the class that was read, and these are what `encode` writes. -/
theorem encodeInvertsPacketDecode : Obligations.EncodeInvertsPacketDecode := by
  unfold Obligations.EncodeInvertsPacketDecode
  intro now b i hdecode
  obtain ⟨som, eom, ic, h, tail, rfl, rfl, htail⟩ := decodePacketClass_eq_some hdecode
  exact ⟨encode_packetClass .., (wellFormed_packetClass ..).trans htail⟩

/-! ### The operations (R90) -/

/-- Bytes that an operation's reader takes in full, whatever follows them, decode to what it reads. -/
theorem decodeCommand_of_reader {code : Byte} {bytes : List Byte} {i : Instr}
    {read : List Byte → Option (Instr × List Byte)} (hcode : operandReader code = some read)
    (hread : ∀ r, read (bytes ++ r) = some (i, r)) (hi : i.wellFormed = true) :
    decode (.command (code :: bytes)) = .ok i := by
  have hbytes : read bytes = some (i, []) := by simpa using hread []
  simp [decode, decodeCommand, hcode, hbytes, hi]

theorem takeOneSeq_putSeq (op : List Byte → Instr) (span r : List Byte) :
    takeOneSeq op (putSeq span ++ r) = some (op span, r) :=
  bind_taken (takeSeq_putSeq span r)

theorem takeBuildSingle_operands (da sa de se tag : Byte) (mt : BitVec 7) (payload : List Byte) (ic : Bool)
    (r : List Byte) :
    takeBuildSingle (([da, sa, de, se, tag, mt.setWidth 8] ++ putSeq payload ++ putBool ic) ++ r) =
      some (.buildSingle da sa de se tag mt payload ic, r) := by
  simp only [List.append_assoc, List.cons_append, List.nil_append]
  refine (bind_taken (takeByte_cons _ _)).trans ?_
  refine (bind_taken (takeByte_cons _ _)).trans ?_
  refine (bind_taken (takeByte_cons _ _)).trans ?_
  refine (bind_taken (takeByte_cons _ _)).trans ?_
  refine (bind_taken (takeByte_cons _ _)).trans ?_
  refine (bind_taken (takeBits_cons (n := 7) (by decide) _ _)).trans ?_
  refine (bind_taken (takeSeq_putSeq _ _)).trans ?_
  refine (bind_taken (takeBool_putBool _ _)).trans ?_
  rfl

theorem takeBuildFragment_operands (da sa de se : Byte) (mt : BitVec 7) (ic som eom : Bool) (seq tag : Byte)
    (chunk : List Byte) (micIn : Option Word32) (r : List Byte) :
    takeBuildFragment (([da, sa, de, se, mt.setWidth 8] ++ putBool ic ++ putBool som ++ putBool eom ++ [seq, tag] ++
        putSeq chunk ++ putWordOpt micIn) ++ r) =
      some (.buildFragment da sa de se mt ic som eom seq tag chunk micIn, r) := by
  simp only [List.append_assoc, List.cons_append, List.nil_append]
  refine (bind_taken (takeByte_cons _ _)).trans ?_
  refine (bind_taken (takeByte_cons _ _)).trans ?_
  refine (bind_taken (takeByte_cons _ _)).trans ?_
  refine (bind_taken (takeByte_cons _ _)).trans ?_
  refine (bind_taken (takeBits_cons (n := 7) (by decide) _ _)).trans ?_
  refine (bind_taken (takeBool_putBool _ _)).trans ?_
  refine (bind_taken (takeBool_putBool _ _)).trans ?_
  refine (bind_taken (takeBool_putBool _ _)).trans ?_
  refine (bind_taken (takeByte_cons _ _)).trans ?_
  refine (bind_taken (takeByte_cons _ _)).trans ?_
  refine (bind_taken (takeSeq_putSeq _ _)).trans ?_
  refine (bind_taken (takeWordOpt_putWordOpt _ _)).trans ?_
  rfl

theorem takeBuildFragmented_operands (de : Byte) (mt : BitVec 7) (payload : List Byte) (ic : Bool) (r : List Byte) :
    takeBuildFragmented (([de, mt.setWidth 8] ++ putSeq payload ++ putBool ic) ++ r) =
      some (.buildFragmented de mt payload ic, r) := by
  simp only [List.append_assoc, List.cons_append, List.nil_append]
  refine (bind_taken (takeByte_cons _ _)).trans ?_
  refine (bind_taken (takeBits_cons (n := 7) (by decide) _ _)).trans ?_
  refine (bind_taken (takeSeq_putSeq _ _)).trans ?_
  refine (bind_taken (takeBool_putBool _ _)).trans ?_
  rfl

theorem takeReasm_operands (now : Time) (f : ParsedFrame) (r : List Byte) :
    takeReasm ((putNat now ++ putFrame f) ++ r) = some (.reasm now f, r) := by
  simp [takeReasm]

theorem takeRxPacket_operands (now : Time) (packet r : List Byte) :
    takeRxPacket ((putNat now ++ putSeq packet) ++ r) = some (.rxPacket now packet, r) := by
  simp [takeRxPacket]

theorem takeTick_operands (now : Time) (r : List Byte) : takeTick (putNat now ++ r) = some (.tick now, r) :=
  bind_taken (takeNat_putNat now r)

/-- Settles O56: an operation's reader takes the operands that `encode` writes after its command code; a packet of a class is
read back from its bytes. -/
theorem decodeInvertsEncode : Obligations.DecodeInvertsEncode := by
  unfold Obligations.DecodeInvertsEncode
  intro i hi
  cases i with
  | reset | nextTag | pecInit | pecRead | micInit | micRead => rfl
  | cfgWrite sel value => exact decodeCommand_of_reader rfl (fun r => by simp [takeCfgWrite]) hi
  | cfgRead sel => exact decodeCommand_of_reader rfl (fun r => by simp [takeCfgRead]) hi
  | pecUpdate byte | micUpdate byte => exact decodeCommand_of_reader rfl (fun r => rfl) hi
  | pecCalc span | micCalc span | parse span => exact decodeCommand_of_reader rfl (takeOneSeq_putSeq _ span) hi
  | buildSingle => exact decodeCommand_of_reader rfl (fun _ => takeBuildSingle_operands ..) hi
  | buildFragment => exact decodeCommand_of_reader rfl (fun _ => takeBuildFragment_operands ..) hi
  | buildFragmented => exact decodeCommand_of_reader rfl (fun _ => takeBuildFragmented_operands ..) hi
  | reasm now f => exact decodeCommand_of_reader rfl (takeReasm_operands now f) hi
  | rxPacket now packet => exact decodeCommand_of_reader rfl (takeRxPacket_operands now packet) hi
  | tick now => exact decodeCommand_of_reader rfl (takeTick_operands now) hi
  | pktSingle now h => exact decode_packetBytes true true false now h hi
  | pktSingleIc now h => exact decode_packetBytes true true true now h hi
  | pktFirst now h => exact decode_packetBytes true false false now h hi
  | pktFirstIc now h => exact decode_packetBytes true false true now h hi
  | pktMiddle now h => exact decode_packetBytes false false false now h hi
  | pktMiddleIc now h => exact decode_packetBytes false false true now h hi
  | pktLast now h => exact decode_packetBytes false true false now h hi
  | pktLastIc now h => exact decode_packetBytes false true true now h hi

/-- The 19 command codes of R90. -/
def assignedCodes : List Nat :=
  [0x00, 0x01, 0x02, 0x03, 0x10, 0x11, 0x12, 0x13, 0x18, 0x19, 0x1A, 0x1B, 0x20, 0x21, 0x22, 0x30, 0x38, 0x39, 0x3A]

/-- The decoder's table has no code outside R90's. -/
theorem operandReader_eq_none {code : Byte} (h : code.toNat ∉ assignedCodes) : operandReader code = none := by
  have hne : ∀ c : Byte, c.toNat ∈ assignedCodes → code ≠ c := by
    rintro c hc rfl
    exact h hc
  simp (disch := decide) only [operandReader, hne, if_false]

/-- Settles O52: no reader, so the decoder answers that the code is unassigned, and the step rejects it. -/
theorem unassignedCodeRaisesUsage : Obligations.UnassignedCodeRaisesUsage := by
  unfold Obligations.UnassignedCodeRaisesUsage
  intro code operands rest s hcode hissued
  have hdecode : decode (.command (code :: operands)) = .error (.unassignedCode code) := by
    simp [decode, decodeCommand, operandReader_eq_none hcode]
  refine ⟨.operand .commandCode, ?_⟩
  simp only [step, hissued, hdecode]
  rfl

/-- Settles O58: the decoder evaluated on each of the ten words. -/
theorem tableWordsDecode : Obligations.TableWordsDecode := by
  unfold Obligations.TableWordsDecode
  refine ⟨?_, ?_, ?_, ?_, ?_, ?_, ?_, ?_, ?_, ?_⟩ <;> decide

/-! ### The layout of a packet (R70, R74, R82) -/

/-- The packet `b` with the chunk `chunk` and a MIC field of `m` bytes has the layout of R70. -/
def FrameLayout (b chunk : List Byte) (m : Nat) : Prop :=
  b.length = 10 + chunk.length + m ∧ b.getD 1 0 = 0x0F ∧ b.getD 4 0 = 0x01 ∧ (b.getD 2 0).toNat + 4 = b.length ∧
    (b.drop 9).take chunk.length = chunk ∧ b.getD (b.length - 1) 0 = pec (b.take (b.length - 1))

/-- Header, chunk, MIC field and PEC, with the byte count of R74, are in the layout. -/
theorem frameLayout_of_parts {count : Byte} {chunk field : List Byte}
    (hcount : count.toNat = 6 + chunk.length + field.length) (da sa de se flags mb : Byte) :
    FrameLayout ((packetHead da count sa de se flags mb ++ (chunk ++ field)) ++
      [pec (packetHead da count sa de se flags mb ++ (chunk ++ field))]) chunk field.length := by
  set body := packetHead da count sa de se flags mb ++ (chunk ++ field) with hbody
  have hlen : body.length = 9 + (chunk.length + field.length) := by
    simp only [hbody, packetHead, List.length_append, List.length_cons, List.length_nil]
  have hchunk : ((body ++ [pec body]).drop 9).take chunk.length = chunk := by simp [hbody, packetHead]
  have hcountByte : (body ++ [pec body]).getD 2 0 = count := rfl
  refine ⟨?length, rfl, rfl, ?count, hchunk, by simp⟩
  case length => rw [List.length_append, hlen, List.length_singleton]; omega
  case count => rw [hcountByte, hcount, List.length_append, hlen, List.length_singleton]; omega

/-- `PARSE` answers a frame exactly when the parser accepts the packet. -/
theorem exec_parse_frame_iff (b : List Byte) (s : State) (f : ParsedFrame) :
    exec (.parse b) s = .next { s with result := [.ok (.frame f)] } ↔ parsePacket b = .ok f := by
  have hexec : exec (.parse b) s = .next (s.conclude ((parsePacket b).map .frame)) := rfl
  rw [hexec]
  cases parsePacket b <;> simp [Except.map, State.answer, State.raise, State.report]

/-- `BUILD_FRAGMENT` answers a packet exactly when the framer builds it. -/
theorem exec_buildFragment_packet_iff (da sa de se : Byte) (mt : BitVec 7) (ic som eom : Bool) (seq tag : Byte)
    (chunk : List Byte) (micIn : Option Word32) (s : State) (b : List Byte) :
    exec (.buildFragment da sa de se mt ic som eom seq tag chunk micIn) s = .next { s with result := [.ok (.packet b)] } ↔
      buildFragment da sa de se mt ic som eom seq tag chunk micIn = .ok b := by
  have hexec : exec (.buildFragment da sa de se mt ic som eom seq tag chunk micIn) s =
      .next (s.conclude ((buildFragment da sa de se mt ic som eom seq tag chunk micIn).map .packet)) := rfl
  rw [hexec]
  cases buildFragment da sa de se mt ic som eom seq tag chunk micIn <;>
    simp [Except.map, State.answer, State.raise, State.report]

/-- The number of bytes of the MIC field (R81). -/
def micLength (ic eom : Bool) : Nat := if ic && eom then 4 else 0

/-- A fragment has a MIC field exactly when it is the last of a message that declares IC (R81, R126). -/
theorem micBytes_length_of_fragmentMic {ic som eom : Bool} {mb : Byte} {chunk : List Byte} {micIn micOpt : Option Word32}
    (h : fragmentMic ic som eom mb chunk micIn = .ok micOpt) : (micBytes micOpt).length = micLength ic eom := by
  unfold fragmentMic at h
  unfold micLength
  split at h
  next hmic =>
    rw [if_pos hmic]
    split at h
    · cases h; rfl
    · split at h
      · cases h
      · cases h; rfl
  next hmic =>
    rw [if_neg hmic]
    cases h; rfl

/-- All that the framer builds as a fragment: an assembled packet with a chunk of at most 120 bytes. -/
theorem buildFragment_eq_ok {da sa de se : Byte} {mt : BitVec 7} {ic som eom : Bool} {seq tag : Byte} {chunk : List Byte}
    {micIn : Option Word32} {b : List Byte} (h : buildFragment da sa de se mt ic som eom seq tag chunk micIn = .ok b) :
    chunk.length ≤ 120 ∧ ∃ micOpt, (micBytes micOpt).length = micLength ic eom ∧
      b = assemble da sa de se som eom seq true tag (msgByte ic mt) chunk micOpt := by
  by_cases hfits : chunk.length ≤ 120
  · rw [buildFragment_of_fits hfits] at h
    cases hmic : fragmentMic ic som eom (msgByte ic mt) chunk micIn with
    | error e => rw [hmic] at h; cases h
    | ok micOpt =>
      rw [hmic] at h
      exact ⟨hfits, micOpt, micBytes_length_of_fragmentMic hmic, (Except.ok.inj h).symm⟩
  · rw [buildFragment_too_long (Nat.lt_of_not_le hfits)] at h
    cases h

theorem frameLayout_assemble (da sa de se : Byte) (som eom : Bool) (seq : Byte) (toBit : Bool) (tag mb : Byte)
    {chunk : List Byte} (hchunk : chunk.length ≤ 120) (micOpt : Option Word32) :
    FrameLayout (assemble da sa de se som eom seq toBit tag mb chunk micOpt) chunk (micBytes micOpt).length := by
  have hfield : (micBytes micOpt).length ≤ 4 := by cases micOpt <;> simp
  rw [assemble_eq]
  refine frameLayout_of_parts ?_ ..
  rw [BitVec.toNat_ofNat]
  exact Nat.mod_eq_of_lt (by omega)

/-- All that `PARSE` can read from the part between header and PEC: the chunk, and a MIC field where there is one (R140). -/
theorem partsBody_eq_ok {b0 b2 b3 b4 b5 b6 b7 b8 : Byte} {mid : List Byte} {f : ParsedFrame}
    (h : partsBody b0 b2 b3 b4 b5 b6 b7 b8 mid = .ok f) :
    ∃ field, mid = f.payload ++ field ∧ field.length = micLength f.ic f.eom := by
  unfold partsBody at h
  split at h
  next hmic =>
    split at h
    · cases h
    next hlen =>
      have hfield : (mid.drop (mid.length - 4)).length = 4 := by rw [List.length_drop]; omega
      refine ⟨mid.drop (mid.length - 4), ?_⟩
      split at h
      · split at h
        · cases h
        · cases h
          exact ⟨(List.take_append_drop ..).symm, by simp [partsFrame, micLength, hmic, hfield]⟩
      · cases h
        exact ⟨(List.take_append_drop ..).symm, by simp [partsFrame, micLength, hmic, hfield]⟩
  next hmic =>
    cases h
    exact ⟨[], by simp [partsFrame], by simp [partsFrame, micLength, hmic]⟩

theorem frameLayout_of_parsePacket {b : List Byte} {f : ParsedFrame} (h : parsePacket b = .ok f) :
    FrameLayout b f.payload (micLength f.ic f.eom) ∧ b.length ≤ 256 := by
  obtain ⟨b0, b2, b3, b5, b6, b7, b8, mid, rfl, hlen, hcount, hbody⟩ := parsePacket_ok h
  obtain ⟨field, rfl, hfield⟩ := partsBody_eq_ok hbody
  rw [List.length_append] at hlen hcount
  rw [← hfield]
  obtain ⟨hb, hrest⟩ :=
    frameLayout_of_parts (count := b2) (chunk := f.payload) (field := field) (by omega) b0 b3 b5 b6 b7 b8
  exact ⟨⟨hb, hrest⟩, by rw [hb]; omega⟩

/-- Settles O19: what the framer builds and what the parser accepts are the parts of R70 in order. -/
theorem packetsHaveFrameLayout : Obligations.PacketsHaveFrameLayout := by
  unfold Obligations.PacketsHaveFrameLayout
  constructor
  · intro da sa de se mt ic som eom seq tag chunk micIn s b h
    obtain ⟨hchunk, micOpt, hmic, rfl⟩ := buildFragment_eq_ok ((exec_buildFragment_packet_iff ..).mp h)
    have hlayout := frameLayout_assemble da sa de se som eom seq true tag (msgByte ic mt) hchunk micOpt
    rw [hmic] at hlayout
    exact hlayout
  · intro b s f h
    obtain ⟨⟨hlen, hcode, hversion, hcount, hchunk, hpec⟩, hmax⟩ :=
      frameLayout_of_parsePacket ((exec_parse_frame_iff ..).mp h)
    exact ⟨hlen, hmax, hcode, hversion, hcount, hchunk, hpec⟩

/-! ### The headers of a message's fragments (R83, R153) -/

/-- The frame an assembled packet is read as: its operands, with `seq` and `tag` cut to their widths. -/
def assembledFrame (da sa de se : Byte) (som eom : Bool) (seq : Byte) (toBit : Bool) (tag : Byte) (ic : Bool) (mt : BitVec 7)
    (chunk : List Byte) (micOpt : Option Word32) : ParsedFrame where
  destAddr := da
  byteCount := BitVec.ofNat 8 (6 + chunk.length + (micBytes micOpt).length)
  srcAddr := sa
  version := Config.hdrVer
  destEid := de
  srcEid := se
  som := som
  eom := eom
  toBit := toBit
  seq := seq.setWidth 2
  tag := tag.setWidth 3
  ic := ic
  msgType := mt
  payload := chunk
  mic := micOpt
  micOk := if som then micOpt.map fun _ => true else none
  pecOk := true

/-- `PARSE` reads an assembled packet back if its MIC field is there exactly when IC and EOM ask for it, and is right where
the packet is a whole message (R140). -/
theorem parsePacket_assemble_ok (da sa de se : Byte) (som eom : Bool) (seq : Byte) (toBit : Bool) (tag : Byte) (ic : Bool)
    (mt : BitVec 7) {chunk : List Byte} {micOpt : Option Word32} (hchunk : chunk.length ≤ 120)
    (hmic : micOpt.isSome = (ic && eom)) (hwhole : som = true → ∀ m ∈ micOpt, messageMic (msgByte ic mt) chunk = m) :
    parsePacket (assemble da sa de se som eom seq toBit tag (msgByte ic mt) chunk micOpt) =
      .ok (assembledFrame da sa de se som eom seq toBit tag ic mt chunk micOpt) := by
  rw [parsePacket_assemble (h := hchunk), partsBody, msgByteIc_msgByte, flagsEom_flagsByte, flagsSom_flagsByte, ← hmic]
  cases micOpt with
  | none => simp [partsFrame, assembledFrame]
  | some m =>
    cases som with
    | false => simp [partsFrame, assembledFrame]
    | true => simp [partsFrame, assembledFrame, hwhole rfl m rfl]

/-- The MIC field of fragment `i`: the whole message's, on the last fragment (R154). -/
def fragmentMicField (ic : Bool) (mt : BitVec 7) (payload : List Byte) (i : Nat) : Option Word32 :=
  if i = fragmentCount payload.length - 1 then wholeMic ic mt payload else none

theorem isSome_fragmentMicField (ic : Bool) (mt : BitVec 7) (payload : List Byte) (i : Nat) :
    (fragmentMicField ic mt payload i).isSome = (ic && decide (i = fragmentCount payload.length - 1)) := by
  unfold fragmentMicField wholeMic
  split
  next hlast => cases ic <;> simp [← hlast]
  next hlast => simp [hlast]

/-- A MIC on fragment 0 means that there is no other fragment, so that its chunk is the whole payload. -/
theorem messageMic_chunkOf_zero {ic : Bool} {mt : BitVec 7} {payload : List Byte} {m : Word32}
    (h : m ∈ fragmentMicField ic mt payload 0) : messageMic (msgByte ic mt) (chunkOf payload 0) = m := by
  have hpos := fragmentCount_pos payload.length
  unfold fragmentMicField wholeMic at h
  split at h
  next hlast =>
    rw [chunkOf_zero_of_single (by omega)]
    split at h
    · exact Option.some.inj h
    · cases h
  next => cases h

/-- What `PARSE` reads from fragment `i`: the message's one tag, TO = 1, the index as `seq`, and chunk `i`. -/
theorem parsePacket_fragmentPacket (da sa se : Byte) (tag : BitVec 3) (de : Byte) (mt : BitVec 7) (payload : List Byte)
    (ic : Bool) (i : Nat) :
    parsePacket (fragmentPacket da sa se tag de mt payload ic (fragmentCount payload.length) i) =
      .ok (assembledFrame da sa de se (decide (i = 0)) (decide (i = fragmentCount payload.length - 1))
        ((BitVec.ofNat 2 i).setWidth 8) true (tag.setWidth 8) ic mt (chunkOf payload i)
        (fragmentMicField ic mt payload i)) := by
  refine parsePacket_assemble_ok _ _ _ _ _ _ _ _ _ _ _ (chunkOf_length_le payload i)
    (isSome_fragmentMicField ic mt payload i) fun hfirst m hm => ?_
  obtain rfl := of_decide_eq_true hfirst
  exact messageMic_chunkOf_zero hm

/-- Fragment `i` of a message sent from the state `s`, which holds its tag, its addresses and its source EID (R150, R151). -/
def messageFragment (s : State) (de : Byte) (mt : BitVec 7) (payload : List Byte) (ic : Bool) (i : Nat) : Fragment where
  index := i
  seq := BitVec.ofNat 2 i
  som := decide (i = 0)
  eom := decide (i = fragmentCount payload.length - 1)
  packet := fragmentPacket s.cfgDestAddr s.cfgSrcAddr s.cfgSrcEid s.tagCtr de mt payload ic (fragmentCount payload.length) i

/-- `BUILD_FRAGMENTED` answers these fragments, in every state and for every payload. -/
theorem fragments_of_exec_buildFragmented {de : Byte} {mt : BitVec 7} {payload : List Byte} {ic : Bool} {s t : State}
    {m : FragmentedMessage} (h : exec (.buildFragmented de mt payload ic) s = .next t)
    (hresult : t.result = [.ok (.fragmented m)]) :
    m.fragments = (List.range (fragmentCount payload.length)).map (messageFragment s de mt payload ic) := by
  rw [exec, execBuildFragmented, fragmentMessage_ok] at h
  cases h
  cases hresult
  rfl

theorem length_filter_range_eq_one {k j : Nat} (h : j < k) : ((List.range k).filter fun i => decide (i = j)).length = 1 := by
  rw [← List.countP_eq_length_filter]
  exact List.count_eq_one_of_mem List.nodup_range (List.mem_range.mpr h)

/-- Settles O25: the fragments are those of the indices below the count, SOM and EOM each marks one index, and `PARSE` reads
each packet's operands back. -/
theorem fragmentHeadersKeepInvariants : Obligations.FragmentHeadersKeepInvariants := by
  unfold Obligations.FragmentHeadersKeepInvariants
  intro de mt payload ic s t m h hresult
  have hpos := fragmentCount_pos payload.length
  rw [fragments_of_exec_buildFragmented h hresult]
  refine ⟨?som, ?eom, fun i f hf => ?header⟩
  case som =>
    rw [List.filter_map, List.length_map]
    exact length_filter_range_eq_one hpos
  case eom =>
    rw [List.filter_map, List.length_map]
    exact length_filter_range_eq_one (Nat.sub_lt hpos Nat.one_pos)
  case header =>
    obtain ⟨hi, rfl⟩ := List.getElem?_eq_some_iff.mp hf
    rw [List.getElem_map, List.getElem_range]
    refine ⟨_, (exec_parse_frame_iff ..).mpr (parsePacket_fragmentPacket ..), ?_⟩
    simp [messageFragment, assembledFrame, chunkOf_eq]

end Sys2Proof.Proofs
end

section
/-! PROOF. What 40_integrity.md says of the two CRCs (R100 to R107, R109) and of the operations on spans and on the
byte-serial accumulators (R103, R107, R108, R111 to R115). -/

namespace Sys2Proof.Proofs

open Sys2Proof Sys2Proof.Machine

/-! ### The bit loops on numbers (R100, R101, R104, R105) -/

/-- A map that carries each turn of `f` to a turn of `g` carries the whole loop over. -/
theorem map_repeat {α β : Type} {f : α → α} {g : β → β} (φ : α → β) (h : ∀ a, φ (f a) = g (φ a)) (n : Nat) (a : α) :
    φ (Nat.repeat f n a) = Nat.repeat g n (φ a) := by
  induction n with
  | zero => rfl
  | succ n ih => rw [repeat_succ_apply, h, ih, repeat_succ_apply]

/-- One turn of the PEC's loop on a number below 256 (R100). -/
def pecTurn (n : Nat) : Nat := if n.testBit 7 then ((n <<< 1) &&& 0xFF) ^^^ 0x07 else (n <<< 1) &&& 0xFF

/-- One turn of the MIC's loop on a number below `2 ^ 32` (R104). -/
def micTurn (n : Nat) : Nat := if n.testBit 0 then (n >>> 1) ^^^ 0x82F63B78 else n >>> 1

theorem toNat_pecShift (c : Byte) : (pecShift c).toNat = pecTurn c.toNat := by
  have hshift : (c <<< 1).toNat = (c.toNat <<< 1) &&& 0xFF := by
    rw [BitVec.toNat_shiftLeft, Nat.and_two_pow_sub_one_eq_mod _ 8]
  rw [pecShift, pecTurn, BitVec.testBit_toNat, apply_ite BitVec.toNat, BitVec.toNat_xor, hshift]
  rfl

theorem toNat_micShift (c : Word32) : (micShift c).toNat = micTurn c.toNat := by
  rw [micShift, micTurn, BitVec.testBit_toNat, apply_ite BitVec.toNat, BitVec.toNat_xor, BitVec.toNat_ushiftRight]
  rfl

/-- Settles O6: reading the register as a number commutes with each turn of the loop. -/
theorem pecFollowsBitLoop : Obligations.PecFollowsBitLoop := by
  unfold Obligations.PecFollowsBitLoop
  refine ⟨fun c b => ?_, fun _ => rfl⟩
  rw [pecStep_def, map_repeat BitVec.toNat toNat_pecShift, BitVec.toNat_xor]
  rfl

/-- Settles O7: as for the PEC; the byte enters without a change of its value. -/
theorem micFollowsBitLoop : Obligations.MicFollowsBitLoop := by
  unfold Obligations.MicFollowsBitLoop
  refine ⟨fun c b => ?_, fun _ => rfl⟩
  rw [micStep_def, map_repeat BitVec.toNat toNat_micShift, BitVec.toNat_xor, BitVec.toNat_setWidth_of_le (by decide)]
  rfl

/-! ### A change of a single bit (R102 (e), R106 (e)) -/

theorem singleBit_ne_zero {k : Nat} (hk : k < 8) : ((1 <<< k : Nat) : Byte) ≠ 0 := by
  interval_cases k <;> decide

/-- A function that tells apart any two byte sequences that differ in one byte sees a change of byte `i` by a mask that is
not zero. -/
theorem modify_xor_ne {α : Type} {crc : List Byte → α}
    (hcrc : ∀ p t {b b'}, b ≠ b' → crc (p ++ b :: t) ≠ crc (p ++ b' :: t)) {s : List Byte} {i : Nat} (hi : i < s.length)
    {m : Byte} (hm : m ≠ 0) : crc (s.modify i (· ^^^ m)) ≠ crc s := by
  obtain ⟨p, b, t, hs, -, hmodify⟩ := List.exists_of_modify (· ^^^ m) hi
  rw [hmodify, hs]
  exact hcrc p t (by simpa using hm)

/-! ### The laws of the PEC (R102) -/

@[simp] theorem pecStep_zero : pecStep 0 0 = 0 := pecStep_self 0

theorem pec_append (s t : List Byte) : pec (s ++ t) = pecFold (pec s) t := pecFold_append 0 s t

/-- The residue: a message followed by its own PEC leaves the register at zero. -/
theorem pec_append_pec (s : List Byte) : pec (s ++ [pec s]) = 0 := by
  rw [pec_append, pecFold_cons, pecFold_nil, pecStep_self]

theorem pec_zero_cons (s : List Byte) : pec (0 :: s) = pec s := by
  rw [pec, pecFold_cons, pecStep_zero, pec]

theorem pecFold_zipWith_xor {s t : List Byte} (h : s.length = t.length) (c d : Byte) :
    pecFold (c ^^^ d) (List.zipWith (· ^^^ ·) s t) = pecFold c s ^^^ pecFold d t := by
  induction s generalizing t c d with
  | nil =>
    obtain rfl := List.eq_nil_of_length_eq_zero h.symm
    rfl
  | cons a s ih =>
    obtain ⟨b, t, rfl⟩ := List.exists_cons_of_length_eq_add_one h.symm
    rw [List.zipWith_cons_cons, pecFold_cons, pecFold_cons, pecFold_cons, pecStep_xor, ih (Nat.succ.inj h)]

theorem pec_zipWith_xor {s t : List Byte} (h : s.length = t.length) :
    pec (List.zipWith (· ^^^ ·) s t) = pec s ^^^ pec t := pecFold_zipWith_xor h 0 0

/-- Settles O9: each law is one of the lemmas above. -/
theorem pecLaws : Obligations.PecLaws :=
  ⟨rfl, pec_append, pec_append_pec, fun _ _ => pec_zipWith_xor, pec_zero_cons,
    fun _ _ _ hi hk => modify_xor_ne pec_ne_of_one_byte hi (singleBit_ne_zero hk)⟩

/-! ### The MIC's step takes the low byte and shifts the rest (R109) -/

/-- While the bit shifted out is 0 the loop only shifts. -/
theorem repeat_micShift_of_low_zero (n : Nat) {c : Word32} (h : ∀ i < n, c.getLsbD i = false) :
    Nat.repeat micShift n c = c >>> n := by
  induction n with
  | zero => exact (BitVec.ushiftRight_zero c).symm
  | succ n ih =>
    have hbit : (c >>> n).getLsbD 0 = false := by rw [BitVec.getLsbD_ushiftRight]; exact h n n.lt_succ_self
    rw [repeat_succ_apply, ih fun i hi => h i (Nat.lt_succ_of_lt hi), micShift, hbit, BitVec.shiftRight_add]
    rfl

/-- A word is its low byte and the rest. -/
theorem low_xor_high (v : Word32) : (v.setWidth 8).setWidth 32 ^^^ (v >>> 8) <<< 8 = v := by
  apply BitVec.eq_of_getLsbD_eq
  intro i hi
  by_cases hlow : i < 8
  · simp [hlow, hi]
  · simp [hlow, hi, Nat.add_sub_cancel' (Nat.le_of_not_lt hlow)]

theorem shiftLeft_ushiftRight_ushiftRight (v : Word32) : ((v >>> 8) <<< 8) >>> 8 = v >>> 8 := by
  apply BitVec.eq_of_toNat_eq
  simp only [BitVec.toNat_ushiftRight, BitVec.toNat_shiftLeft, Nat.shiftRight_eq_div_pow, Nat.shiftLeft_eq]
  omega

/-- Eight turns on `c ^ v`: the low byte of `v` goes through the loop, the rest is only shifted down. -/
theorem micStep_xor_high (c v : Word32) :
    micStep c (v.setWidth 8) ^^^ v >>> 8 = Nat.repeat micShift 8 (c ^^^ v) := by
  have hhigh : Nat.repeat micShift 8 ((v >>> 8) <<< 8) = v >>> 8 := by
    rw [repeat_micShift_of_low_zero 8 fun i hi => by simp [hi], shiftLeft_ushiftRight_ushiftRight]
  calc micStep c (v.setWidth 8) ^^^ v >>> 8
      = Nat.repeat micShift 8 (c ^^^ (v.setWidth 8).setWidth 32) ^^^ Nat.repeat micShift 8 ((v >>> 8) <<< 8) := by
        rw [micStep_def, hhigh]
    _ = Nat.repeat micShift 8 (c ^^^ ((v.setWidth 8).setWidth 32 ^^^ (v >>> 8) <<< 8)) := by
        rw [← repeat_map_two micShift (· ^^^ ·) micShift_xor, BitVec.xor_assoc]
    _ = Nat.repeat micShift 8 (c ^^^ v) := by rw [low_xor_high]

theorem setWidth_ushiftRight_eight (b : Byte) : b.setWidth 32 >>> 8 = 0 := by
  apply BitVec.eq_of_toNat_eq
  rw [BitVec.toNat_ushiftRight, BitVec.toNat_setWidth_of_le (by decide)]
  exact Nat.shiftRight_eq_zero _ _ b.isLt

/-- Settles O11: the PEC's step sees `c ^ b` only; the MIC's step is the look-up of the low byte of `c ^ b`, and the rest of
that is `c >> 8`. -/
theorem crcStepsAreTableLookups : Obligations.CrcStepsAreTableLookups := by
  unfold Obligations.CrcStepsAreTableLookups
  constructor
  · intro c b
    exact congrArg (Nat.repeat pecShift 8) BitVec.zero_xor.symm
  · intro c b
    have hindex : ((c ^^^ b.setWidth 32) &&& 0xFF).setWidth 8 = (c ^^^ b.setWidth 32).setWidth 8 := by
      rw [BitVec.setWidth_and]
      exact BitVec.and_allOnes
    have hrest : (c ^^^ b.setWidth 32) >>> 8 = c >>> 8 := by
      rw [BitVec.ushiftRight_xor_distrib, setWidth_ushiftRight_eight]
      exact BitVec.xor_zero
    calc micStep c b
        = Nat.repeat micShift 8 (0 ^^^ (c ^^^ b.setWidth 32)) := congrArg (Nat.repeat micShift 8) BitVec.zero_xor.symm
      _ = c >>> 8 ^^^ micStep 0 (((c ^^^ b.setWidth 32) &&& 0xFF).setWidth 8) := by
        rw [← micStep_xor_high, hindex, hrest, BitVec.xor_comm]

/-! ### The laws of the MIC (R106) -/

/-- The low `n` bytes of a word, the least significant first. -/
def leBytes : Nat → Word32 → List Byte
  | 0, _ => []
  | n + 1, v => v.setWidth 8 :: leBytes n (v >>> 8)

theorem micWire_eq_leBytes (v : Word32) : micWire v = leBytes 4 v := by
  have hbyte (k : Nat) : BitVec.ofNat 8 (v.toNat / 2 ^ k) = (v >>> k).setWidth 8 := by
    rw [← Nat.shiftRight_eq_div_pow, ← BitVec.toNat_ushiftRight]
    rfl
  rw [micWire, hbyte, hbyte, hbyte]
  rfl

/-- Feeding the low `n` bytes of `v` one by one is feeding them at once, 8 turns for each byte. -/
theorem micFold_leBytes (n : Nat) (c v : Word32) :
    micFold c (leBytes n v) ^^^ v >>> (8 * n) = Nat.repeat micShift (8 * n) (c ^^^ v) := by
  induction n generalizing c v with
  | zero => exact congrArg (c ^^^ ·) (BitVec.ushiftRight_zero v)
  | succ n ih =>
    calc micFold c (leBytes (n + 1) v) ^^^ v >>> (8 * (n + 1))
        = micFold (micStep c (v.setWidth 8)) (leBytes n (v >>> 8)) ^^^ (v >>> 8) >>> (8 * n) := by
          rw [leBytes, micFold_cons, ← BitVec.shiftRight_add, Nat.mul_succ, Nat.add_comm 8]
      _ = Nat.repeat micShift (8 * n) (Nat.repeat micShift 8 (c ^^^ v)) := by rw [ih, micStep_xor_high]
      _ = Nat.repeat micShift (8 * (n + 1)) (c ^^^ v) := by rw [← repeat_add_apply, Nat.mul_succ]

theorem micFold_micWire (c v : Word32) : micFold c (micWire v) = Nat.repeat micShift 32 (c ^^^ v) := by
  rw [micWire_eq_leBytes, ← micFold_leBytes 4, BitVec.ushiftRight_eq_zero le_rfl, BitVec.xor_zero]

/-- The residue: a message's own MIC cancels its register, and what is left to the loop is the final exclusive or. -/
theorem micFold_append_mic (s : List Byte) : micFold 0xFFFFFFFF (s ++ micWire (mic s)) = 0xB798B438 := by
  have hcancel (r : Word32) : r ^^^ micFinal r = 0xFFFFFFFF := by
    rw [micFinal, ← BitVec.xor_assoc, BitVec.xor_self, BitVec.zero_xor]
  rw [micFold_append, micFold_micWire, mic, hcancel]
  decide +kernel

/-- Settles O10: each law is one of the lemmas above; `mic` of the residue is its final exclusive or. -/
theorem micLaws : Obligations.MicLaws := by
  unfold Obligations.MicLaws
  refine ⟨rfl, micFold_append, fun s => ⟨micFold_append_mic s, ?_⟩, by decide,
    fun _ _ _ hi hk => modify_xor_ne mic_ne_of_one_byte hi (singleBit_ne_zero hk)⟩
  rw [mic, micFold_append_mic]
  rfl

/-! ### The operations on spans and on the accumulators -/

theorem exec_pecCalc (span : List Byte) (s : State) : exec (.pecCalc span) s = .next (s.answer (.byte (pec span))) := rfl

theorem exec_pecInit (s : State) : exec .pecInit s = .next ({ s with pecAcc := 0 }.answer .unit) := rfl

theorem exec_pecUpdate (b : Byte) (s : State) :
    exec (.pecUpdate b) s = .next ({ s with pecAcc := pecStep s.pecAcc b }.answer .unit) := rfl

theorem exec_pecRead (s : State) : exec .pecRead s = .next (s.answer (.byte s.pecAcc)) := rfl

theorem exec_micCalc (span : List Byte) (s : State) : exec (.micCalc span) s = .next (s.answer (.word (mic span))) := rfl

theorem exec_micInit (s : State) : exec .micInit s = .next ({ s with micAcc := 0xFFFFFFFF }.answer .unit) := rfl

theorem exec_micUpdate (b : Byte) (s : State) :
    exec (.micUpdate b) s = .next ({ s with micAcc := micStep s.micAcc b }.answer .unit) := rfl

theorem exec_micRead (s : State) : exec .micRead s = .next (s.answer (.word (micFinal s.micAcc))) := rfl

theorem pec_replicate_zero (n : Nat) : pec (List.replicate n 0) = 0 := by
  induction n with
  | zero => rfl
  | succ n ih => rw [List.replicate_succ, pec_zero_cons, ih]

/-- Settles O8: the two operations answer and write nothing; zero bytes leave the PEC's register at zero. -/
theorem spanCrcOperationsComplete : Obligations.SpanCrcOperationsComplete := by
  unfold Obligations.SpanCrcOperationsComplete
  refine ⟨fun span s => ⟨exec_pecCalc span s, exec_micCalc span s⟩, rfl, rfl, pec_replicate_zero, ?examples⟩
  decide +kernel

/-- Settles O12: the two writes; for a zero byte and a zero accumulator the value written is the value that was there. -/
theorem pecAccumulatorWrites : Obligations.PecAccumulatorWrites := by
  unfold Obligations.PecAccumulatorWrites
  refine ⟨exec_pecInit, exec_pecUpdate, fun s hzero => ?_⟩
  have hkept : pecStep s.pecAcc 0 = s.pecAcc := by rw [hzero, pecStep_zero]
  rw [exec_pecUpdate, hkept]
  rfl

/-- Settles O14: both operations are one write and one answer. -/
theorem micAccumulatorWrites : Obligations.MicAccumulatorWrites := ⟨exec_micInit, exec_micUpdate⟩

/-! ### Bytes fed one by one (R108, R113) -/

/-- From the state `s`, the operations `init`, `update` and `read` drive one register byte by byte: `init` writes `start`,
`update` takes the step `f`, and `read` answers `out` of the value. `holding a` is `s` with the value `a` in the register. -/
structure DrivesRegister {α : Type} (holding : α → State) (start : α) (f : α → Byte → α) (out : α → Value) (s : State)
    (init : Instr) (update : Byte → Instr) (read : Instr) : Prop where
  exec_init : exec init s = .next ((holding start).answer .unit)
  exec_update : ∀ a v b, exec (update b) ((holding a).answer v) = .next ((holding (f a b)).answer .unit)
  exec_read : ∀ a v, exec read ((holding a).answer v) = .next ((holding a).answer (out a))

theorem pecOperations_drive (s : State) :
    DrivesRegister (fun c => { s with pecAcc := c }) 0 pecStep .byte s .pecInit .pecUpdate .pecRead :=
  ⟨exec_pecInit s, fun _ _ b => exec_pecUpdate b _, fun _ _ => exec_pecRead _⟩

theorem micOperations_drive (s : State) :
    DrivesRegister (fun c => { s with micAcc := c }) 0xFFFFFFFF micStep (fun c => .word (micFinal c)) s .micInit .micUpdate
      .micRead :=
  ⟨exec_micInit s, fun _ _ b => exec_micUpdate b _, fun _ _ => exec_micRead _⟩

theorem runAll_cons_of_exec {i : Instr} {s t : State} (h : exec i s = .next t) (is : List Instr) :
    runAll (i :: is) s = runAll is t := by
  rw [runAll, h]

namespace DrivesRegister

variable {α : Type} {holding : α → State} {start : α} {f : α → Byte → α} {out : α → Value} {s : State} {init : Instr}
  {update : Byte → Instr} {read : Instr}

/-- Bytes fed one by one, then the read: the register holds the fold over them, and the read answers its value. -/
theorem runAll_updates_read (h : DrivesRegister holding start f out s init update read) (b : List Byte) (is : List Instr)
    (a : α) (v : Value) :
    runAll (b.map update ++ read :: is) ((holding a).answer v) =
      runAll is ((holding (b.foldl f a)).answer (out (b.foldl f a))) := by
  induction b generalizing a v with
  | nil => exact runAll_cons_of_exec (h.exec_read a v) is
  | cons x b ih =>
    rw [List.map_cons, List.cons_append, runAll_cons_of_exec (h.exec_update a v x), ih, List.foldl_cons]

theorem runAll_stream (h : DrivesRegister holding start f out s init update read) (b : List Byte) :
    runAll (init :: b.map update ++ [read]) s =
      .next ((holding (b.foldl f start)).answer (out (b.foldl f start))) := by
  rw [List.cons_append, runAll_cons_of_exec h.exec_init, h.runAll_updates_read, runAll]

/-- A read in between changes nothing: more bytes may be fed afterwards (R108, R113). -/
theorem runAll_stream_stream (h : DrivesRegister holding start f out s init update read) (b c : List Byte) :
    runAll (init :: b.map update ++ read :: c.map update ++ [read]) s =
      .next ((holding ((b ++ c).foldl f start)).answer (out ((b ++ c).foldl f start))) := by
  rw [List.append_assoc, List.cons_append, List.cons_append, runAll_cons_of_exec h.exec_init, h.runAll_updates_read,
    h.runAll_updates_read, runAll, List.foldl_append]

end DrivesRegister

/-- Settles O13: the PEC's operations drive `PEC_ACC` with `pec_step` from 0x00. -/
theorem pecReadReturnsPecOfFedBytes : Obligations.PecReadReturnsPecOfFedBytes :=
  ⟨exec_pecRead, fun b s => (pecOperations_drive s).runAll_stream b,
    fun b c s => (pecOperations_drive s).runAll_stream_stream b c⟩

/-- Settles O15: the MIC's operations drive `MIC_ACC` with `mic_step` from 0xFFFFFFFF, and the read finalises. -/
theorem micReadReturnsMicOfFedBytes : Obligations.MicReadReturnsMicOfFedBytes :=
  ⟨exec_micRead, fun b s => ⟨_, (micOperations_drive s).runAll_stream b, rfl⟩,
    fun b c s => ⟨_, (micOperations_drive s).runAll_stream_stream b c, rfl⟩⟩

end Sys2Proof.Proofs
end

section
/-! PROOF. What 41_framer.md says of the framer: `BUILD_SINGLE` (R122), `BUILD_FRAGMENT` (R126), the numbered checks of `PARSE`
(R136, R138), the two round trips (R143, R144), and a packet with one bit flipped (R145). -/

namespace Sys2Proof.Proofs

open Sys2Proof Sys2Proof.Machine

/-! ### The outcomes of the three operations -/

theorem exec_parse_of_ok {b : List Byte} {f : ParsedFrame} (h : parsePacket b = .ok f) (s : State) :
    exec (.parse b) s = .next { s with result := [.ok (.frame f)] } := (exec_parse_frame_iff b s f).mpr h

theorem exec_parse_of_error {b : List Byte} {e : Err} (h : parsePacket b = .error e) (s : State) :
    exec (.parse b) s = .next { s with result := [.error e] } := by
  rw [exec, execParse, h]
  rfl

theorem exec_buildSingle_of_ok {da sa de se tag : Byte} {mt : BitVec 7} {payload : List Byte} {ic : Bool} {b : List Byte}
    (h : buildSingle da sa de se tag mt payload ic = .ok b) (s : State) :
    exec (.buildSingle da sa de se tag mt payload ic) s = .next { s with result := [.ok (.packet b)] } := by
  rw [exec, execBuildSingle, h]
  rfl

theorem exec_buildSingle_of_error {da sa de se tag : Byte} {mt : BitVec 7} {payload : List Byte} {ic : Bool} {e : Err}
    (h : buildSingle da sa de se tag mt payload ic = .error e) (s : State) :
    exec (.buildSingle da sa de se tag mt payload ic) s = .next { s with result := [.error e] } := by
  rw [exec, execBuildSingle, h]
  rfl

theorem exec_buildFragment_of_error {da sa de se : Byte} {mt : BitVec 7} {ic som eom : Bool} {seq tag : Byte}
    {chunk : List Byte} {micIn : Option Word32} {e : Err}
    (h : buildFragment da sa de se mt ic som eom seq tag chunk micIn = .error e) (s : State) :
    exec (.buildFragment da sa de se mt ic som eom seq tag chunk micIn) s = .next { s with result := [.error e] } := by
  rw [exec, execBuildFragment, h]
  rfl

/-! ### The packets the framer builds, by the spec's formulas (R70, R74) -/

theorem le32_eq_micWire (v : Word32) : le32 v = micWire v := by
  have hbyte (k : Nat) : v.extractLsb' k 8 = BitVec.ofNat 8 (v.toNat / 2 ^ k) :=
    BitVec.eq_of_toNat_eq (by rw [toNat_extractLsb'_byte, BitVec.toNat_ofNat])
  simp only [le32, micWire, hbyte, pow_zero, Nat.div_one]

theorem micBytes_eq_micWireOpt (micOpt : Option Word32) : micBytes micOpt = micWireOpt micOpt := by
  cases micOpt with
  | none => rfl
  | some v => exact le32_eq_micWire v

/-- What the common assembly function builds is the packet of R70. -/
theorem assemble_eq_wirePacket (da sa de se : Byte) (som eom : Bool) (seq : Byte) (toBit : Bool) (tag : Byte) (ic : Bool)
    (mt : BitVec 7) (chunk : List Byte) (micOpt : Option Word32) :
    assemble da sa de se som eom seq toBit tag (msgByte ic mt) chunk micOpt =
      wirePacket da sa de se som eom seq.toNat toBit tag.toNat ic mt chunk micOpt := by
  rw [assemble_eq, micBytes_eq_micWireOpt, flagsByte_eq_flagsValue, msgByte_eq_msgValue, ← List.append_assoc]
  rfl

/-! ### From the operands to the packet and back (R143, R144) -/

/-- A whole message that fits in one packet is one assembled packet with the message's MIC (R122). -/
theorem buildSingle_eq_assemble {payload : List Byte} (h : payload.length ≤ 120) (da sa de se tag : Byte) (mt : BitVec 7)
    (ic : Bool) :
    buildSingle da sa de se tag mt payload ic =
      .ok (assemble da sa de se true true 0 true tag (msgByte ic mt) payload (wholeMic ic mt payload)) :=
  buildSingle_ok h da sa de se tag mt ic

theorem isSome_wholeMic (ic : Bool) (mt : BitVec 7) (payload : List Byte) : (wholeMic ic mt payload).isSome = ic := by
  cases ic <;> rfl

theorem eq_messageMic_of_mem_wholeMic {ic : Bool} {mt : BitVec 7} {payload : List Byte} {m : Word32}
    (h : m ∈ wholeMic ic mt payload) : messageMic (msgByte ic mt) payload = m := by
  cases ic with
  | false => cases h
  | true => exact Option.some.inj h

/-- `PARSE` gives the operands of `BUILD_SINGLE` back. -/
theorem parsePacket_whole {payload : List Byte} (h : payload.length ≤ 120) (da sa de se tag : Byte) (mt : BitVec 7)
    (ic : Bool) :
    parsePacket (assemble da sa de se true true 0 true tag (msgByte ic mt) payload (wholeMic ic mt payload)) =
      .ok (assembledFrame da sa de se true true 0 true tag ic mt payload (wholeMic ic mt payload)) :=
  parsePacket_assemble_ok _ _ _ _ _ _ _ _ _ _ _ h (by rw [isSome_wholeMic, Bool.and_true])
    fun _ _ => eq_messageMic_of_mem_wholeMic

/-- Settles O20: the packet is an assembled one with the message's own MIC, which `PARSE` reads as the frame of its operands. -/
theorem buildThenParseRoundTrip : Obligations.BuildThenParseRoundTrip := by
  unfold Obligations.BuildThenParseRoundTrip
  intro da sa de se tag mt payload ic s hfits
  refine ⟨_, _, exec_buildSingle_of_ok (buildSingle_eq_assemble hfits ..) s,
    exec_parse_of_ok (parsePacket_whole hfits ..) s, rfl, rfl, ?micOk, rfl, rfl, rfl, rfl, ?tag, rfl, rfl, rfl, rfl, rfl, rfl⟩
  case micOk => rintro rfl; rfl
  case tag => exact BitVec.toNat_setWidth ..

/-- The header fields of an accepted packet are those of its header bytes, whatever its MIC field. -/
theorem exists_eq_partsFrame {b0 b2 b3 b4 b5 b6 b7 b8 : Byte} {mid : List Byte} {f : ParsedFrame}
    (h : partsBody b0 b2 b3 b4 b5 b6 b7 b8 mid = .ok f) :
    ∃ payload micField micOk, f = partsFrame b0 b2 b3 b4 b5 b6 b7 b8 payload micField micOk := by
  unfold partsBody at h
  split at h
  · split at h
    · cases h
    · split at h
      · split at h
        · cases h
        · exact ⟨_, _, _, (Except.ok.inj h).symm⟩
      · exact ⟨_, _, _, (Except.ok.inj h).symm⟩
  · exact ⟨_, _, _, (Except.ok.inj h).symm⟩

/-- An accepted whole message is its payload and the MIC that `BUILD_SINGLE` computes for it, if it has one (R140). -/
theorem mid_eq_of_whole_partsBody {b0 b2 b3 b4 b5 b6 b7 b8 : Byte} {mid : List Byte} {f : ParsedFrame}
    (h : partsBody b0 b2 b3 b4 b5 b6 b7 b8 mid = .ok f) (hsom : flagsSom b7 = true) (heom : flagsEom b7 = true) :
    mid = f.payload ++ micBytes (wholeMic (msgByteIc b8) (msgByteType b8) f.payload) := by
  rw [partsBody, heom, Bool.and_true, if_pos hsom] at h
  cases hic : msgByteIc b8 with
  | false =>
    rw [hic] at h
    cases h
    exact (List.append_nil mid).symm
  | true =>
    rw [if_pos hic] at h
    split at h
    · cases h
    next hlen =>
      split at h
      · cases h
      next hmic =>
        have hmb : msgByte true (msgByteType b8) = b8 := by rw [← hic, msgByte_fields]
        have hfield : (mid.drop (mid.length - 4)).length = 4 := by rw [List.length_drop]; omega
        cases h
        simp only [partsFrame, wholeMic, if_true, hmb, Decidable.not_not.mp hmic, micBytes_some, le32_unLe32 hfield,
          List.take_append_drop]

/-- `BUILD_SINGLE` gives an accepted whole message back from its fields. -/
theorem buildSingle_of_parsePacket {b : List Byte} {f : ParsedFrame} (h : parsePacket b = .ok f) (hsom : f.som = true)
    (heom : f.eom = true) (hseq : f.seq = 0) (hto : f.toBit = true) (hfits : f.payload.length ≤ 120) :
    buildSingle f.destAddr f.srcAddr f.destEid f.srcEid (f.tag.setWidth 8) f.msgType f.payload f.ic = .ok b := by
  obtain ⟨b0, b2, b3, b5, b6, b7, b8, mid, rfl, -, hcount, hbody⟩ := parsePacket_ok h
  obtain ⟨payload, micField, micOk, rfl⟩ := exists_eq_partsFrame hbody
  have hflags : flagsByte true true 0 true ((flagsTag b7).setWidth 8) = b7 := by
    have hfields := flagsByte_fields b7
    rwa [show flagsSom b7 = true from hsom, show flagsEom b7 = true from heom, show flagsSeq b7 = 0 from hseq,
      show flagsTo b7 = true from hto] at hfields
  obtain rfl : mid = payload ++ micBytes (wholeMic (msgByteIc b8) (msgByteType b8) payload) :=
    mid_eq_of_whole_partsBody hbody hsom heom
  have hbyteCount : BitVec.ofNat 8 (6 + payload.length +
      (micBytes (wholeMic (msgByteIc b8) (msgByteType b8) payload)).length) = b2 := by
    rw [List.length_append] at hcount
    rw [Nat.add_assoc, Nat.add_comm 6, ← hcount, BitVec.ofNat_toNat, BitVec.setWidth_eq]
  rw [buildSingle_eq_assemble hfits, assemble_eq]
  simp only [partsFrame, hflags, hbyteCount, msgByte_fields]

/-- Settles O21: every byte of an accepted whole message is determined by the fields that `BUILD_SINGLE` is given. -/
theorem parseThenBuildRoundTrip : Obligations.ParseThenBuildRoundTrip := by
  unfold Obligations.ParseThenBuildRoundTrip
  intro b f s hparse hsom heom hseq hto hfits
  exact exec_buildSingle_of_ok
    (buildSingle_of_parsePacket ((exec_parse_frame_iff ..).mp hparse) hsom heom hseq hto hfits) s

/-! ### The packets of the two builders (R122, R126) -/

/-- Settles O16: the two answers of the framer; the packet it assembles is the one of the formulas. -/
theorem buildSingleReturnsPacket : Obligations.BuildSingleReturnsPacket := by
  unfold Obligations.BuildSingleReturnsPacket
  intro da sa de se tag mt payload ic s
  refine ⟨fun hfits => ?fits, fun hlong => ?long⟩
  case fits =>
    have hbuild := buildSingle_eq_assemble hfits da sa de se tag mt ic
    rw [assemble_eq_wirePacket, wholeMic, messageMic, msgByte_eq_msgValue] at hbuild
    exact exec_buildSingle_of_ok hbuild s
  case long => exact exec_buildSingle_of_error (buildSingle_too_long hlong ..) s

/-- The MIC field of a fragment that is a whole message is computed, and `mic_in` does not count (R128). -/
theorem fragmentMic_whole (ic : Bool) (mt : BitVec 7) (chunk : List Byte) (micIn : Option Word32) :
    fragmentMic ic true true (msgByte ic mt) chunk micIn = .ok (wholeMic ic mt chunk) := by
  cases ic <;> rfl

/-- A fragment that is not the last, or that declares no IC, has no MIC field (R128). -/
theorem fragmentMic_none {ic eom : Bool} (h : ic = false ∨ eom = false) (som : Bool) (mb : Byte) (chunk : List Byte)
    (micIn : Option Word32) : fragmentMic ic som eom mb chunk micIn = .ok none := by
  rcases h with rfl | rfl
  · rfl
  · cases ic <;> rfl

section

variable {chunk : List Byte} (hfits : chunk.length ≤ 120) {ic som eom : Bool} {mt : BitVec 7} {micIn : Option Word32}

include hfits

/-- A chunk that fits, with the MIC field that R128 gives it, is answered with the packet of R70. -/
theorem exec_buildFragment_of_mic {micOpt : Option Word32}
    (hmic : fragmentMic ic som eom (msgByte ic mt) chunk micIn = .ok micOpt) (da sa de se seq tag : Byte) (s : State) :
    exec (.buildFragment da sa de se mt ic som eom seq tag chunk micIn) s = .next { s with result := [.ok (.packet
      (wirePacket da sa de se som eom seq.toNat true tag.toNat ic mt chunk micOpt))] } := by
  rw [exec_buildFragment_packet_iff, buildFragment_of_fits hfits, hmic, ← assemble_eq_wirePacket]
  rfl

theorem exec_buildFragment_of_mic_error {e : Err}
    (hmic : fragmentMic ic som eom (msgByte ic mt) chunk micIn = .error e) (da sa de se seq tag : Byte) (s : State) :
    exec (.buildFragment da sa de se mt ic som eom seq tag chunk micIn) s = .next { s with result := [.error e] } :=
  exec_buildFragment_of_error (by rw [buildFragment_of_fits hfits, hmic]; rfl) s

end

/-- Settles O17: the cases of the MIC field; for a whole message it is the one that `BUILD_SINGLE` computes. -/
theorem buildFragmentReturnsPacket : Obligations.BuildFragmentReturnsPacket := by
  unfold Obligations.BuildFragmentReturnsPacket
  refine ⟨fun da sa de se mt ic som eom seq tag chunk micIn s => ⟨fun hlong => ?long, ?missing, ?given, ?computed, ?absent⟩,
    fun da sa de se tag mt ic chunk micIn s hfits => ?single⟩
  case long => exact exec_buildFragment_of_error (buildFragment_too_long hlong ..) s
  case missing =>
    rintro hfits rfl rfl rfl rfl
    exact exec_buildFragment_of_mic_error hfits rfl ..
  case given =>
    rintro hfits rfl rfl rfl m rfl
    exact exec_buildFragment_of_mic hfits rfl ..
  case computed =>
    rintro hfits rfl rfl rfl
    rw [← msgByte_eq_msgValue]
    exact exec_buildFragment_of_mic hfits (fragmentMic_whole ..) ..
  case absent =>
    intro hfits hnone
    exact exec_buildFragment_of_mic hfits (fragmentMic_none hnone ..) ..
  case single =>
    rw [exec_buildFragment_of_mic hfits (fragmentMic_whole ..), exec_buildSingle_of_ok (buildSingle_eq_assemble hfits ..),
      assemble_eq_wirePacket]

/-! ### The numbered checks of `PARSE` (R136, R138) -/

theorem parsePacket_oversized {b : List Byte} (h : 256 < b.length) : parsePacket b = .error (.badOperand .packet) :=
  if_pos h

theorem parsePacket_undersized {b : List Byte} (h : b.length < 10) : parsePacket b = .error (.plain .shortPacket) :=
  (if_neg (show ¬ 256 < b.length by omega)).trans (if_pos h)

section

variable {b : List Byte} (hmin : 10 ≤ b.length) (hmax : b.length ≤ 256)

include hmin hmax

/-- A packet of legal length is judged by its command code, and after that by the checks that follow (R136). -/
theorem parsePacket_of_legalLength : parsePacket b =
    if byteAt b 1 ≠ Config.cmdCode then .error (.at .wrongCommandCode 1)
    else if b.length < (byteAt b 2).toNat + 4 then .error (.at .shortPacket 2)
    else if (byteAt b 2).toNat + 4 < b.length then .error (.at .badByteCount 2)
    else if versionReserved (byteAt b 4) ≠ 0 then .error (.at .reservedBitsSet 4)
    else if versionField (byteAt b 4) ≠ Config.hdrVer then .error (.at .badVersion 4)
    else if pec b.dropLast ≠ byteAt b (b.length - 1) then .error (.at .badPec (b.length - 1))
    else parseBody b :=
  (if_neg hmax.not_gt).trans (if_neg hmin.not_gt)

theorem parsePacket_wrongCode (hcode : byteAt b 1 ≠ Config.cmdCode) :
    parsePacket b = .error (.at .wrongCommandCode 1) := by
  rw [parsePacket_of_legalLength hmin hmax, if_pos hcode]

variable (hcode : byteAt b 1 = Config.cmdCode)

include hcode

theorem parsePacket_countTooLarge (hcount : b.length < (byteAt b 2).toNat + 4) :
    parsePacket b = .error (.at .shortPacket 2) := by
  rw [parsePacket_of_legalLength hmin hmax, if_neg (not_not.mpr hcode), if_pos hcount]

theorem parsePacket_countTooSmall (hcount : (byteAt b 2).toNat + 4 < b.length) :
    parsePacket b = .error (.at .badByteCount 2) := by
  rw [parsePacket_of_legalLength hmin hmax, if_neg (not_not.mpr hcode), if_neg hcount.not_gt, if_pos hcount]

variable (hcount : (byteAt b 2).toNat + 4 = b.length)

include hcount

/-- With the command code and the byte count right too, it is judged by its version byte and its PEC. -/
theorem parsePacket_of_byteCount : parsePacket b =
    if versionReserved (byteAt b 4) ≠ 0 then .error (.at .reservedBitsSet 4)
    else if versionField (byteAt b 4) ≠ Config.hdrVer then .error (.at .badVersion 4)
    else if pec b.dropLast ≠ byteAt b (b.length - 1) then .error (.at .badPec (b.length - 1))
    else parseBody b := by
  rw [parsePacket_of_legalLength hmin hmax, if_neg (not_not.mpr hcode), if_neg hcount.ge.not_gt, if_neg hcount.le.not_gt]

theorem parsePacket_reserved (hreserved : versionReserved (byteAt b 4) ≠ 0) :
    parsePacket b = .error (.at .reservedBitsSet 4) := by
  rw [parsePacket_of_byteCount hmin hmax hcode hcount, if_pos hreserved]

theorem parsePacket_badVersion (hreserved : versionReserved (byteAt b 4) = 0)
    (hversion : versionField (byteAt b 4) ≠ Config.hdrVer) : parsePacket b = .error (.at .badVersion 4) := by
  rw [parsePacket_of_byteCount hmin hmax hcode hcount, if_neg (not_not.mpr hreserved), if_pos hversion]

variable (hversion : byteAt b 4 = versionByte)

include hversion

/-- With the version byte right too, it is judged by its PEC. -/
theorem parsePacket_of_version : parsePacket b =
    if pec b.dropLast ≠ byteAt b (b.length - 1) then .error (.at .badPec (b.length - 1)) else parseBody b := by
  obtain ⟨hreserved, hfield⟩ := (version_tests_iff _).mpr hversion
  rw [parsePacket_of_byteCount hmin hmax hcode hcount, if_neg (not_not.mpr hreserved), if_neg (not_not.mpr hfield)]

theorem parsePacket_badPec (hpec : pec b.dropLast ≠ byteAt b (b.length - 1)) :
    parsePacket b = .error (.at .badPec (b.length - 1)) := by
  rw [parsePacket_of_version hmin hmax hcode hcount hversion, if_pos hpec]

theorem parsePacket_of_pec (hpec : pec b.dropLast = byteAt b (b.length - 1)) : parsePacket b = parseBody b := by
  rw [parsePacket_of_version hmin hmax hcode hcount hversion, if_neg (not_not.mpr hpec)]

end

/-! ### The bytes and bits of a packet as numbers (R75, R77, R78, R51) -/

theorem bitValue_getLsbD (x : Byte) (k : Nat) : bitValue (x.getLsbD k) = x.toNat / 2 ^ k % 2 := by
  have hbit : x.getLsbD k = decide (x.toNat / 2 ^ k % 2 = 1) := Nat.testBit_eq_decide_div_mod_eq
  rw [hbit]
  rcases Nat.mod_two_eq_zero_or_one (x.toNat / 2 ^ k) with h | h <;> rw [h] <;> rfl

theorem bitValue_msb (x : Byte) : bitValue (x.getLsbD 7) = x.toNat / 128 := by
  have hlt := x.isLt
  rw [bitValue_getLsbD]
  omega

theorem bitValue_eq_one_iff {c : Bool} : bitValue c = 1 ↔ c = true := by cases c <;> decide

theorem bitValue_eq_zero_iff {c : Bool} : bitValue c = 0 ↔ c = false := by cases c <;> decide

/-- A field of a byte is a quotient, cut off at the field's width. -/
theorem toNat_field (x : Byte) (start width : Nat) :
    (x.extractLsb' start width).toNat = x.toNat / 2 ^ start % 2 ^ width := by
  rw [BitVec.extractLsb'_toNat, Nat.shiftRight_eq_div_pow]

theorem toNat_lowField (x : Byte) (width : Nat) : (x.extractLsb' 0 width).toNat = x.toNat % 2 ^ width := by
  rw [toNat_field, pow_zero, Nat.div_one]

theorem versionReserved_eq_zero_iff (x : Byte) : versionReserved x = 0 ↔ x.toNat / 16 = 0 := by
  have hlt := x.isLt
  rw [← BitVec.toNat_inj, versionReserved, toNat_field, show (0 : BitVec 4).toNat = 0 from rfl]
  omega

theorem versionField_eq_hdrVer_iff (x : Byte) : versionField x = Config.hdrVer ↔ x.toNat % 16 = 1 := by
  rw [← BitVec.toNat_inj, versionField, toNat_lowField]
  rfl

/-- The value of four bytes, the least significant first (R51). -/
theorem toNat_unLe32 (l : List Byte) :
    (unLe32 l).toNat = (l.getD 0 0).toNat + 2 ^ 8 * (l.getD 1 0).toNat + 2 ^ 16 * (l.getD 2 0).toNat +
      2 ^ 24 * (l.getD 3 0).toNat := by
  have happend {n m : Nat} (x : BitVec n) (y : BitVec m) : (x ++ y).toNat = 2 ^ m * x.toNat + y.toNat := by
    rw [BitVec.toNat_append, ← Nat.shiftLeft_add_eq_or_of_lt y.isLt, Nat.shiftLeft_eq, Nat.mul_comm]
  simp only [unLe32, happend]
  omega

/-! ### The body of a packet that passes the checks (R136 lines 9 to 20, R140) -/

/-- The bytes between header and PEC (R136 line 9). -/
def bodyBytes (b : List Byte) : List Byte := (b.drop 9).take (b.length - 10)

/-- The same without the last four, the MIC field (R140). -/
def chunkBytes (b : List Byte) : List Byte := (b.drop 9).take (b.length - 14)

/-- The number in the MIC field, the four bytes before the PEC, the least significant first (R51, R140). -/
def micNumber (b : List Byte) : Nat :=
  (byteAt b (b.length - 5)).toNat + 2 ^ 8 * (byteAt b (b.length - 4)).toNat + 2 ^ 16 * (byteAt b (b.length - 3)).toNat +
    2 ^ 24 * (byteAt b (b.length - 2)).toNat

theorem dropLast_drop_nine (b : List Byte) : (b.drop 9).dropLast = bodyBytes b := by
  rw [List.dropLast_eq_take, List.length_drop, Nat.sub_sub]
  rfl

theorem bodyBytes_length (b : List Byte) : (bodyBytes b).length = b.length - 10 := by
  rw [bodyBytes, List.length_take, List.length_drop]
  omega

theorem take_bodyBytes (b : List Byte) : (bodyBytes b).take (b.length - 14) = chunkBytes b := by
  rw [bodyBytes, List.take_take, Nat.min_eq_left (by omega)]
  rfl

/-- Byte `j` of the MIC field is byte `L - 5 + j` of the packet. -/
theorem getD_drop_bodyBytes {b : List Byte} (h : 14 ≤ b.length) {j : Nat} (hj : j < 4) :
    ((bodyBytes b).drop (b.length - 14)).getD j 0 = byteAt b (b.length - 5 + j) := by
  rw [List.getD_eq_getElem?_getD, List.getElem?_drop, bodyBytes, List.getElem?_take_of_lt (by omega), List.getElem?_drop,
    byteAt, List.getD_eq_getElem?_getD, show 9 + (b.length - 14 + j) = b.length - 5 + j by omega]

theorem toNat_micField {b : List Byte} (h : 14 ≤ b.length) :
    (unLe32 ((bodyBytes b).drop (b.length - 14))).toNat = micNumber b := by
  rw [toNat_unLe32, getD_drop_bodyBytes h (by decide), getD_drop_bodyBytes h (by decide),
    getD_drop_bodyBytes h (by decide), getD_drop_bodyBytes h (by decide), micNumber,
    show b.length - 5 + 1 = b.length - 4 by omega, show b.length - 5 + 2 = b.length - 3 by omega,
    show b.length - 5 + 3 = b.length - 2 by omega, Nat.add_zero]

/-- The MIC field as a word. -/
theorem micField_eq {b : List Byte} (h : 14 ≤ b.length) :
    unLe32 ((bodyBytes b).drop (b.length - 14)) = BitVec.ofNat 32 (micNumber b) := by
  rw [← toNat_micField h, BitVec.ofNat_toNat, BitVec.setWidth_eq]

theorem toNat_micNumber {b : List Byte} (h : 14 ≤ b.length) : (BitVec.ofNat 32 (micNumber b)).toNat = micNumber b := by
  rw [← micField_eq h, toNat_micField h]

/-- Without IC or without EOM there is no MIC field: the whole body is payload. -/
theorem parseBody_noMic {b : List Byte} (h : msgByteIc (byteAt b 8) = false ∨ flagsEom (byteAt b 7) = false) :
    parseBody b = .ok (frameOf b (bodyBytes b) none none) := by
  have hmic : (msgByteIc (byteAt b 8) && flagsEom (byteAt b 7)) = false := Bool.and_eq_false_iff.mpr h
  simp only [parseBody, hmic, dropLast_drop_nine]
  rfl

section

variable {b : List Byte} (hic : msgByteIc (byteAt b 8) = true) (heom : flagsEom (byteAt b 7) = true)

include hic heom

/-- With IC and EOM the body ends in a MIC field. -/
theorem parseBody_mic : parseBody b =
    if b.length - 10 < 4 then .error (.plain .shortPacket)
    else if flagsSom (byteAt b 7) then
      if messageMic (byteAt b 8) (chunkBytes b) ≠ unLe32 ((bodyBytes b).drop (b.length - 14)) then
        .error (.at .badMic (b.length - 5))
      else .ok (frameOf b (chunkBytes b) (some (unLe32 ((bodyBytes b).drop (b.length - 14)))) (some true))
    else .ok (frameOf b (chunkBytes b) (some (unLe32 ((bodyBytes b).drop (b.length - 14)))) none) := by
  simp only [parseBody, hic, heom, Bool.and_self, if_true, dropLast_drop_nine, bodyBytes_length, Nat.sub_sub,
    Nat.reduceAdd, take_bodyBytes]

theorem parseBody_noRoom (hmin : 10 ≤ b.length) (hlen : b.length < 14) :
    parseBody b = .error (.plain .shortPacket) := by
  rw [parseBody_mic hic heom, if_pos (by omega)]

variable (hlen : 14 ≤ b.length)

include hlen

/-- The MIC in the last packet of a message of several packets is not compared here. -/
theorem parseBody_last (hsom : flagsSom (byteAt b 7) = false) :
    parseBody b = .ok (frameOf b (chunkBytes b) (some (BitVec.ofNat 32 (micNumber b))) none) := by
  rw [parseBody_mic hic heom, if_neg (by omega), hsom, micField_eq hlen]
  rfl

variable (hsom : flagsSom (byteAt b 7) = true)

include hsom

theorem parseBody_badMic (hmic : (messageMic (byteAt b 8) (chunkBytes b)).toNat ≠ micNumber b) :
    parseBody b = .error (.at .badMic (b.length - 5)) := by
  rw [parseBody_mic hic heom, if_neg (by omega), if_pos hsom, if_pos]
  exact fun h => hmic (by rw [h, toNat_micField hlen])

theorem parseBody_goodMic (hmic : (messageMic (byteAt b 8) (chunkBytes b)).toNat = micNumber b) :
    parseBody b = .ok (frameOf b (chunkBytes b) (some (BitVec.ofNat 32 (micNumber b))) (some true)) := by
  rw [parseBody_mic hic heom, if_neg (by omega), if_pos hsom, if_neg, micField_eq hlen]
  exact not_not.mpr (BitVec.eq_of_toNat_eq (by rw [hmic, toNat_micField hlen]))

end

/-- The frame `f` has the fields that the header bytes of `b` give as numbers (R75, R77, R78, R86), with this payload and these
MIC fields. -/
def FrameReads (b payload : List Byte) (micField : Option Word32) (micOk : Option Bool) (f : ParsedFrame) : Prop :=
  let at' : Nat → Nat := fun i => (byteAt b i).toNat
  f.destAddr.toNat = at' 0 ∧ f.byteCount.toNat = at' 2 ∧ f.srcAddr.toNat = at' 3 ∧ f.version = 1 ∧
    f.destEid.toNat = at' 5 ∧ f.srcEid.toNat = at' 6 ∧ bitValue f.som = at' 7 / 128 ∧
    bitValue f.eom = at' 7 / 64 % 2 ∧ f.seq.toNat = at' 7 / 16 % 4 ∧ bitValue f.toBit = at' 7 / 8 % 2 ∧
    f.tag.toNat = at' 7 % 8 ∧ bitValue f.ic = at' 8 / 128 ∧ f.msgType.toNat = at' 8 % 128 ∧
    f.payload = payload ∧ f.mic = micField ∧ f.micOk = micOk ∧ f.pecOk = true

theorem frameOf_reads {b : List Byte} (hversion : versionField (byteAt b 4) = Config.hdrVer) (payload : List Byte)
    (micField : Option Word32) (micOk : Option Bool) :
    FrameReads b payload micField micOk (frameOf b payload micField micOk) :=
  ⟨rfl, rfl, rfl, hversion, rfl, rfl, bitValue_msb _, bitValue_getLsbD _ 6, toNat_field _ 4 2, bitValue_getLsbD _ 3,
    toNat_lowField _ 3, bitValue_msb _, toNat_lowField _ 7, rfl, rfl, rfl, rfl⟩

/-- Settles O18: one lemma above for each numbered check, in the order of the checks; the bits they test are read as numbers. -/
theorem parseFollowsNumberedChecks : Obligations.ParseFollowsNumberedChecks := by
  unfold Obligations.ParseFollowsNumberedChecks
  intro b s at' fails body chunk micAt gives
  have hfails {c i} (h : parsePacket b = .error { code := c, info := i }) : fails c i := exec_parse_of_error h s
  refine ⟨fun h => hfails (parsePacket_oversized h), fun h => hfails (parsePacket_undersized h),
    fun hmin hmax => ⟨fun hne => ?wrongCode, fun hcodeNat => ?_⟩⟩
  case wrongCode => exact hfails (parsePacket_wrongCode hmin hmax fun h => hne (congrArg BitVec.toNat h))
  have hcode : byteAt b 1 = Config.cmdCode := BitVec.eq_of_toNat_eq hcodeNat
  refine ⟨fun h => hfails (parsePacket_countTooLarge hmin hmax hcode h),
    fun h => hfails (parsePacket_countTooSmall hmin hmax hcode h), fun hcount => ⟨fun hne => ?reserved,
    fun hres hne => ?version, fun hres hver => ?_⟩⟩
  case reserved =>
    exact hfails (parsePacket_reserved hmin hmax hcode hcount fun h => hne ((versionReserved_eq_zero_iff _).mp h))
  case version =>
    exact hfails (parsePacket_badVersion hmin hmax hcode hcount ((versionReserved_eq_zero_iff _).mpr hres)
      fun h => hne ((versionField_eq_hdrVer_iff _).mp h))
  have hfield : versionField (byteAt b 4) = Config.hdrVer := (versionField_eq_hdrVer_iff _).mpr hver
  have hversion : byteAt b 4 = versionByte :=
    (version_tests_iff _).mp ⟨(versionReserved_eq_zero_iff _).mpr hres, hfield⟩
  rw [← List.dropLast_eq_take]
  refine ⟨fun hne => hfails (parsePacket_badPec hmin hmax hcode hcount hversion hne), fun hpec => ?_⟩
  have hparse : parsePacket b = parseBody b := parsePacket_of_pec hmin hmax hcode hcount hversion hpec
  have hgives {payload m ok} (h : parseBody b = .ok (frameOf b payload m ok)) : gives payload m ok :=
    ⟨_, exec_parse_of_ok (hparse.trans h) s, frameOf_reads hfield payload m ok⟩
  have hsomNat : bitValue (flagsSom (byteAt b 7)) = at' 7 / 128 := bitValue_msb _
  have heomNat : bitValue (flagsEom (byteAt b 7)) = at' 7 / 64 % 2 := bitValue_getLsbD _ 6
  have hicNat : bitValue (msgByteIc (byteAt b 8)) = at' 8 / 128 := bitValue_msb _
  rw [← hsomNat, ← heomNat, ← hicNat]
  simp only [bitValue_eq_one_iff, bitValue_eq_zero_iff]
  exact ⟨fun h => hgives (parseBody_noMic h),
    fun hic heom hlen => hfails (hparse.trans (parseBody_noRoom hic heom hmin hlen)),
    fun hic heom hlen hsom => hgives (parseBody_last hic heom hlen hsom),
    fun hic heom hlen hsom => ⟨fun hne => hfails (hparse.trans (parseBody_badMic hic heom hlen hsom hne)),
      fun hmic => hgives (parseBody_goodMic hic heom hlen hsom hmic)⟩⟩

/-! ### One bit flipped in an accepted packet (R145) -/

theorem pec_append_eq_zero_iff (s : List Byte) (p : Byte) : pec (s ++ [p]) = 0 ↔ pec s = p := by
  constructor
  · intro h
    rw [← pec_append_pec s, pec_append, pec_append] at h
    exact (pecStep_injective_byte _ h).symm
  · rintro rfl
    exact pec_append_pec s

/-- The PEC test (R136 line 8) is that the PEC of the whole packet is zero. -/
theorem pec_dropLast_eq_last_iff {b : List Byte} (h : b ≠ []) :
    pec b.dropLast = byteAt b (b.length - 1) ↔ pec b = 0 := by
  obtain ⟨s, p, rfl⟩ := (List.eq_nil_or_concat b).resolve_left h
  simpa [byteAt] using (pec_append_eq_zero_iff s p).symm

/-- What every packet that `PARSE` accepts has (R84). -/
structure PassesChecks (b : List Byte) : Prop where
  minLength : 10 ≤ b.length
  maxLength : b.length ≤ 256
  code : byteAt b 1 = Config.cmdCode
  count : (byteAt b 2).toNat + 4 = b.length
  version : byteAt b 4 = versionByte
  residue : pec b = 0

theorem passesChecks_of_parsePacket {b : List Byte} {f : ParsedFrame} (h : parsePacket b = .ok f) : PassesChecks b := by
  obtain ⟨⟨hlen, hcode, hversion, hcount, -, hpec⟩, hmax⟩ := frameLayout_of_parsePacket h
  have hmin : 10 ≤ b.length := by omega
  rw [← List.dropLast_eq_take] at hpec
  exact ⟨hmin, hmax, hcode, hcount, hversion,
    (pec_dropLast_eq_last_iff (List.ne_nil_of_length_pos (by omega))).mp hpec.symm⟩

theorem byteAt_modify_ne {i j : Nat} (h : i ≠ j) (g : Byte → Byte) (b : List Byte) :
    byteAt (b.modify i g) j = byteAt b j := by
  simp [byteAt, h]

theorem byteAt_modify_self {i : Nat} {b : List Byte} (h : i < b.length) (g : Byte → Byte) :
    byteAt (b.modify i g) i = g (byteAt b i) := by
  simp [byteAt, h]

theorem xor_ne_self {n : Nat} {x m : BitVec n} (hm : m ≠ 0) : x ^^^ m ≠ x := by simpa using hm

namespace PassesChecks

variable {b : List Byte} (h : PassesChecks b) {m : Byte} (hm : m ≠ 0)

include h

theorem lt_length {i : Nat} (hi : i < 10) : i < b.length := hi.trans_le h.minLength

theorem minLength_modify (i : Nat) (g : Byte → Byte) : 10 ≤ (b.modify i g).length := by
  rw [List.length_modify]
  exact h.minLength

theorem maxLength_modify (i : Nat) (g : Byte → Byte) : (b.modify i g).length ≤ 256 := by
  rw [List.length_modify]
  exact h.maxLength

theorem code_modify {i : Nat} (hi : i ≠ 1) (g : Byte → Byte) : byteAt (b.modify i g) 1 = Config.cmdCode :=
  (byteAt_modify_ne hi g b).trans h.code

theorem count_modify {i : Nat} (hi : i ≠ 2) (g : Byte → Byte) :
    (byteAt (b.modify i g) 2).toNat + 4 = (b.modify i g).length := by
  rw [byteAt_modify_ne hi, List.length_modify, h.count]

theorem version_modify {i : Nat} (hi : i ≠ 4) (g : Byte → Byte) : byteAt (b.modify i g) 4 = versionByte :=
  (byteAt_modify_ne hi g b).trans h.version

theorem byteAt_four_modify (g : Byte → Byte) : byteAt (b.modify 4 g) 4 = g versionByte := by
  rw [byteAt_modify_self (h.lt_length (by decide)), h.version]

theorem reserved_flip (hreserved : versionReserved (versionByte ^^^ m) ≠ 0) :
    parsePacket (b.modify 4 (· ^^^ m)) = .error (.at .reservedBitsSet 4) :=
  parsePacket_reserved (h.minLength_modify ..) (h.maxLength_modify ..) (h.code_modify (by decide) _)
    (h.count_modify (by decide) _) (by rwa [h.byteAt_four_modify])

theorem version_flip (hreserved : versionReserved (versionByte ^^^ m) = 0)
    (hversion : versionField (versionByte ^^^ m) ≠ Config.hdrVer) :
    parsePacket (b.modify 4 (· ^^^ m)) = .error (.at .badVersion 4) :=
  parsePacket_badVersion (h.minLength_modify ..) (h.maxLength_modify ..) (h.code_modify (by decide) _)
    (h.count_modify (by decide) _) (by rwa [h.byteAt_four_modify]) (by rwa [h.byteAt_four_modify])

include hm

theorem code_flip : parsePacket (b.modify 1 (· ^^^ m)) = .error (.at .wrongCommandCode 1) := by
  refine parsePacket_wrongCode (h.minLength_modify ..) (h.maxLength_modify ..) ?_
  rw [byteAt_modify_self (h.lt_length (by decide)), h.code]
  exact xor_ne_self hm

/-- A changed byte count no longer is the length less 4: it is too large or too small. -/
theorem count_flip : ∃ c, (c = .shortPacket ∨ c = .badByteCount) ∧
    parsePacket (b.modify 2 (· ^^^ m)) = .error (.at c 2) := by
  have hchanged : (byteAt (b.modify 2 (· ^^^ m)) 2).toNat ≠ (byteAt b 2).toNat := by
    rw [byteAt_modify_self (h.lt_length (by decide))]
    exact fun e => xor_ne_self hm (BitVec.eq_of_toNat_eq e)
  have hlength : (byteAt b 2).toNat + 4 = (b.modify 2 (· ^^^ m)).length := by rw [List.length_modify, h.count]
  have hmin := h.minLength_modify 2 (· ^^^ m)
  have hmax := h.maxLength_modify 2 (· ^^^ m)
  have hcode := h.code_modify (i := 2) (by decide) (· ^^^ m)
  rcases Nat.lt_or_gt_of_ne hchanged with hless | hmore
  · exact ⟨_, .inr rfl, parsePacket_countTooSmall hmin hmax hcode (by omega)⟩
  · exact ⟨_, .inl rfl, parsePacket_countTooLarge hmin hmax hcode (by omega)⟩

/-- A change of a byte that no earlier check looks at is seen by the PEC, which comes before the MIC. -/
theorem pec_flip {i : Nat} (hi : i < b.length) (hplace : i = 0 ∨ i = 3 ∨ 5 ≤ i) :
    parsePacket (b.modify i (· ^^^ m)) = .error (.at .badPec (b.length - 1)) := by
  have hresidue : pec (b.modify i (· ^^^ m)) ≠ 0 := by
    have hne := modify_xor_ne pec_ne_of_one_byte hi hm
    rwa [h.residue] at hne
  have hnonempty : b.modify i (· ^^^ m) ≠ [] := by
    refine List.ne_nil_of_length_pos ?_
    rw [List.length_modify]
    exact h.lt_length (by decide)
  have hbad := parsePacket_badPec (h.minLength_modify ..) (h.maxLength_modify ..) (h.code_modify (by omega) _)
    (h.count_modify (by omega) _) (h.version_modify (by omega) _)
    (fun e => hresidue ((pec_dropLast_eq_last_iff hnonempty).mp e))
  rwa [List.length_modify] at hbad

end PassesChecks

theorem versionReserved_flip_high {k : Nat} (hlow : 4 ≤ k) (hk : k < 8) :
    versionReserved (versionByte ^^^ ((1 <<< k : Nat) : Byte)) ≠ 0 := by
  interval_cases k <;> decide

theorem version_flip_low {k : Nat} (hk : k < 4) : versionReserved (versionByte ^^^ ((1 <<< k : Nat) : Byte)) = 0 ∧
    versionField (versionByte ^^^ ((1 <<< k : Nat) : Byte)) ≠ Config.hdrVer := by
  interval_cases k <;> decide

/-- Settles O22: bytes 1, 2 and 4 are fixed by the checks before the PEC, and the PEC sees a change of any other byte. -/
theorem singleBitFlipIsReported : Obligations.SingleBitFlipIsReported := by
  unfold Obligations.SingleBitFlipIsReported
  intro b f s i k hparse hi hk
  have hb : PassesChecks b := passesChecks_of_parsePacket ((exec_parse_frame_iff ..).mp hparse)
  have hm := singleBit_ne_zero hk
  obtain hplace | rfl | rfl | rfl : (i = 0 ∨ i = 3 ∨ 5 ≤ i) ∨ i = 1 ∨ i = 2 ∨ i = 4 := by omega
  · refine ⟨_, exec_parse_of_error (hb.pec_flip hm hi hplace) s, fun _ => rfl, ?_⟩
    omega
  · exact ⟨_, exec_parse_of_error (hb.code_flip hm) s, by simp [Err.at]⟩
  · obtain ⟨c, hc, hflip⟩ := hb.count_flip hm
    exact ⟨_, exec_parse_of_error hflip s, by simpa [Err.at] using hc⟩
  · rcases Nat.lt_or_ge k 4 with hlow | hhigh
    · obtain ⟨hreserved, hversion⟩ := version_flip_low hlow
      exact ⟨_, exec_parse_of_error (hb.version_flip hreserved hversion) s, by simp [Err.at, hlow]⟩
    · exact ⟨_, exec_parse_of_error (hb.reserved_flip (versionReserved_flip_high hhigh hk)) s, by simp [Err.at, hhigh]⟩

end Sys2Proof.Proofs
end

section
/-! PROOF. What 42_fragmenter.md says of the fragmenter: the fragments of `BUILD_FRAGMENTED` (R150, R151, R153, R154), the
cutting of the payload (R152, R156, R158), and the round trip through the reassembler (R155). -/

namespace Sys2Proof.Proofs

open Sys2Proof Sys2Proof.Machine

/-! ### One packet taken by the reassembler (R162, R172) -/

/-- The state after a packet that has been taken into the context: the message is settled and its outcome reported. -/
def settledState (f : ParsedFrame) (s : State) : State := (settlePacket f s).2.report [(settlePacket f s).1]

theorem settledState_of_not_last {f : ParsedFrame} (heom : f.eom = false) (s : State) :
    settledState f s = s.answer .pending := by
  simp [settledState, settlePacket, heom, State.answer]

theorem settledState_of_last {f : ParsedFrame} {s : State} (heom : f.eom = true) (hmic : s.micAccepted f = true) :
    settledState f s = s.clearContext.answer (.complete s.contextMessage) := by
  simp [settledState, settlePacket, finishMessage, heom, hmic, State.answer]

/-- While `IDLE` a SOM packet opens the context (R164). -/
theorem exec_reasm_of_som {f : ParsedFrame} {s : State} (hidle : s.rxState = .idle) (hsom : f.som = true) (now : Time) :
    exec (.reasm now f) s = .next (settledState f (s.openContext f now)) := by
  simp [exec, execReasm, reassemble, State.timeBackwards_idle hidle, noticeExpiry_of_in_time (State.expired_idle hidle now),
    acceptFrame, startMessage, settledState, Config.reasmCap, fitsBuffer, hidle, hsom]

/-- The next packet of the message in progress is appended to the context (R167). -/
theorem exec_reasm_of_next {f : ParsedFrame} {s : State} {now : Time} (htime : InTime s now) (hkey : frameKey f = s.rxKey)
    (hsom : f.som = false) (hseq : f.seq = s.rxSeq + 1) :
    exec (.reasm now f) s = .next (settledState f (s.appendChunk f)) := by
  obtain ⟨hactive, hstart, hdeadline⟩ := htime
  have hbackwards : s.timeBackwards now = false := by simp [State.timeBackwards, hstart]
  have hlate : ¬ Config.tReasm < now - s.rxT0 := Nat.not_lt.mpr (Nat.sub_le_iff_le_add'.mpr hdeadline)
  have hexpired : s.expired now = false := by simp [State.expired, hlate]
  simp [exec, execReasm, reassemble, hbackwards, noticeExpiry_of_in_time hexpired, acceptFrame, continueMessage,
    settledState, Config.reasmCap, fitsBuffer, hactive, hkey, hsom, hseq]

theorem exec_rxPacket_of_parse {b : List Byte} {f : ParsedFrame} (h : parsePacket b = .ok f) (now : Time) (s : State) :
    exec (.rxPacket now b) s = exec (.reasm now f) s := receivePacket_of_ok h Config.reasmCap now s

theorem runAll_append_of_next {is : List Instr} {s t : State} (h : runAll is s = .next t) (js : List Instr) :
    runAll (is ++ js) s = runAll js t := by
  induction is generalizing s with
  | nil => cases h; rfl
  | cons i is ih =>
    obtain ⟨u, hu, hrest⟩ := runAll_cons_next h
    rw [List.cons_append, runAll_cons_of_exec hu, ih hrest]

/-! ### The fragments of a message -/

/-- R77 cuts `seq` to two bits, so a packet's `seq` counts modulo 4. -/
theorem wirePacket_seq_mod (da sa de se : Byte) (som eom : Bool) (seq : Nat) (toBit : Bool) (tag : Nat) (ic : Bool)
    (mt : BitVec 7) (chunk : List Byte) (micField : Option Word32) :
    wirePacket da sa de se som eom (seq % 4) toBit tag ic mt chunk micField =
      wirePacket da sa de se som eom seq toBit tag ic mt chunk micField := by
  simp only [wirePacket, flagsValue, Nat.mod_mod]

section
variable (s : State) (de : Byte) (mt : BitVec 7) (payload : List Byte) (ic : Bool)

/-- What a message of the operands `de`, `mt`, `payload` and `ic`, sent from the state `s`, is received as (R88). -/
def sentMessage : Message where
  srcEid := s.cfgSrcEid
  destEid := de
  tag := s.tagCtr
  toBit := true
  msgType := mt
  ic := ic
  payload := payload

/-- What `PARSE` reads from fragment `i` of the message. -/
def fragmentFrame (i : Nat) : ParsedFrame :=
  assembledFrame s.cfgDestAddr s.cfgSrcAddr de s.cfgSrcEid (decide (i = 0))
    (decide (i = fragmentCount payload.length - 1)) ((BitVec.ofNat 2 i).setWidth 8) true (s.tagCtr.setWidth 8) ic mt
    (chunkOf payload i) (fragmentMicField ic mt payload i)

theorem parsePacket_messageFragment (i : Nat) :
    parsePacket (messageFragment s de mt payload ic i).packet = .ok (fragmentFrame s de mt payload ic i) :=
  parsePacket_fragmentPacket ..

/-- `BUILD_FRAGMENTED` draws the tag and answers the fragments (R150, R151). -/
theorem exec_buildFragmented : exec (.buildFragmented de mt payload ic) s =
    .next (s.advanceTag.answer (.fragmented
      { fragments := (List.range (fragmentCount payload.length)).map (messageFragment s de mt payload ic)
        totalLen := payload.length })) := by
  rw [exec, execBuildFragmented, fragmentMessage_ok]
  rfl

/-! ### The fragments byte for byte (R150, R153, R154) -/

theorem eq_last_iff (i : Nat) :
    i = fragmentCount payload.length - 1 ↔ i + 1 = fragmentCount payload.length := by
  have hpos := fragmentCount_pos payload.length
  omega

theorem fragmentMicField_eq (i : Nat) : fragmentMicField ic mt payload i =
    if ic = true ∧ i + 1 = fragmentCount payload.length then some (mic (msgValue ic mt :: payload)) else none := by
  rw [fragmentMicField, wholeMic, messageMic, msgByte_eq_msgValue, ← ite_and]
  exact if_congr (by rw [eq_last_iff, and_comm]) rfl rfl

/-- Fragment `i` by the spec's formulas (R70, R150, R153, R154). -/
theorem messageFragment_eq (i : Nat) : messageFragment s de mt payload ic i =
    { index := i
      seq := BitVec.ofNat 2 (i % 4)
      som := decide (i = 0)
      eom := decide (i + 1 = fragmentCount payload.length)
      packet := wirePacket s.cfgDestAddr s.cfgSrcAddr de s.cfgSrcEid (decide (i = 0))
        (decide (i + 1 = fragmentCount payload.length)) i true s.tagCtr.toNat ic mt ((payload.drop (120 * i)).take 120)
        (if ic = true ∧ i + 1 = fragmentCount payload.length then some (mic (msgValue ic mt :: payload)) else none) } := by
  have hseq : BitVec.ofNat 2 i = BitVec.ofNat 2 (i % 4) := BitVec.eq_of_toNat_eq (by simp)
  have hwideSeq : ((BitVec.ofNat 2 (i % 4)).setWidth 8).toNat = i % 4 := by
    rw [← hseq, BitVec.toNat_setWidth_of_le (by decide), BitVec.toNat_ofNat]
  have hwideTag : (s.tagCtr.setWidth 8).toNat = s.tagCtr.toNat := BitVec.toNat_setWidth_of_le (by decide)
  have hlast : decide (i = fragmentCount payload.length - 1) = decide (i + 1 = fragmentCount payload.length) :=
    decide_eq_decide.mpr (eq_last_iff payload i)
  rw [messageFragment, fragmentPacket, ← fragmentMicField, fragmentMicField_eq, assemble_eq_wirePacket, hlast, hseq,
    hwideSeq, hwideTag, wirePacket_seq_mod, chunkOf_eq]

end

/-- Settles O23: the fragments are those of the formulas, and the counter's successor is the one modulo 8. -/
theorem buildFragmentedReturnsFragments : Obligations.BuildFragmentedReturnsFragments := by
  unfold Obligations.BuildFragmentedReturnsFragments
  intro de mt payload ic s
  have htag : s.tagCtr + 1 = BitVec.ofNat 3 ((s.tagCtr.toNat + 1) % 8) :=
    BitVec.eq_of_toNat_eq (by simp [BitVec.toNat_add])
  rw [exec_buildFragmented, funext (messageFragment_eq s de mt payload ic), ← htag]
  rfl

/-! ### The cutting of the payload (R152, R156, R158) -/

theorem micBytes_length (micOpt : Option Word32) : (micBytes micOpt).length = if micOpt.isSome then 4 else 0 := by
  cases micOpt <;> rfl

section
variable (s : State) (de : Byte) (mt : BitVec 7) (payload : List Byte) (ic : Bool)

/-- A fragment's packet is in the layout of R70, with its chunk of the payload. -/
theorem frameLayout_messageFragment (i : Nat) :
    FrameLayout (messageFragment s de mt payload ic i).packet (chunkOf payload i)
      (micLength ic (messageFragment s de mt payload ic i).eom) := by
  have hmic : micLength ic (messageFragment s de mt payload ic i).eom =
      (micBytes (fragmentMicField ic mt payload i)).length := by
    rw [micBytes_length, isSome_fragmentMicField]
    rfl
  rw [hmic]
  exact frameLayout_assemble _ _ _ _ _ _ _ _ _ _ (chunkOf_length_le payload i) _

/-- A fragment's packet has ten bytes around its chunk and its MIC field (R156). -/
theorem messageFragment_packet_length (i : Nat) :
    (messageFragment s de mt payload ic i).packet.length =
      10 + (chunkOf payload i).length + micLength ic (messageFragment s de mt payload ic i).eom := by
  obtain ⟨hlength, -⟩ := frameLayout_messageFragment s de mt payload ic i
  exact hlength

/-- The bytes of a fragment's packet between the header and the MIC field are its chunk. -/
theorem messageFragment_packet_chunk (i : Nat) :
    ((messageFragment s de mt payload ic i).packet.drop 9).take
      ((messageFragment s de mt payload ic i).packet.length - 10 - micLength ic (messageFragment s de mt payload ic i).eom) =
      chunkOf payload i := by
  obtain ⟨hlength, -, -, -, hchunk, -⟩ := frameLayout_messageFragment s de mt payload ic i
  rw [hlength, Nat.add_assoc, Nat.add_sub_cancel_left, Nat.add_sub_cancel]
  exact hchunk

end

/-- Settles O24: a packet's length is that of its chunk and its MIC field with ten bytes around them, and the chunks rejoin. -/
theorem fragmentsPartitionPayload : Obligations.FragmentsPartitionPayload := by
  unfold Obligations.FragmentsPartitionPayload
  intro de mt payload ic s t m h hresult
  have hcount := fragmentCount_eq payload.length
  have hnil : payload = [] ↔ payload.length = 0 := List.length_eq_zero_iff.symm
  rw [fragments_of_exec_buildFragmented h hresult]
  simp only [List.length_map, List.length_range]
  refine ⟨fragmentCount_pos _, by omega, by omega, fun hempty => ?empty, fun hnonempty => ?nonempty,
    fun i f hf hi => ?full, fun f hf => ?last, ?rejoin⟩
  case empty =>
    rw [hnil] at hempty
    omega
  case nonempty =>
    rw [Ne, hnil] at hnonempty
    omega
  case full =>
    obtain ⟨-, rfl⟩ := List.getElem?_eq_some_iff.mp hf
    have hnotLast : (messageFragment s de mt payload ic i).eom = false := decide_eq_false (by omega)
    rw [List.getElem_map, List.getElem_range, messageFragment_packet_length, hnotLast, micLength, Bool.and_false,
      chunkOf_length]
    simp only [Bool.false_eq_true, if_false]
    omega
  case last =>
    obtain ⟨i, hi, rfl⟩ : ∃ i, i = fragmentCount payload.length - 1 ∧ messageFragment s de mt payload ic i = f := by
      simpa [List.getLast?_range, (fragmentCount_pos _).ne'] using hf
    have hlast : (messageFragment s de mt payload ic i).eom = true := decide_eq_true hi
    rw [messageFragment_packet_length, hlast, micLength, Bool.and_true, chunkOf_length, ← hi]
    omega
  case rejoin =>
    rw [List.map_map]
    exact (congrArg List.flatten (List.map_congr_left fun i _ => messageFragment_packet_chunk s de mt payload ic i)).trans
      (chunks_rejoin payload)

/-! ### The round trip through the reassembler (R155) -/

section
variable (s : State) (de : Byte) (mt : BitVec 7) (payload : List Byte) (ic : Bool)

/-- The context of the message after its fragments 0 to `i`, the first of them received at `start`. -/
structure HoldsFragments (start : Time) (i : Nat) (u : State) : Prop where
  active : u.rxState = .active
  key : u.rxKey = { srcEid := s.cfgSrcEid, tag := s.tagCtr, toBit := true }
  destEid : u.rxDestEid = de
  msg : u.rxMsg = msgByte ic mt
  seq : u.rxSeq = BitVec.ofNat 2 i
  buf : u.rxBuf = payload.take (120 * (i + 1))
  started : u.rxT0 = start

/-- What R155 says of the state after fragments 0 to `i`: `Complete` after the last, and before it `Pending`, with the context
open. -/
structure ReceivedFragments (start : Time) (i : Nat) (u : State) : Prop where
  result : u.result = [.ok (if i + 1 = fragmentCount payload.length then .complete (sentMessage s de mt payload ic)
    else .pending)]
  holds : i + 1 ≠ fragmentCount payload.length → HoldsFragments s de mt payload ic start i u

@[simp] theorem frameKey_fragmentFrame (i : Nat) : frameKey (fragmentFrame s de mt payload ic i) =
    { srcEid := s.cfgSrcEid, tag := s.tagCtr, toBit := true } := by
  simp [frameKey, fragmentFrame, assembledFrame]

@[simp] theorem fragmentFrame_seq (i : Nat) : (fragmentFrame s de mt payload ic i).seq = BitVec.ofNat 2 i := by
  simp [fragmentFrame, assembledFrame]

theorem fragmentFrame_eom (i : Nat) :
    (fragmentFrame s de mt payload ic i).eom = decide (i + 1 = fragmentCount payload.length) :=
  decide_eq_decide.mpr (eq_last_iff payload i)

variable {s de mt payload ic}

/-- The first fragment opens the context. -/
theorem holdsFragments_openContext (now : Time) (u : State) :
    HoldsFragments s de mt payload ic now 0 (u.openContext (fragmentFrame s de mt payload ic 0) now) where
  active := rfl
  key := by simp
  destEid := rfl
  msg := rfl
  seq := by simp
  buf := rfl
  started := rfl

namespace HoldsFragments

variable {start : Time} {i : Nat} {u : State}

theorem report (h : HoldsFragments s de mt payload ic start i u) (rs : List Result) :
    HoldsFragments s de mt payload ic start i (u.report rs) :=
  ⟨h.active, h.key, h.destEid, h.msg, h.seq, h.buf, h.started⟩

/-- The next fragment's chunk goes behind those before it. -/
theorem appendChunk (h : HoldsFragments s de mt payload ic start i u) :
    HoldsFragments s de mt payload ic start (i + 1) (u.appendChunk (fragmentFrame s de mt payload ic (i + 1))) where
  active := h.active
  key := h.key
  destEid := h.destEid
  msg := h.msg
  seq := by simp
  buf := by
    rw [State.appendChunk_rxBuf, h.buf, Nat.mul_succ 120 (i + 1), List.take_add]
    rfl
  started := h.started

/-- After the last fragment the buffer is the payload. -/
theorem buf_of_last (h : HoldsFragments s de mt payload ic start i u) (hlast : i + 1 = fragmentCount payload.length) :
    u.rxBuf = payload := by
  have hcount := fragmentCount_eq payload.length
  rw [h.buf, List.take_of_length_le (by omega)]

/-- The last fragment carries the MIC that the reassembler asks for (R154, R168). -/
theorem micAccepted_of_last (h : HoldsFragments s de mt payload ic start i u)
    (hlast : i + 1 = fragmentCount payload.length) : u.micAccepted (fragmentFrame s de mt payload ic i) = true := by
  have hmic : (fragmentFrame s de mt payload ic i).mic = wholeMic ic mt payload := if_pos ((eq_last_iff payload i).mpr hlast)
  have hic : (fragmentFrame s de mt payload ic i).ic = ic := rfl
  rw [State.micAccepted, h.msg, msgByteIc_msgByte, h.buf_of_last hlast, hmic, hic]
  cases ic <;> simp [wholeMic]

theorem contextMessage_of_last (h : HoldsFragments s de mt payload ic start i u)
    (hlast : i + 1 = fragmentCount payload.length) : u.contextMessage = sentMessage s de mt payload ic := by
  rw [State.contextMessage, h.key, h.destEid, h.msg, msgByteType_msgByte, msgByteIc_msgByte, h.buf_of_last hlast,
    sentMessage]

/-- Settling fragment `i`, once it is in the context, answers what R155 says. -/
theorem received (h : HoldsFragments s de mt payload ic start i u) :
    ReceivedFragments s de mt payload ic start i (settledState (fragmentFrame s de mt payload ic i) u) := by
  by_cases hlast : i + 1 = fragmentCount payload.length
  · rw [settledState_of_last ((fragmentFrame_eom ..).trans (decide_eq_true hlast)) (h.micAccepted_of_last hlast),
      h.contextMessage_of_last hlast]
    exact ⟨by rw [if_pos hlast, State.answer_result], fun hnotLast => absurd hlast hnotLast⟩
  · rw [settledState_of_not_last ((fragmentFrame_eom ..).trans (decide_eq_false hlast))]
    exact ⟨by rw [if_neg hlast, State.answer_result], fun _ => h.report _⟩

end HoldsFragments

/-- The first packet, received while `IDLE`. -/
theorem exec_rxPacket_first {u : State} (hidle : u.rxState = .idle) (now : Time) :
    ∃ t, exec (.rxPacket now (messageFragment s de mt payload ic 0).packet) u = .next t ∧
      ReceivedFragments s de mt payload ic now 0 t := by
  refine ⟨_, ?_, (holdsFragments_openContext now u).received⟩
  rw [exec_rxPacket_of_parse (parsePacket_messageFragment ..), exec_reasm_of_som hidle rfl]

/-- The next packet, received in time after those before it. -/
theorem ReceivedFragments.exec_rxPacket_next {start now : Time} {i : Nat} {u : State}
    (h : ReceivedFragments s de mt payload ic start i u) (hi : i + 1 < fragmentCount payload.length)
    (hstart : start ≤ now) (hdeadline : now ≤ start + 100) :
    ∃ t, exec (.rxPacket now (messageFragment s de mt payload ic (i + 1)).packet) u = .next t ∧
      ReceivedFragments s de mt payload ic start (i + 1) t := by
  have hu := h.holds hi.ne
  have hseq : (fragmentFrame s de mt payload ic (i + 1)).seq = u.rxSeq + 1 := by
    simp [hu.seq, BitVec.ofNat_add]
  refine ⟨_, ?_, hu.appendChunk.received⟩
  rw [exec_rxPacket_of_parse (parsePacket_messageFragment ..),
    exec_reasm_of_next ⟨hu.active, hu.started ▸ hstart, hu.started ▸ hdeadline⟩ ((frameKey_fragmentFrame ..).trans hu.key.symm)
      rfl hseq]

/-- One fragment handed over at one time. -/
def receipt (p : Time × Fragment) : Instr := .rxPacket p.1 p.2.packet

theorem receipts_take_succ {times : List Time} {k j : Nat} (htime : j < times.length) (hj : j < k)
    (fragment : Nat → Fragment) :
    ((times.zip ((List.range k).map fragment)).take (j + 1)).map receipt =
      ((times.zip ((List.range k).map fragment)).take j).map receipt ++ [.rxPacket times[j] (fragment j).packet] := by
  rw [List.take_succ_eq_append_getElem (by simp [htime, hj]), List.map_append, List.map_singleton, List.getElem_zip,
    List.getElem_map, List.getElem_range]
  rfl

/-- Receiving the fragments in order and in time, by induction on the number of packets received. -/
theorem runAll_receipts {u : State} {times : List Time} (hidle : u.rxState = .idle)
    (hlength : times.length = fragmentCount payload.length)
    (htimes : ∀ a ∈ times, times.headD 0 ≤ a ∧ a ≤ times.headD 0 + 100) {j : Nat} (hj : j < fragmentCount payload.length) :
    ∃ t, runAll (((times.zip ((List.range (fragmentCount payload.length)).map (messageFragment s de mt payload ic))).take
        (j + 1)).map receipt) u = .next t ∧
      ReceivedFragments s de mt payload ic (times.headD 0) j t := by
  have htime : j < times.length := hlength ▸ hj
  rw [receipts_take_succ htime hj]
  induction j with
  | zero =>
    have hhead : times.headD 0 = times[0] := by rw [List.headD_eq_head?_getD, List.head?_eq_getElem?]; simp [htime]
    obtain ⟨t, hexec, hreceived⟩ := exec_rxPacket_first hidle times[0]
    exact ⟨t, runAll_cons_of_exec hexec [], hhead ▸ hreceived⟩
  | succ j ih =>
    have hbefore : j < fragmentCount payload.length := Nat.lt_of_succ_lt hj
    obtain ⟨u', hrun, hreceived⟩ := ih hbefore (hlength ▸ hbefore)
    obtain ⟨hstart, hdeadline⟩ := htimes _ (List.getElem_mem htime)
    obtain ⟨t, hexec, hnext⟩ := hreceived.exec_rxPacket_next hj hstart hdeadline
    refine ⟨t, ?_, hnext⟩
    rw [receipts_take_succ (hlength ▸ hbefore) hbefore, runAll_append_of_next hrun]
    exact runAll_cons_of_exec hexec []

end

theorem headD_le_of_pairwise {times : List Time} (h : times.Pairwise (· ≤ ·)) : ∀ a ∈ times, times.headD 0 ≤ a := by
  cases h with
  | nil => simp
  | cons hhead => simpa using hhead

/-- Settles O37: after each fragment but the last the context holds the chunks so far, and the last one completes it. -/
theorem fragmentThenReassembleRoundTrip : Obligations.FragmentThenReassembleRoundTrip := by
  unfold Obligations.FragmentThenReassembleRoundTrip
  intro de mt payload ic s t0 m times hidle h hresult hlength hsorted hdeadline j hj
  have hidle' : t0.rxState = .idle := by
    rw [exec_buildFragmented] at h
    cases h
    exact hidle
  have hcount : m.fragments.length = fragmentCount payload.length := by
    rw [fragments_of_exec_buildFragmented h hresult, List.length_map, List.length_range]
  obtain ⟨t, hrun, hreceived⟩ := runAll_receipts hidle' (hlength.trans hcount)
    (fun a ha => ⟨headD_le_of_pairwise hsorted a ha, hdeadline a ha⟩) (hcount ▸ hj)
  rw [← fragments_of_exec_buildFragmented h hresult] at hrun
  refine ⟨t, hrun, ?_⟩
  rw [hreceived.result, hcount, apply_ite Result.ok]
  rfl

end Sys2Proof.Proofs
end

section
/-! PROOF. What 43_reassembler.md says of the reassembler: the deadline (R160, R161), the fate of each packet (R162 to R168),
the capacity of the buffer (R169), the outcome lists (R170), `RX_PACKET` (R172), and the packet classes of R80 as it receives
them (R171). The lemmas before the obligations say what happens to a packet that comes on time and to one that comes late. -/

namespace Sys2Proof.Proofs

open Sys2Proof Sys2Proof.Machine

/-! ### On time or late (R160) -/

/-- At `now` there is no context whose deadline or start could matter: it is closed, or in time. -/
def OnTime (s : State) (now : Time) : Prop := s.rxState = .idle ∨ InTime s now

/-- At `now` the deadline of the open context has passed. -/
def Late (s : State) (now : Time) : Prop := s.rxState = .active ∧ s.rxT0 + 100 < now

theorem backwards_or_onTime_or_late (s : State) (now : Time) :
    s.timeBackwards now = true ∨ OnTime s now ∨ Late s now := by
  cases hs : s.rxState with
  | idle => exact .inr (.inl (.inl hs))
  | active =>
    rcases Nat.lt_or_ge now s.rxT0 with hbefore | hstart
    · exact .inl ((s.timeBackwards_iff now).mpr ⟨hs, hbefore⟩)
    rcases Nat.lt_or_ge (s.rxT0 + 100) now with hlate | hdeadline
    · exact .inr (.inr ⟨hs, hlate⟩)
    · exact .inr (.inl (.inr ⟨hs, hstart, hdeadline⟩))

section
variable {s : State} {now : Time}

theorem OnTime.timeBackwards (h : OnTime s now) : s.timeBackwards now = false := by
  obtain hidle | ⟨-, hstart, -⟩ := h
  · exact State.timeBackwards_idle hidle now
  · simp [State.timeBackwards, hstart]

theorem OnTime.expired (h : OnTime s now) : s.expired now = false := by
  obtain hidle | ⟨-, -, hdeadline⟩ := h
  · exact State.expired_idle hidle now
  · have hin : ¬ Config.tReasm < now - s.rxT0 := Nat.not_lt.mpr (Nat.sub_le_iff_le_add'.mpr hdeadline)
    simp [State.expired, hin]

theorem OnTime.noticeExpiry (h : OnTime s now) : s.noticeExpiry now = ([], s) := noticeExpiry_of_in_time h.expired

theorem Late.timeBackwards (h : Late s now) : s.timeBackwards now = false := by
  obtain ⟨-, hlate⟩ := h
  have hstart : s.rxT0 ≤ now := (Nat.le_add_right _ 100).trans hlate.le
  simp [State.timeBackwards, hstart]

theorem Late.expired (h : Late s now) : s.expired now = true := by
  obtain ⟨hactive, hlate⟩ := h
  exact (s.expired_iff now).mpr ⟨hactive, Nat.lt_sub_of_add_lt (by rwa [Nat.add_comm])⟩

theorem Late.noticeExpiry (h : Late s now) : s.noticeExpiry now = ([plainError .missingEom], s.clearContext) :=
  noticeExpiry_of_expired h.expired

theorem onTime_clearContext (s : State) (now : Time) : OnTime s.clearContext now := .inl rfl

/-! ### `TICK` (R161) -/

theorem exec_tick_of_onTime (h : OnTime s now) : exec (.tick now) s = .next (s.answer .unit) := by
  simp [exec, execTick, h.timeBackwards, h.expired]

theorem exec_tick_of_late (h : Late s now) :
    exec (.tick now) s = .next (s.clearContext.raise (.plain .missingEom)) := by
  simp [exec, execTick, h.timeBackwards, h.expired]

theorem exec_tick_backwards (h : s.timeBackwards now = true) : exec (.tick now) s = .refused .timeBackwards := by
  simp [exec, execTick, h]

end

/-- Settles O26: on time nothing happens; late, the context is cleared, and then every later `TICK` is on time. -/
theorem tickEnforcesDeadline : Obligations.TickEnforcesDeadline := by
  unfold Obligations.TickEnforcesDeadline
  intro now s
  refine ⟨fun hidle => exec_tick_of_onTime (.inl hidle),
    fun hactive hbefore => exec_tick_backwards ((s.timeBackwards_iff now).mpr ⟨hactive, hbefore⟩),
    fun hactive hstart hdeadline => exec_tick_of_onTime (.inr ⟨hactive, hstart, hdeadline⟩),
    fun hactive hlate => ⟨_, exec_tick_of_late ⟨hactive, hlate⟩, rfl, fun later => exec_tick_of_onTime (.inl rfl)⟩⟩

/-! ### A packet on time and a packet late -/

section
variable {cap : Option Nat} {now : Time} {f : ParsedFrame} {s t : State} {rs : List Result}

theorem reassemble_of_onTime (h : OnTime s now) (haccept : acceptFrame cap now f s = .ok (rs, t)) :
    reassemble cap now f s = .next (t.report rs) := by
  simp [reassemble, h.timeBackwards, h.noticeExpiry, haccept]

/-- Late, the packet meets the cleared context, and `MissingEom` goes in front (R162 lines 2 and 3). -/
theorem reassemble_of_late (h : Late s now) (haccept : acceptFrame cap now f s.clearContext = .ok (rs, t)) :
    reassemble cap now f s = .next (t.report (plainError .missingEom :: rs)) := by
  simp [reassemble, h.timeBackwards, h.noticeExpiry, haccept]

theorem reassemble_backwards (h : s.timeBackwards now = true) : reassemble cap now f s = .refused .timeBackwards := by
  simp [reassemble, h]

theorem exec_reasm_of_onTime (h : OnTime s now) (haccept : acceptFrame none now f s = .ok (rs, t)) :
    exec (.reasm now f) s = .next (t.report rs) := reassemble_of_onTime h haccept

end

/-- What `RX_PACKET` does with a packet that fails to parse with the error `e` (R172). -/
def dropPacket (now : Time) (e : Err) (s : State) : StepOutcome :=
  if s.timeBackwards now then .refused .timeBackwards
  else .next ((s.noticeExpiry now).2.report ((s.noticeExpiry now).1 ++ [.error e]))

theorem receivePacket_eq_dropPacket {b : List Byte} {e : Err} (h : parsePacket b = .error e) (cap : Option Nat) (now : Time)
    (s : State) : receivePacket cap now b s = dropPacket now e s := by
  simp [receivePacket, dropPacket, h]

section
variable {now : Time} {e : Err} {s : State}

theorem dropPacket_of_onTime (h : OnTime s now) : dropPacket now e s = .next (s.report [.error e]) := by
  simp [dropPacket, h.timeBackwards, h.noticeExpiry]

theorem dropPacket_of_late (h : Late s now) :
    dropPacket now e s = .next (s.clearContext.report [plainError .missingEom, .error e]) := by
  simp [dropPacket, h.timeBackwards, h.noticeExpiry]

theorem dropPacket_backwards (h : s.timeBackwards now = true) : dropPacket now e s = .refused .timeBackwards := by
  simp [dropPacket, h]

end

/-- The packet `b`, received at a time, is reassembled as a frame or dropped with an error of `PARSE`. -/
theorem receivePacket_cases (now : Time) (b : List Byte) :
    (∃ f, ∀ s, receivePacket none now b s = reassemble none now f s) ∨
    ∃ e, parsePacket b = .error e ∧ ∀ s, receivePacket none now b s = dropPacket now e s := by
  cases hp : parsePacket b with
  | ok f => exact .inl ⟨f, receivePacket_of_ok hp none now⟩
  | error e => exact .inr ⟨e, rfl, receivePacket_eq_dropPacket hp none now⟩

/-- Every operation that takes a packet reassembles a frame, or, if it is not `REASM`, drops a packet that fails to parse. -/
theorem exec_cases_of_receives {i : Instr} {now : Time} (hi : receives i = true) (hnow : timeOf i = some now) :
    (∃ f, ∀ s, exec i s = reassemble none now f s) ∨
    ((∀ now f, i ≠ .reasm now f) ∧ ∃ e b, parsePacket b = .error e ∧ ∀ s, exec i s = dropPacket now e s) := by
  cases i with
  | reasm now f =>
    cases hnow
    exact .inl ⟨f, fun _ => rfl⟩
  | rxPacket | pktSingle | pktSingleIc | pktFirst | pktFirstIc | pktMiddle | pktMiddleIc | pktLast | pktLastIc =>
    cases hnow
    obtain ⟨f, hf⟩ | ⟨e, he, hdrop⟩ := receivePacket_cases now _
    · exact .inl ⟨f, hf⟩
    · exact .inr ⟨nofun, e, _, he, hdrop⟩
  | _ => cases hi

/-- Settles O34: reassembled or dropped, a late packet meets the cleared context, on which it is on time. -/
theorem expiredContextIsReportedFirst : Obligations.ExpiredContextIsReportedFirst := by
  unfold Obligations.ExpiredContextIsReportedFirst
  intro i now s hi hnow hactive hdeadline
  have hlate : Late s now := ⟨hactive, hdeadline⟩
  have hcleared := onTime_clearContext s now
  obtain ⟨f, hexec⟩ | ⟨-, e, -, -, hexec⟩ := exec_cases_of_receives hi hnow
  · obtain ⟨rs, t, haccept⟩ := acceptFrame_unbounded_ok now f s.clearContext
    refine ⟨_, (hexec _).trans (reassemble_of_onTime hcleared haccept), ?_⟩
    rw [hexec, reassemble_of_late hlate haccept]
    rfl
  · refine ⟨_, (hexec _).trans (dropPacket_of_onTime hcleared), ?_⟩
    rw [hexec, dropPacket_of_late hlate]
    rfl

/-! ### `RX_PACKET` (R172) -/

theorem exec_parse_error_iff (b : List Byte) (s : State) (e : Err) :
    exec (.parse b) s = .next { s with result := [.error e] } ↔ parsePacket b = .error e := by
  have hexec : exec (.parse b) s = .next (s.conclude ((parsePacket b).map .frame)) := rfl
  rw [hexec]
  cases parsePacket b <;> simp [Except.map, State.answer, State.raise, State.report]

/-- Settles O35: the two answers of the parser. -/
theorem rxPacketParsesThenReassembles : Obligations.RxPacketParsesThenReassembles := by
  unfold Obligations.RxPacketParsesThenReassembles
  intro now b s
  refine ⟨fun f hparse => exec_rxPacket_of_parse ((exec_parse_frame_iff b s f).mp hparse) now s, fun e hparse => ?_⟩
  have hdrop : exec (.rxPacket now b) s = dropPacket now e s :=
    receivePacket_eq_dropPacket ((exec_parse_error_iff b s e).mp hparse) none now s
  exact ⟨fun hontime => hdrop.trans (dropPacket_of_onTime hontime),
    fun hactive hlate => ⟨_, hdrop.trans (dropPacket_of_late ⟨hactive, hlate⟩), rfl⟩⟩

/-! ### The outcome lists (R170) -/

/-- The outcomes for a packet that was taken into the context (R162 lines 11, 12, 19, 20). -/
def SettledResult (x : Result) : Prop :=
  x = .ok .pending ∨ (∃ m, x = .ok (.complete m)) ∨ x = plainError .badMic

theorem settlePacket_result (f : ParsedFrame) (s : State) : SettledResult (settlePacket f s).1 := by
  obtain ⟨-, h⟩ | ⟨-, -, h⟩ | ⟨-, -, h⟩ := settlePacket_cases f s <;> rw [h]
  · exact .inl rfl
  · exact .inr (.inl ⟨_, rfl⟩)
  · exact .inr (.inr rfl)

/-- While `IDLE`, a packet has one outcome: it is taken into a new context, or dropped with `SequenceGap`. -/
theorem acceptFrame_results_of_idle {s : State} (hidle : s.rxState = .idle) (now : Time) (f : ParsedFrame) :
    ∃ x t, acceptFrame none now f s = .ok ([x], t) ∧ (SettledResult x ∨ x = plainError .sequenceGap) := by
  have hclosed : ¬ s.rxState = .active := by simp [hidle]
  obtain ⟨ha, -⟩ | ⟨-, -, h⟩ | ⟨-, -, h⟩ | ⟨ha, -⟩ | ⟨ha, -⟩ := acceptFrame_unbounded now f s
  · exact absurd ha hclosed
  · rw [if_neg hclosed] at h
    exact ⟨_, _, h, .inl (settlePacket_result _ _)⟩
  · exact ⟨_, _, h, .inr rfl⟩
  · exact absurd ha hclosed
  · exact absurd ha hclosed

/-- In any state, a packet has one outcome, or `UnexpectedSom` and the outcome of the message that it starts. -/
theorem acceptFrame_results (now : Time) (f : ParsedFrame) (s : State) :
    ∃ rs t, acceptFrame none now f s = .ok (rs, t) ∧
      ((∃ x, rs = [x] ∧ (SettledResult x ∨ ∃ e, x = .error e)) ∨
        ∃ x, rs = [plainError .unexpectedSom, x] ∧ SettledResult x) := by
  obtain ⟨-, -, h⟩ | ⟨-, -, h⟩ | ⟨-, -, h⟩ | ⟨-, -, -, -, h⟩ | ⟨-, -, -, -, h⟩ := acceptFrame_unbounded now f s
  · exact ⟨_, _, h, .inl ⟨_, rfl, .inr ⟨_, rfl⟩⟩⟩
  · refine ⟨_, _, h, ?_⟩
    split_ifs
    · exact .inr ⟨_, rfl, settlePacket_result _ _⟩
    · exact .inl ⟨_, rfl, .inl (settlePacket_result _ _)⟩
  · exact ⟨_, _, h, .inl ⟨_, rfl, .inr ⟨_, rfl⟩⟩⟩
  · exact ⟨_, _, h, .inl ⟨_, rfl, .inr ⟨_, rfl⟩⟩⟩
  · exact ⟨_, _, h, .inl ⟨_, rfl, .inl (settlePacket_result _ _)⟩⟩

/-- The codes of the errors that `PARSE` raises (R136). -/
def parseCodes : List ErrCode :=
  [.usage, .shortPacket, .wrongCommandCode, .badByteCount, .reservedBitsSet, .badVersion, .badPec, .badMic]

theorem parseBody_error_code {b : List Byte} {e : Err} (h : parseBody b = .error e) : e.code ∈ parseCodes := by
  unfold parseBody at h
  simp only at h
  split_ifs at h <;> cases h <;> simp [parseCodes, Err.plain, Err.at]

theorem parsePacket_error_code {b : List Byte} {e : Err} (h : parsePacket b = .error e) : e.code ∈ parseCodes := by
  unfold parsePacket at h
  split_ifs at h
  case neg => exact parseBody_error_code h
  all_goals
    cases h
    simp [parseCodes, Err.badOperand, Err.plain, Err.at]

/-- Settles O36: the outcomes of a packet on time; and late, those of a packet that comes while `IDLE`, behind `MissingEom`. -/
theorem outcomeListShape : Obligations.OutcomeListShape := by
  unfold Obligations.OutcomeListShape
  intro i s t hi h
  obtain ⟨now, hnow⟩ := timeOf_of_receives hi
  obtain ⟨f, hexec⟩ | ⟨hreasm, e, b, hparse, hexec⟩ := exec_cases_of_receives hi hnow
  · rw [hexec] at h
    obtain hback | hontime | hlate := backwards_or_onTime_or_late s now
    · cases h.symm.trans (reassemble_backwards hback)
    · obtain ⟨rs, u, haccept, hshape⟩ := acceptFrame_results now f s
      cases h.symm.trans (reassemble_of_onTime hontime haccept)
      obtain ⟨x, rfl, (hx | hx | ⟨e, rfl⟩) | he⟩ | hx := hshape
      · exact .inl ⟨x, rfl, .inl hx⟩
      · exact .inl ⟨x, rfl, .inr (.inl hx)⟩
      · exact .inl ⟨_, rfl, .inr (.inr ⟨_, rfl⟩)⟩
      · exact .inl ⟨x, rfl, .inr (.inr he)⟩
      · exact .inr (.inr hx)
    · obtain ⟨x, u, haccept, hx⟩ := acceptFrame_results_of_idle (s := s.clearContext) rfl now f
      cases h.symm.trans (reassemble_of_late hlate haccept)
      refine .inr (.inl ⟨x, rfl, ?_⟩)
      obtain (hx | hx | hx) | hx := hx <;> simp [hx]
  · rw [hexec] at h
    obtain hback | hontime | hlate := backwards_or_onTime_or_late s now
    · cases h.symm.trans (dropPacket_backwards hback)
    · cases h.symm.trans (dropPacket_of_onTime hontime)
      exact .inl ⟨_, rfl, .inr (.inr ⟨e, rfl⟩)⟩
    · cases h.symm.trans (dropPacket_of_late hlate)
      exact .inr (.inl ⟨_, rfl, .inr (.inr (.inr (.inr ⟨hreasm, e, rfl, parsePacket_error_code hparse⟩)))⟩)

/-! ### The packets that are dropped (R163, R165, R166) -/

theorem eq_succ_iff_toNat (q r : BitVec 2) : q = r + 1 ↔ q.toNat = (r.toNat + 1) % 4 := by
  rw [← BitVec.toNat_inj, BitVec.toNat_add]
  rfl

section
variable {now : Time} {f : ParsedFrame} {s : State}

theorem exec_reasm_idle_of_not_som (hidle : s.rxState = .idle) (hsom : f.som = false) (now : Time) :
    exec (.reasm now f) s = .next (s.report [plainError .sequenceGap]) := by
  refine exec_reasm_of_onTime (.inl hidle) ?_
  simp [acceptFrame, continueMessage, hidle, hsom, plainError, Err.plain]

theorem exec_reasm_of_gap (htime : InTime s now) (hkey : frameKey f = s.rxKey) (hsom : f.som = false)
    (hseq : f.seq ≠ s.rxSeq + 1) :
    exec (.reasm now f) s = .next (s.clearContext.report [plainError .sequenceGap]) := by
  have hactive : s.rxState = .active := htime.1
  refine exec_reasm_of_onTime (.inr htime) ?_
  have hopen : ¬ s.rxState = .idle := by simp [hactive]
  rw [acceptFrame, if_neg (fun h => h.2 hkey), hsom, if_neg Bool.false_ne_true, continueMessage, if_neg hopen, if_pos hseq]
  rfl

end

/-- Settles O27: the key is compared first; and while `IDLE` the one outcome is none of `TagMismatch`. -/
theorem reasmDropsOtherKey : Obligations.ReasmDropsOtherKey := by
  unfold Obligations.ReasmDropsOtherKey
  constructor
  · intro now f s htime hkey
    have hactive : s.rxState = .active := htime.1
    exact exec_reasm_of_onTime (.inr htime) (if_pos ⟨hactive, hkey⟩)
  · intro now f s hidle
    obtain ⟨x, t, haccept, hx⟩ := acceptFrame_results_of_idle hidle now f
    refine ⟨_, exec_reasm_of_onTime (.inl hidle) haccept, ?_⟩
    obtain (rfl | ⟨m, rfl⟩ | rfl) | rfl := hx <;> simp [plainError]

/-- Settles O30: of the branches of `REASM`, an idle context and no SOM select the one that keeps the context. -/
theorem reasmIdleDropsNonSom : Obligations.ReasmIdleDropsNonSom := by
  unfold Obligations.ReasmIdleDropsNonSom
  intro now f s hsom hidle
  exact exec_reasm_idle_of_not_som hidle hsom now

/-- Settles O31: the context is cleared, so a later packet without SOM comes while `IDLE`. -/
theorem reasmSequenceGapAbandons : Obligations.ReasmSequenceGapAbandons := by
  unfold Obligations.ReasmSequenceGapAbandons
  intro now f s htime hkey hsom hseq
  rw [Ne, ← eq_succ_iff_toNat] at hseq
  exact ⟨_, exec_reasm_of_gap htime hkey hsom hseq, rfl, fun later g hg => exec_reasm_idle_of_not_som rfl hg later⟩

/-! ### The packets that are taken into the context (R164, R167, R168) -/

section
variable {now : Time} {f : ParsedFrame} {s : State}

/-- A SOM packet on time, of the message's key if there is one, opens the context; `UnexpectedSom` goes in front if one was
open. -/
theorem exec_reasm_som (hsom : f.som = true) (h : s.rxState = .idle ∨ InTime s now ∧ frameKey f = s.rxKey) :
    exec (.reasm now f) s = .next ((settlePacket f (s.openContext f now)).2.report
      ((if s.rxState = .active then [plainError .unexpectedSom] else []) ++
        [(settlePacket f (s.openContext f now)).1])) := by
  have hontime : OnTime s now := h.imp_right And.left
  have hkept : ¬ (s.rxState = .active ∧ frameKey f ≠ s.rxKey) := by
    obtain hidle | ⟨-, hkey⟩ := h
    · simp [hidle]
    · simp [hkey]
  refine exec_reasm_of_onTime hontime ?_
  rw [acceptFrame, if_neg hkept, if_pos hsom]
  rfl

theorem settlePacket_of_not_last (heom : f.eom = false) (s : State) : settlePacket f s = (.ok .pending, s) := by
  simp [settlePacket, heom]

/-- A MIC is not needed, or it is there and right (R168). -/
theorem micAccepted_iff : s.micAccepted f = true ↔
    (msgByteIc s.rxMsg = false ∧ f.ic = false) ∨ f.mic = some (mic (s.rxMsg :: s.rxBuf)) := by
  unfold State.micAccepted
  split
  next hneeded =>
    have hnot : ¬ (msgByteIc s.rxMsg = false ∧ f.ic = false) := by
      rintro ⟨hmsg, hic⟩
      simp [hmsg, hic] at hneeded
    cases hmic : f.mic with
    | none => simp [hnot]
    | some m =>
      rw [or_iff_right hnot, Option.some_inj, eq_comm (a := m)]
      exact decide_eq_true_iff
  next hneeded =>
    rw [Bool.not_eq_true, Bool.or_eq_false_iff] at hneeded
    exact iff_of_true rfl (.inl hneeded)

/-- The last packet settles the message of the context by its MIC, and the context is cleared. -/
theorem settlePacket_of_last (heom : f.eom = true) (s : State) : settlePacket f s =
    (if (msgByteIc s.rxMsg = false ∧ f.ic = false) ∨ f.mic = some (mic (s.rxMsg :: s.rxBuf)) then
      .ok (.complete s.contextMessage) else plainError .badMic, s.clearContext) := by
  simp only [settlePacket, heom, if_true, finishMessage, ← micAccepted_iff]
  split_ifs <;> rfl

end

/-- Settles O28: the packet is not the last, so it is settled as `Pending`. -/
theorem reasmSomStartsMessage : Obligations.ReasmSomStartsMessage := by
  unfold Obligations.ReasmSomStartsMessage
  intro now f s hsom heom opened
  have hopened (r : List Result) : (s.openContext f now).report r = opened r := by
    simp only [opened, ← msgByte_eq_msgValue]
    rfl
  refine ⟨fun hidle => ?_, fun htime hkey => ?_⟩
  · rw [exec_reasm_som hsom (.inl hidle), settlePacket_of_not_last heom, hopened, hidle]
    rfl
  · have hactive : s.rxState = .active := htime.1
    rw [exec_reasm_som hsom (.inr ⟨htime, hkey⟩), settlePacket_of_not_last heom, hopened, if_pos hactive]
    rfl

/-- Settles O32: the packet is not the last, so it is settled as `Pending`. -/
theorem reasmAppendsChunk : Obligations.ReasmAppendsChunk := by
  unfold Obligations.ReasmAppendsChunk
  intro now f s htime hkey hsom heom hseq
  rw [exec_reasm_of_next htime hkey hsom ((eq_succ_iff_toNat ..).mpr hseq), settledState_of_not_last heom]
  rfl

theorem msgByteIc_eq_decide (mb : Byte) : msgByteIc mb = decide (128 ≤ mb.toNat) := by
  have hlt := mb.isLt
  have hbit : bitValue (msgByteIc mb) = mb.toNat / 128 := bitValue_msb mb
  rw [Bool.eq_iff_iff, decide_eq_true_iff, ← bitValue_eq_one_iff, hbit]
  omega

theorem msgByteType_eq_ofNat (mb : Byte) : msgByteType mb = BitVec.ofNat 7 (mb.toNat % 128) := by
  have hlow : (msgByteType mb).toNat = mb.toNat % 128 := toNat_lowField mb 7
  rw [← hlow, BitVec.ofNat_toNat, BitVec.setWidth_eq]

/-- Settles O29: the context that the packet opens holds the packet's own fields, and is settled at once. -/
theorem reasmSinglePacketCompletes : Obligations.ReasmSinglePacketCompletes := by
  unfold Obligations.ReasmSinglePacketCompletes
  intro now f s hsom heom h
  refine ⟨_, exec_reasm_som hsom h, ?_⟩
  simp only [settlePacket_of_last heom, State.openContext_rxMsg, State.openContext_rxBuf, msgByteIc_msgByte, and_self,
    State.contextMessage, msgByteType_msgByte, ← msgByte_eq_msgValue]
  rfl

/-- Settles O33: the message is settled with the chunk in the buffer; the message-type byte is read as a number. -/
theorem reasmLastPacketCompletes : Obligations.ReasmLastPacketCompletes := by
  unfold Obligations.ReasmLastPacketCompletes
  intro now f s htime hkey hsom heom hseq
  refine ⟨_, exec_reasm_of_next htime hkey hsom ((eq_succ_iff_toNat ..).mpr hseq), ?_⟩
  simp only [settledState, settlePacket_of_last heom, State.appendChunk_rxMsg, State.appendChunk_rxBuf,
    State.contextMessage, msgByteIc_eq_decide, msgByteType_eq_ofNat, decide_eq_false_iff_not, Nat.not_le]
  rfl

/-! ### The capacity of the buffer (R169) -/

/-- The packet `f` would be stored in the context of `s`, and the buffer would then hold more than `c` bytes. -/
def Overflows (c : Nat) (f : ParsedFrame) (s : State) : Prop :=
  (f.som = true ∧ c < f.payload.length ∧ (s.rxState = .idle ∨ s.rxState = .active ∧ frameKey f = s.rxKey)) ∨
  (f.som = false ∧ c < s.rxBuf.length + f.payload.length ∧ s.rxState = .active ∧ frameKey f = s.rxKey ∧
    f.seq = s.rxSeq + 1)

section
variable {c : Nat} {now : Time} {f : ParsedFrame} {s t : State}

theorem acceptFrame_of_overflows (h : Overflows c f s) (now : Time) :
    acceptFrame (some c) now f s = .error .bufferFull := by
  obtain ⟨hsom, hlen, hidle | ⟨-, hkey⟩⟩ | ⟨hsom, hlen, hactive, hkey, hseq⟩ := h
  · simp [acceptFrame, startMessage, fitsBuffer, hsom, hlen, hidle]
  · simp [acceptFrame, startMessage, fitsBuffer, hsom, hlen, hkey]
  · simp [acceptFrame, continueMessage, fitsBuffer, hsom, hlen, hactive, hkey, hseq]

/-- The capacity is looked at only where the packet is stored. -/
theorem acceptFrame_of_not_overflows (h : ¬ Overflows c f s) (now : Time) :
    acceptFrame (some c) now f s = acceptFrame none now f s := by
  unfold acceptFrame
  split_ifs with hother hsom
  · rfl
  · have hstored : s.rxState = .idle ∨ s.rxState = .active ∧ frameKey f = s.rxKey := by
      cases hs : s.rxState with
      | idle => exact .inl rfl
      | active => exact .inr ⟨rfl, not_not.mp fun hkey => hother ⟨hs, hkey⟩⟩
    have hlen : f.payload.length ≤ c := not_lt.mp fun hlen => h (.inl ⟨hsom, hlen, hstored⟩)
    simp [startMessage, fitsBuffer, hlen]
  · by_cases hidle : s.rxState = .idle
    · simp [continueMessage, hidle]
    by_cases hseq : f.seq = s.rxSeq + 1
    · have hactive := (RxState.ne_idle_iff _).mp hidle
      have hkey : frameKey f = s.rxKey := not_not.mp fun hkey => hother ⟨hactive, hkey⟩
      have hlen : s.rxBuf.length + f.payload.length ≤ c := not_lt.mp fun hlen =>
        h (.inr ⟨Bool.eq_false_iff.mpr hsom, hlen, hactive, hkey, hseq⟩)
      simp [continueMessage, fitsBuffer, hlen]
    · simp only [continueMessage, if_pos hseq]

theorem not_exceedsCapacity_of_backwards (h : s.timeBackwards now = true) : ¬ ExceedsCapacity c now f s := by
  obtain ⟨hactive, hbefore⟩ := (s.timeBackwards_iff now).mp h
  have hstart : ¬ s.rxT0 ≤ now := Nat.not_le.mpr hbefore
  rintro (⟨-, -, hidle | hlate | ⟨⟨-, hin, -⟩, -⟩⟩ | ⟨-, -, ⟨-, hin, -⟩, -⟩)
  · cases hactive.symm.trans hidle
  · exact hstart ((Nat.le_add_right _ 100).trans hlate.le)
  · exact hstart hin
  · exact hstart hin

/-- On time, what would exceed the capacity is what would overflow the buffer as it stands. -/
theorem exceedsCapacity_iff_of_onTime (h : OnTime s now) : ExceedsCapacity c now f s ↔ Overflows c f s := by
  obtain hidle | htime := h
  · simp [ExceedsCapacity, Overflows, InTime, hidle]
  · obtain ⟨hactive, -, hdeadline⟩ := id htime
    simp only [ExceedsCapacity, Overflows, SameKey, frameKey, hactive, htime, Nat.not_lt.mpr hdeadline, eq_succ_iff_toNat,
      true_and, false_or, reduceCtorEq]

/-- Late, it is what would overflow the buffer once the context is cleared. -/
theorem exceedsCapacity_iff_of_late (h : Late s now) : ExceedsCapacity c now f s ↔ Overflows c f s.clearContext := by
  obtain ⟨hactive, hlate⟩ := h
  have hout : ¬ InTime s now := fun ⟨_, _, hdeadline⟩ => absurd hlate (Nat.not_lt.mpr hdeadline)
  simp [ExceedsCapacity, Overflows, hout, hlate]

theorem reassemble_of_exceeds (h : ExceedsCapacity c now f s) : reassemble (some c) now f s = .refused .bufferFull := by
  obtain hback | hontime | hlate := backwards_or_onTime_or_late s now
  · exact absurd h (not_exceedsCapacity_of_backwards hback)
  · have haccept := acceptFrame_of_overflows ((exceedsCapacity_iff_of_onTime hontime).mp h) now
    simp [reassemble, hontime.timeBackwards, hontime.noticeExpiry, haccept]
  · have haccept := acceptFrame_of_overflows ((exceedsCapacity_iff_of_late hlate).mp h) now
    simp [reassemble, hlate.timeBackwards, hlate.noticeExpiry, haccept]

theorem reassemble_of_not_exceeds (h : ¬ ExceedsCapacity c now f s) :
    reassemble (some c) now f s = reassemble none now f s := by
  obtain hback | hontime | hlate := backwards_or_onTime_or_late s now
  · rw [reassemble_backwards hback, reassemble_backwards hback]
  · rw [exceedsCapacity_iff_of_onTime hontime] at h
    simp only [reassemble, hontime.noticeExpiry, acceptFrame_of_not_overflows h]
  · rw [exceedsCapacity_iff_of_late hlate] at h
    simp only [reassemble, hlate.noticeExpiry, acceptFrame_of_not_overflows h]

theorem reassemble_wf {cap : Option Nat} (hs : Memory.wf cap s = true) (h : reassemble cap now f s = .next t) :
    Memory.wf cap t = true := by
  unfold reassemble at h
  split at h
  · cases h
  · simp only at h
    split at h
    next => cases h
    next haccept =>
      have hkept := acceptFrame_wf (noticeExpiry_wf hs now) haccept
      cases h
      exact hkept

theorem wf_some_iff : Memory.wf (some c) s = true ↔ s.rxBuf.length ≤ c := by simp [Memory.wf, fitsBuffer]

end

theorem reassemble_next_or_refused (now : Time) (f : ParsedFrame) (s : State) :
    (∃ t, reassemble none now f s = .next t) ∨ reassemble none now f s = .refused .timeBackwards := by
  obtain ⟨-, h⟩ | ⟨-, rs, t, -, h⟩ := reassemble_unbounded now f s
  · exact .inr h
  · exact .inl ⟨_, h⟩

/-- An operation answers a next state, or is refused for its time and for nothing else (R16, R160). -/
theorem exec_next_or_refused (i : Instr) (s : State) :
    (∃ t, exec i s = .next t) ∨ exec i s = .refused .timeBackwards := by
  cases hi : timeOf i with
  | none =>
    by_cases hreset : i = .reset
    · subst hreset
      exact .inl ⟨_, rfl⟩
    · obtain ⟨t, ht, -⟩ := exec_withContext hi hreset s s
      exact .inl ⟨t, ht⟩
  | some now =>
    obtain hreceives | ⟨now, rfl⟩ := receives_or_tick_of_timeOf hi
    · obtain ⟨f, hexec⟩ | ⟨-, e, -, -, hexec⟩ := exec_cases_of_receives hreceives hi <;> rw [hexec]
      · exact reassemble_next_or_refused now f s
      · unfold dropPacket
        split_ifs
        · exact .inr rfl
        · exact .inl ⟨_, rfl⟩
    · obtain hback | hontime | hlate := backwards_or_onTime_or_late s now
      · exact .inr (exec_tick_backwards hback)
      · exact .inl ⟨_, exec_tick_of_onTime hontime⟩
      · exact .inl ⟨_, exec_tick_of_late hlate⟩

/-- Settles O38: the capacity is looked at only where the packet is stored, and an unbounded buffer is never full. -/
theorem finiteCapacityRefuses : Obligations.FiniteCapacityRefuses := by
  unfold Obligations.FiniteCapacityRefuses
  refine ⟨fun c now f s => reassemble_of_exceeds, fun c now f s => reassemble_of_not_exceeds, fun now f s hfull => ?_,
    fun c now f s t hs h => wf_some_iff.mp (reassemble_wf (wf_some_iff.mpr hs) h), fun i s hfull => ?_⟩
  · obtain ⟨t, h⟩ | h := reassemble_next_or_refused now f s <;> cases h.symm.trans hfull
  · obtain ⟨t, h⟩ | h := exec_next_or_refused i s <;> cases h.symm.trans hfull

/-! ### The packet classes, received (R80, R171) -/

/-- What `PARSE` reads from a packet of the class of `som`, `eom` and `ic`, with its chunk and its MIC field. -/
def classFrame (som eom ic : Bool) (h : PktHeader) (chunk : List Byte) (micField : Option Word32) : ParsedFrame where
  destAddr := h.destAddr
  byteCount := h.byteCount
  srcAddr := h.srcAddr
  version := Config.hdrVer
  destEid := h.destEid
  srcEid := h.srcEid
  som := som
  eom := eom
  toBit := h.toBit
  seq := h.seq
  tag := h.tag
  ic := ic
  msgType := h.msgType
  payload := chunk
  mic := micField
  micOk := if som then micField.map fun _ => true else none
  pecOk := true

/-- A sound packet with the fixed bytes 1 and 4 passes every check before its body (R136). -/
theorem parsePacket_of_sound {b : List Byte} (hsound : SoundPacket b) (hcode : byteAt b 1 = Config.cmdCode)
    (hversion : byteAt b 4 = versionByte) : parsePacket b = parseBody b := by
  obtain ⟨hmin, hmax, hcount, hpec⟩ := hsound
  refine parsePacket_of_pec hmin hmax hcode hcount hversion ?_
  rwa [List.dropLast_eq_take]

section
variable {som eom ic : Bool} {h : PktHeader} {chunk : List Byte} {p : Byte}

/-- `PARSE` reads a sound packet of a class back, if its MIC field is there exactly when IC and EOM ask for it, and is right
where the packet is a whole message (R140). -/
theorem parsePacket_classBytes {micField : Option Word32}
    (hsound : SoundPacket (classBytes som eom ic h (chunk ++ micWireOpt micField ++ [p])))
    (hmic : micField.isSome = (ic && eom))
    (hwhole : som = true → ∀ m ∈ micField, messageMic (msgByte ic h.msgType) chunk = m) :
    parsePacket (classBytes som eom ic h (chunk ++ micWireOpt micField ++ [p])) =
      .ok (classFrame som eom ic h chunk micField) := by
  rw [parsePacket_of_sound hsound rfl rfl, ← packetBytes_eq_classBytes, ← micBytes_eq_micWireOpt]
  simp only [packetBytes, List.cons_append, List.nil_append]
  rw [parseBody_parts, partsBody, msgByteIc_msgByte, flagsEom_flagsByte, flagsSom_flagsByte, ← hmic]
  cases micField with
  | none => simp [partsFrame, classFrame]
  | some m =>
    cases som with
    | false => simp [partsFrame, classFrame]
    | true => simp [partsFrame, classFrame, hwhole rfl m rfl]

/-- A packet that is not the last has no MIC field: what stands between header and PEC is its chunk. -/
theorem parsePacket_classBytes_of_not_last {tail : List Byte} (hsound : SoundPacket (classBytes som false ic h tail)) :
    parsePacket (classBytes som false ic h tail) = .ok (classFrame som false ic h tail.dropLast none) := by
  have htail : tail ≠ [] := by
    rintro rfl
    exact absurd hsound.1 (by simp [classBytes, headerBytes])
  obtain ⟨chunk, p, rfl⟩ := (List.eq_nil_or_concat tail).resolve_left htail
  rw [List.concat_eq_append, List.dropLast_concat]
  have hparse := parsePacket_classBytes (chunk := chunk) (p := p) (micField := none) (som := som) (eom := false) (ic := ic)
    (h := h)
  simp only [micWireOpt, List.append_nil] at hparse
  exact hparse (List.concat_eq_append ▸ hsound) (Bool.and_false ic).symm (fun _ _ hm => nomatch hm)

/-- What `RX_PACKET` does with the bytes of a class is what a delivered packet of the class does (log 3). -/
theorem delivered_of_rxPacket {now : Time} {tail : List Byte} {s : State} {o : StepOutcome}
    (hrx : exec (.rxPacket now (classBytes som eom ic h tail)) s = o) :
    (ic = false → exec (packetClass som eom false now h tail) s = o) ∧
      (ic = true → exec (packetClass som eom true now h tail) s = o) ∧
      exec (.rxPacket now (classBytes som eom ic h tail)) s = o := by
  refine ⟨?_, ?_, hrx⟩ <;> rintro rfl <;> rw [exec_packetClass, hrx]

end

/-- Settles O40: the parser gives a SOM frame that is not the last, which opens the context. -/
theorem firstPacketOpensContext : Obligations.FirstPacketOpensContext := by
  unfold Obligations.FirstPacketOpensContext
  intro ic now h tail s hsound hidle t
  obtain ⟨hreasm, -⟩ := reasmSomStartsMessage now (classFrame true false ic h tail.dropLast none) s rfl rfl
  have hparse := parsePacket_classBytes_of_not_last hsound
  exact delivered_of_rxPacket ((exec_rxPacket_of_parse hparse now s).trans (hreasm hidle))

/-- Settles O41: the parser gives the next frame, which is not the last. -/
theorem middlePacketAppends : Obligations.MiddlePacketAppends := by
  unfold Obligations.MiddlePacketAppends
  intro ic now h tail s hsound htime hkey hseq t
  have hreasm := reasmAppendsChunk now (classFrame false false ic h tail.dropLast none) s htime hkey rfl rfl hseq
  have hparse := parsePacket_classBytes_of_not_last hsound
  exact delivered_of_rxPacket ((exec_rxPacket_of_parse hparse now s).trans hreasm)

/-- The bytes of a MIC field that is there when the packet declares IC. -/
theorem micWireOpt_ite (ic : Bool) (m : Word32) :
    micWireOpt (if ic then some m else none) = if ic then micWire m else [] := by cases ic <;> rfl

theorem isSome_ite (ic : Bool) (m : Word32) : (if ic then some m else none).isSome = (ic && true) := by cases ic <;> rfl

/-- Settles O42: the parser gives the last frame with the MIC field, which is the one that the message asks for. -/
theorem lastPacketCompletes : Obligations.LastPacketCompletes := by
  unfold Obligations.LastPacketCompletes
  intro ic now h chunk p s tail hsound htime hkey hseq hdeclared
  set m := mic (s.rxMsg :: (s.rxBuf ++ chunk)) with hm
  have htail : tail = chunk ++ micWireOpt (if ic then some m else none) ++ [p] := by rw [micWireOpt_ite]
  have hparse : parsePacket (classBytes false true ic h tail) =
      .ok (classFrame false true ic h chunk (if ic then some m else none)) := by
    rw [htail] at hsound ⊢
    exact parsePacket_classBytes hsound (isSome_ite ic m) nofun
  have hgood : (s.rxMsg.toNat < 128 ∧ ic = false) ∨ (if ic then some m else none) = some m := by
    cases ic with
    | false => exact .inl ⟨hdeclared rfl, rfl⟩
    | true => exact .inr rfl
  obtain ⟨t, hexec, hvisible⟩ :=
    reasmLastPacketCompletes now (classFrame false true ic h chunk (if ic then some m else none)) s htime hkey rfl rfl hseq
  simp only [classFrame, ← hm, if_pos hgood] at hvisible
  exact ⟨t, hvisible, delivered_of_rxPacket ((exec_rxPacket_of_parse hparse now s).trans hexec)⟩

theorem micWireOpt_wholeMic (ic : Bool) (mt : BitVec 7) (chunk : List Byte) :
    micWireOpt (wholeMic ic mt chunk) = if ic then micWire (mic (msgValue ic mt :: chunk)) else [] := by
  rw [← msgByte_eq_msgValue]
  exact micWireOpt_ite ..

/-- Settles O43: the parser gives the frame of a whole message, whose MIC it has compared, and which is settled at once. -/
theorem singlePacketCompletes : Obligations.SinglePacketCompletes := by
  unfold Obligations.SinglePacketCompletes
  intro ic now h chunk p s tail hsound hidle
  have htail : tail = chunk ++ micWireOpt (wholeMic ic h.msgType chunk) ++ [p] := by rw [micWireOpt_wholeMic]
  have hparse : parsePacket (classBytes true true ic h tail) =
      .ok (classFrame true true ic h chunk (wholeMic ic h.msgType chunk)) := by
    rw [htail] at hsound ⊢
    exact parsePacket_classBytes hsound (by rw [isSome_wholeMic, Bool.and_true]) fun _ _ => eq_messageMic_of_mem_wholeMic
  have hgood : ic = false ∨ wholeMic ic h.msgType chunk = some (mic (msgValue ic h.msgType :: chunk)) := by
    cases ic with
    | false => exact .inl rfl
    | true => exact .inr (congrArg (fun mb => some (mic (mb :: chunk))) (msgByte_eq_msgValue true h.msgType))
  have hclosed : ¬ s.rxState = .active := by simp [hidle]
  obtain ⟨t, hexec, hvisible⟩ :=
    reasmSinglePacketCompletes now (classFrame true true ic h chunk (wholeMic ic h.msgType chunk)) s rfl rfl (.inl hidle)
  simp only [classFrame, if_pos hgood, if_neg hclosed, ← hidle] at hvisible
  exact ⟨t, hvisible, delivered_of_rxPacket ((exec_rxPacket_of_parse hparse now s).trans hexec)⟩

end Sys2Proof.Proofs
end

section
/-! PROOF. What 44_system.md says of the block's own registers: `RESET` and power-on (R190, R191), the control registers
(R192, R193), and the tag counter (R194). -/

namespace Sys2Proof.Proofs

open Sys2Proof Sys2Proof.Machine

/-! ### The reset state (R190, R191) -/

/-- `RESET` leaves the state after power-on, whatever it found; only what the host has still to issue stays. -/
theorem exec_reset (s : State) : exec .reset s = .next ({ State.reset with issued := s.issued }.answer .unit) := rfl

/-- Settles O1: the state that `RESET` leaves does not depend on the one it found, and its registers are those of power-on. -/
theorem resetLeavesSpecifiedState : Obligations.ResetLeavesSpecifiedState := by
  unfold Obligations.ResetLeavesSpecifiedState
  constructor
  · intro s
    exact ⟨_, exec_reset s, rfl, rfl, rfl, rfl, rfl, rfl, rfl, rfl, rfl, rfl, rfl, rfl, rfl, rfl, rfl⟩
  · intro s t h
    obtain rfl := Host.Outcome.next.inj ((exec_reset s).symm.trans h)
    rfl

/-! ### The control registers (R192, R193) -/

theorem exec_cfgWrite_of_setCfg {sel : BitVec 2} {v : Byte} {s t : State} (h : s.setCfg sel v = some t) :
    exec (.cfgWrite sel v) s = .next (t.answer .unit) := by
  rw [exec, execCfgWrite, h]

theorem exec_cfgWrite_of_not_writable {sel : BitVec 2} {v : Byte} {s : State} (h : s.setCfg sel v = none) :
    exec (.cfgWrite sel v) s = .next (s.raise (.badOperand .sel)) := by
  rw [exec, execCfgWrite, h]

/-- Settles O2: the register that each `sel` names is the one written, and the last `sel` names none that can be. -/
theorem cfgWriteSetsSelectedRegister : Obligations.CfgWriteSetsSelectedRegister := by
  unfold Obligations.CfgWriteSetsSelectedRegister
  intro v s
  have hdest : s.setCfg 0 v = some { s with cfgDestAddr := v } := rfl
  have hsrc : s.setCfg 1 v = some { s with cfgSrcAddr := v } := rfl
  have heid : s.setCfg 2 v = some { s with cfgSrcEid := v } := rfl
  have htag : s.setCfg 3 v = none := rfl
  exact ⟨exec_cfgWrite_of_setCfg hdest, exec_cfgWrite_of_setCfg hsrc, exec_cfgWrite_of_setCfg heid,
    exec_cfgWrite_of_not_writable htag⟩

theorem exec_cfgRead (sel : BitVec 2) (s : State) : exec (.cfgRead sel) s = .next (s.answer (.byte (s.cfg sel))) := rfl

theorem cfg_three (s : State) : s.cfg 3 = BitVec.ofNat 8 s.tagCtr.toNat := (BitVec.ofNat_toNat 8 s.tagCtr).symm

/-- Settles O3: the answer is the register that each `sel` names, of which only the counter is narrower than a byte. -/
theorem cfgReadReturnsSelectedRegister : Obligations.CfgReadReturnsSelectedRegister := by
  unfold Obligations.CfgReadReturnsSelectedRegister
  intro s
  rw [← cfg_three]
  exact ⟨exec_cfgRead 0 s, exec_cfgRead 1 s, exec_cfgRead 2 s, exec_cfgRead 3 s⟩

/-! ### The tag counter (R194, R151) -/

theorem exec_nextTag (s : State) : exec .nextTag s = .next (s.advanceTag.answer (.tag s.tagCtr)) := rfl

/-- The counter is three bits wide, so its successor is the one modulo 8 (R29). -/
theorem tagCtr_succ (c : BitVec 3) : c + 1 = BitVec.ofNat 3 ((c.toNat + 1) % 8) :=
  BitVec.eq_of_toNat_eq (by simp [BitVec.toNat_add])

/-- A run of draws advances the counter by their number. -/
theorem runAll_replicate_nextTag (n : Nat) (s : State) :
    ∃ t, runAll (List.replicate n .nextTag) s = .next t ∧ t.tagCtr = s.tagCtr + BitVec.ofNat 3 n := by
  induction n generalizing s with
  | zero => exact ⟨s, rfl, (BitVec.add_zero _).symm⟩
  | succ n ih =>
    obtain ⟨t, hrun, hctr⟩ := ih (s.advanceTag.answer (.tag s.tagCtr))
    refine ⟨t, by rw [List.replicate_succ, runAll_cons_of_exec (exec_nextTag s), hrun], ?_⟩
    calc t.tagCtr
      _ = s.tagCtr + 1#3 + BitVec.ofNat 3 n := hctr
      _ = s.tagCtr + BitVec.ofNat 3 (n + 1) := by
        rw [BitVec.add_assoc, BitVec.add_comm 1#3, BitVec.ofNat_add]

/-- Settles O4: each of the two operations advances the one counter once, and eight is 0 in its three bits. -/
theorem nextTagReturnsAndAdvances : Obligations.NextTagReturnsAndAdvances := by
  unfold Obligations.NextTagReturnsAndAdvances
  refine ⟨fun s => ?next, fun s => ?eight, fun de mt payload ic s => ?fragmented⟩
  case next =>
    rw [← tagCtr_succ]
    exact exec_nextTag s
  case eight =>
    obtain ⟨t, hrun, hctr⟩ := runAll_replicate_nextTag 8 s
    have height : BitVec.ofNat 3 8 = 0#3 := rfl
    exact ⟨t, hrun, by rw [hctr, height, BitVec.add_zero]⟩
  case fragmented => exact ⟨_, exec_buildFragmented s de mt payload ic, tagCtr_succ s.tagCtr⟩

end Sys2Proof.Proofs
end

section
/-! PROOF. What 60_exceptions.md says of errors and stops: the kinds of the error codes (R200 to R203), that nothing but a time
before `RX_T0` stops an operation (R212, R220), and what an operation that returned an error has changed (R210). -/

namespace Sys2Proof.Proofs

open Sys2Proof Sys2Proof.Machine

/-! ### The error codes (R200 to R203) -/

theorem kind_not_excluded (c : ErrCode) : c.kind ≠ .protocol ∧ c.kind ≠ .decode ∧ c.kind ≠ .transport := by
  cases c <;> decide

/-- Settles O50: the two columns of the table are computed row by row. -/
theorem errorCodesHaveTheirKinds : Obligations.ErrorCodesHaveTheirKinds := by
  unfold Obligations.ErrorCodesHaveTheirKinds
  exact ⟨rfl, rfl, kind_not_excluded⟩

/-! ### What stops an operation (R160, R220, R238) -/

section
variable {i : Instr} {now : Time}

theorem not_timeOk_iff (i : Instr) (s : State) :
    ¬ TimeOk i s ↔ ∃ now, timeOf i = some now ∧ s.timeBackwards now = true := by
  simp only [TimeOk, State.timeBackwards_iff, not_forall, not_le, exists_prop]

theorem exec_next_of_no_time (hi : timeOf i = none) (s : State) : ∃ t, exec i s = .next t := by
  by_cases hreset : i = .reset
  · exact ⟨_, hreset ▸ exec_reset s⟩
  · obtain ⟨t, ht, -⟩ := exec_withContext hi hreset s s
    exact ⟨t, ht⟩

/-- An operation with a time is refused if that time runs backwards, and stopped by nothing else. -/
theorem exec_cases_of_timeOf (hi : timeOf i = some now) (s : State) :
    (s.timeBackwards now = true ∧ exec i s = .refused .timeBackwards) ∨
    (s.timeBackwards now = false ∧ ∃ t, exec i s = .next t) := by
  cases i with
  | tick now =>
    cases hi
    obtain hback | hontime | hlate := backwards_or_onTime_or_late s now
    · exact .inl ⟨hback, exec_tick_backwards hback⟩
    · exact .inr ⟨hontime.timeBackwards, _, exec_tick_of_onTime hontime⟩
    · exact .inr ⟨hlate.timeBackwards, _, exec_tick_of_late hlate⟩
  | reasm now f =>
    cases hi
    exact (reassemble_unbounded now f s).imp_right fun ⟨hforward, _, _, _, hnext⟩ => ⟨hforward, _, hnext⟩
  | rxPacket | pktSingle | pktSingleIc | pktFirst | pktFirstIc | pktMiddle | pktMiddleIc | pktLast | pktLastIc =>
    cases hi
    cases hback : s.timeBackwards now with
    | true => exact .inl ⟨rfl, receivePacket_backwards hback none _⟩
    | false => exact .inr ⟨rfl, receivePacket_unbounded_next hback _⟩
  | _ => cases hi

end

/-- Settles O44: the host's duty of R238 is that the time does not run backwards, which is all that stops an operation. -/
theorem onlyBackwardTimeIsRefused : Obligations.OnlyBackwardTimeIsRefused := by
  unfold Obligations.OnlyBackwardTimeIsRefused
  intro i s
  constructor
  · intro hok
    cases hi : timeOf i with
    | none => exact exec_next_of_no_time hi s
    | some now =>
      obtain ⟨hback, -⟩ | ⟨-, hnext⟩ := exec_cases_of_timeOf hi s
      · exact absurd hok ((not_timeOk_iff i s).mpr ⟨now, hi, hback⟩)
      · exact hnext
  · intro hnot
    obtain ⟨now, hi, hback⟩ := (not_timeOk_iff i s).mp hnot
    obtain ⟨-, hrefused⟩ | ⟨hforward, -⟩ := exec_cases_of_timeOf hi s
    · exact hrefused
    · cases hback.symm.trans hforward

/-! ### What an operation that returned an error has changed (R210) -/

/-- The errors for which the context may have changed (R210, R173). -/
def contextErrors : List ErrCode := [.missingEom, .sequenceGap, .badMic, .unexpectedSom]

/-- How the outcomes in `t` go with the change from `s` to `t`: nothing has changed but the outcome; or the operation answered
a value; or it cleared the context with an error that may; or such an error stands in front of another outcome. -/
inductive ErrorEffect (s : State) : State → Prop where
  | unchanged (rs : List Result) : ErrorEffect s (s.report rs)
  | answered (v : Value) (t : State) : ErrorEffect s (t.answer v)
  | cleared {c : ErrCode} (hc : c ∈ contextErrors) (t : State) : ErrorEffect s (t.clearContext.report [plainError c])
  | preceded {c : ErrCode} (hc : c ∈ contextErrors) (x : Result) (t : State) :
      ErrorEffect s (t.report [plainError c, x])

section
variable {i : Instr} {now : Time} {f : ParsedFrame} {s t : State} {rs : List Result}

theorem settledState_errorEffect (f : ParsedFrame) (s u : State) : ErrorEffect s (settledState f u) := by
  unfold settledState
  obtain ⟨-, h⟩ | ⟨-, -, h⟩ | ⟨-, -, h⟩ := settlePacket_cases f u <;> rw [h]
  · exact .answered .pending u
  · exact .answered (.complete u.contextMessage) u.clearContext
  · exact .cleared (c := .badMic) (by decide) u

theorem acceptFrame_errorEffect (h : acceptFrame none now f s = .ok (rs, t)) : ErrorEffect s (t.report rs) := by
  obtain ⟨-, -, he⟩ | ⟨-, -, he⟩ | ⟨-, -, he⟩ | ⟨-, -, -, -, he⟩ | ⟨-, -, -, -, he⟩ := acceptFrame_unbounded now f s <;>
    cases h.symm.trans he
  · exact .unchanged [plainError .tagMismatch]
  · split_ifs
    · exact .preceded (c := .unexpectedSom) (by decide) _ _
    · exact settledState_errorEffect f s (s.openContext f now)
  · exact .unchanged [plainError .sequenceGap]
  · exact .cleared (c := .sequenceGap) (by decide) s
  · exact settledState_errorEffect f s (s.appendChunk f)

/-- Late, `MissingEom` stands in front of the one outcome of the packet. -/
theorem reassemble_errorEffect (h : reassemble none now f s = .next t) : ErrorEffect s t := by
  obtain hback | hontime | hlate := backwards_or_onTime_or_late s now
  · cases h.symm.trans (reassemble_backwards hback)
  · obtain ⟨rs, u, haccept⟩ := acceptFrame_unbounded_ok now f s
    cases h.symm.trans (reassemble_of_onTime hontime haccept)
    exact acceptFrame_errorEffect haccept
  · obtain ⟨x, u, haccept, -⟩ := acceptFrame_results_of_idle (s := s.clearContext) rfl now f
    cases h.symm.trans (reassemble_of_late hlate haccept)
    exact .preceded (by decide) x u

theorem dropPacket_errorEffect {e : Err} (h : dropPacket now e s = .next t) : ErrorEffect s t := by
  obtain hback | hontime | hlate := backwards_or_onTime_or_late s now
  · cases h.symm.trans (dropPacket_backwards hback)
  · cases h.symm.trans (dropPacket_of_onTime hontime)
    exact .unchanged [.error e]
  · cases h.symm.trans (dropPacket_of_late hlate)
    exact .preceded (by decide) (.error e) s.clearContext

theorem exec_errorEffect_of_timeOf (hi : timeOf i = some now) (h : exec i s = .next t) : ErrorEffect s t := by
  obtain hreceives | ⟨now, rfl⟩ := receives_or_tick_of_timeOf hi
  · obtain ⟨f, hexec⟩ | ⟨-, e, -, -, hexec⟩ := exec_cases_of_receives hreceives hi <;> rw [hexec] at h
    · exact reassemble_errorEffect h
    · exact dropPacket_errorEffect h
  · obtain rfl | rfl := exec_tick_cases h
    · exact .cleared (c := .missingEom) (by decide) s
    · exact .answered .unit s

/-- An operation without a time answers a value, or raises an error and leaves all else as it was: `RESET` and the operations
that write a register raise none. -/
theorem exec_answers_or_raises (hi : timeOf i = none) (h : exec i s = .next t) :
    (∃ v u, t = State.answer v u) ∨ ∃ e, t = s.raise e := by
  by_cases hreset : i = .reset
  · subst hreset
    cases h
    exact .inl ⟨_, _, rfl⟩
  cases exec_registerEffect hi hreset h with
  | answer _ r =>
    cases r with
    | ok v => exact .inl ⟨v, s, rfl⟩
    | error e => exact .inr ⟨e, rfl⟩
  | tagCtr hdraw =>
    obtain rfl | ⟨de, mt, p, ic, rfl⟩ := eq_of_drawsTag hdraw
    · exact .inl ⟨_, _, Host.Outcome.next.inj (h.symm.trans (exec_nextTag s))⟩
    · exact .inl ⟨_, _, Host.Outcome.next.inj (h.symm.trans (exec_buildFragmented s de mt p ic))⟩
  | pecAcc | micAcc | cfgDestAddr | cfgSrcAddr | cfgSrcEid => exact .inl ⟨_, _, rfl⟩

theorem exec_errorEffect (h : exec i s = .next t) : ErrorEffect s t := by
  cases hi : timeOf i with
  | some now => exact exec_errorEffect_of_timeOf hi h
  | none =>
    obtain ⟨v, u, rfl⟩ | ⟨e, rfl⟩ := exec_answers_or_raises hi h
    · exact .answered v u
    · exact .unchanged [.error e]

theorem exec_sameOutsideContext_of_error {e : Err} (h : exec i s = .next t) (herror : .error e ∈ t.result) :
    SameOutsideContext s t := by
  cases hi : timeOf i with
  | some now => exact exec_sameOutsideContext hi h
  | none =>
    obtain ⟨v, u, rfl⟩ | ⟨e, rfl⟩ := exec_answers_or_raises hi h
    · simp at herror
    · rfl

end

/-- Settles O49: the registers outside the context by what an operation with a time, and one without, writes; the context by
the four ways in which errors go with a change. -/
theorem errorsChangeOnlyContext : Obligations.ErrorsChangeOnlyContext := by
  unfold Obligations.ErrorsChangeOnlyContext
  intro i s t h ⟨e, herror⟩
  obtain ⟨hpec, hmic, hdest, hsrc, heid, htag, -⟩ := (exec_sameOutsideContext_of_error h herror).registers
  refine ⟨hpec, hmic, hdest, hsrc, heid, htag, ?_⟩
  cases exec_errorEffect h with
  | unchanged rs => exact ⟨fun _ => rfl, fun _ _ _ => .inl rfl⟩
  | answered v t => simp at herror
  | cleared hc t => exact ⟨fun hnone => absurd hc (hnone _ (List.mem_singleton_self _)), fun _ _ _ => .inr ⟨rfl, rfl⟩⟩
  | preceded hc x t => exact ⟨fun hnone => absurd hc (hnone _ List.mem_cons_self), nofun⟩

end Sys2Proof.Proofs
end
